-- ==== Sys2Proof/Word.lean ====
section
/-! DEFINITION. The word types of the GQ core: the byte of a datagram, the 16-bit slot of the register bank, the exact
scalar every `real` quantity is held in, and the small fixed-size bundles (three axes, four motors) the rules speak of. -/

namespace Sys2Proof

/-- One byte of a datagram (R60). -/
abbrev Byte := BitVec 8

/-- One slot of the register bank: a 16-bit two's-complement value (R10). -/
abbrev Word := BitVec 16

/-- A value of a `real` quantity of the spec: the rational number it denotes (R3). How two of them are added or multiplied is
the configuration's `NUM` (log 2, DESIGN CHOICE). -/
abbrev Scalar := Rat

/-- A triple of reals, indexed 0, 1, 2 (section 6 of 00, `vec3`); in the body frame forward, left, up (R9). -/
structure Vec3 where
  v0 : Scalar
  v1 : Scalar
  v2 : Scalar
  deriving DecidableEq, Repr, Inhabited

/-- The zero vector. -/
def Vec3.zero : Vec3 := ⟨0, 0, 0⟩

/-- One component of a triple. -/
def Vec3.get (v : Vec3) (i : Fin 3) : Scalar :=
  match i with
  | 0 => v.v0
  | 1 => v.v1
  | 2 => v.v2

/-- Four like things, one per motor, motor indices 0 to 3 (R75). -/
structure Quad (α : Type) where
  m0 : α
  m1 : α
  m2 : α
  m3 : α
  deriving DecidableEq, Repr

/-- The entry of one motor. -/
def Quad.get {α : Type} (q : Quad α) (i : Fin 4) : α :=
  match i with
  | 0 => q.m0
  | 1 => q.m1
  | 2 => q.m2
  | 3 => q.m3

/-- The bundle with the entry of one motor replaced. -/
def Quad.set {α : Type} (q : Quad α) (i : Fin 4) (a : α) : Quad α :=
  match i with
  | 0 => { q with m0 := a }
  | 1 => { q with m1 := a }
  | 2 => { q with m2 := a }
  | 3 => { q with m3 := a }

/-- The three angles `EULER` answers, in radians (R8, R97). -/
structure Euler where
  yaw : Scalar
  pitch : Scalar
  roll : Scalar
  deriving DecidableEq, Repr, Inhabited

/-- The AttitudeSample of one tick (R25, R97): angles in radians, de-biased rate in deg/s, acceleration in g. -/
structure AttitudeSample where
  yaw : Scalar
  pitch : Scalar
  roll : Scalar
  rate : Vec3
  acc : Vec3
  deriving DecidableEq, Repr

/-- The fusion state, opaque (R8, R23): plain data to which only `FUSE` and `EULER` give a meaning (log 4). -/
structure FState where
  data : List Scalar
  deriving DecidableEq, Repr, Inhabited

end Sys2Proof
end

