-- ==== Sys2Proof/Config.lean ====
section
/-! DEFINITION. The configuration record CFG of R2, its constraints, the reference configuration CFG0, the names of the
registers (R11), and the values nothing in the spec fixes: the fusion algorithm (R8), the operations of a NUM other than the
exact one (R3), the thresholds of another quantiser (R4) and ENV's readings (R214), all constants without a body. -/

namespace Sys2Proof

/-- The forty named registers, in the order of R11's table. -/
inductive Reg where
  | battRaw | battFiltered | battStatus | battLowThreshold | landingCeiling | descendDuration
  | attYaw | attPitch | attRoll | rotX | rotY | rotZ | accX | accY | accZ
  | pYaw | pPitch | pRoll | dYaw | dPitch | dRoll
  | trimYaw | trimPitch | trimRoll | targetYaw | targetPitch | targetRoll
  | joyThrottle | joyPitch | joyRoll | motor0 | motor1 | motor2 | motor3
  | limit | enable | testMode | calib | time | loopTime
  deriving DecidableEq, Repr

/-- The place of a register in R11's table, which is its ID under CFG0. -/
def Reg.idx : Reg → Nat
  | .battRaw => 0x00 | .battFiltered => 0x01 | .battStatus => 0x02 | .battLowThreshold => 0x03
  | .landingCeiling => 0x04 | .descendDuration => 0x05
  | .attYaw => 0x06 | .attPitch => 0x07 | .attRoll => 0x08
  | .rotX => 0x09 | .rotY => 0x0A | .rotZ => 0x0B
  | .accX => 0x0C | .accY => 0x0D | .accZ => 0x0E
  | .pYaw => 0x0F | .pPitch => 0x10 | .pRoll => 0x11
  | .dYaw => 0x12 | .dPitch => 0x13 | .dRoll => 0x14
  | .trimYaw => 0x15 | .trimPitch => 0x16 | .trimRoll => 0x17
  | .targetYaw => 0x18 | .targetPitch => 0x19 | .targetRoll => 0x1A
  | .joyThrottle => 0x1B | .joyPitch => 0x1C | .joyRoll => 0x1D
  | .motor0 => 0x1E | .motor1 => 0x1F | .motor2 => 0x20 | .motor3 => 0x21
  | .limit => 0x22 | .enable => 0x23 | .testMode => 0x24 | .calib => 0x25
  | .time => 0x26 | .loopTime => 0x27

/-- The register that mirrors one motor's duty (R20). -/
def Reg.motor (i : Fin 4) : Reg :=
  match i with
  | 0 => .motor0
  | 1 => .motor1
  | 2 => .motor2
  | 3 => .motor3

/-- A remapping constant (R9): body axis `i` is `sign i` times sensor axis `perm i`; `neg` true is sign -1. -/
structure Remap where
  perm0 : Fin 3
  perm1 : Fin 3
  perm2 : Fin 3
  neg0 : Bool
  neg1 : Bool
  neg2 : Bool
  deriving DecidableEq, Repr

/-- One row of the mixing matrix (R142): the columns throttle, rudder, elevator, aileron. -/
structure MixRow where
  thr : Scalar
  rud : Scalar
  ele : Scalar
  ail : Scalar
  deriving DecidableEq, Repr

/-- The configuration field `NUM` of R3 and U1: the default, exact rational arithmetic, or any other arithmetic, of whose
operations nothing is known (log 2). -/
inductive Numerics where
  | rational
  | other
  deriving DecidableEq, Repr

/-- The configuration field `Q` of R4: the default, truncation toward zero, or any other quantiser R4 admits, whose
thresholds are left free (log 3). -/
inductive Quantiser where
  | truncate
  | other
  deriving DecidableEq, Repr

/-- The configuration record CFG (R2). `secondsPerUnit` is the length of one time unit, which R96 needs to convert
PERIOD to seconds (log 15); `eulerGiven` is an answer of EULER stated as a given, as the vectors of 95 do (log 4). -/
structure Cfg where
  n : Nat
  rid : List Nat
  initRegs : List Word
  wBatt : Nat
  period : Nat
  commTimeout : Nat
  vSlope : Scalar
  vOffset : Scalar
  adcBits : Nat
  vBase : Scalar
  vShutoff : Scalar
  mix : Quad MixRow
  remapG : Remap
  remapA : Remap
  fstateInit : FState
  eulerGiven : Option Euler
  angleUnit : Scalar
  kpUnit : Scalar
  kdUnit : Scalar
  rotRegScale : Scalar
  accRegScale : Scalar
  battRegScale : Scalar
  descendUnit : Nat
  timeRegUnit : Scalar
  loopTimeUnit : Scalar
  rxMax : Nat
  num : Numerics
  pi : Scalar
  q : Quantiser
  secondsPerUnit : Scalar
  deriving DecidableEq, Repr

/-- `CAL_CAP`, normative (R2): the capacity of the calibration buffer. -/
def calCap : Nat := 1000

/-- `DUTY_MAX`, normative (R2): the top of the duty domain. -/
def dutyMax : Int := 1023

/-- `TESTMODE_MAGIC`, normative (R2, R14). -/
def testModeMagic : Word := 0x00A5#16

/-- The ID of a named register, `RID(NAME)` (R2, R48). -/
def Cfg.id (c : Cfg) (r : Reg) : Nat := c.rid.getD r.idx 0

/-- The permutation of a remapping is one (R9). -/
def Remap.isPerm (m : Remap) : Bool :=
  m.perm0 != m.perm1 && m.perm0 != m.perm2 && m.perm1 != m.perm2

/-- The constraints of R2's table (and of R9, R142), which are all a proof may assume of a configuration. -/
structure Cfg.Ok (c : Cfg) : Prop where
  n_min : 40 ≤ c.n
  n_max : c.n ≤ 256
  rid_length : c.rid.length = 40
  rid_nodup : c.rid.Nodup
  rid_range : ∀ i ∈ c.rid, i < c.n
  init_length : c.initRegs.length = c.n
  w_pos : 1 ≤ c.wBatt
  period_pos : 0 < c.period
  adc_pos : 1 ≤ c.adcBits
  vBase_pos : 0 < c.vBase
  vShutoff_pos : 0 < c.vShutoff
  mix_throttle : c.mix.m1.thr = c.mix.m0.thr ∧ c.mix.m2.thr = c.mix.m0.thr ∧ c.mix.m3.thr = c.mix.m0.thr
  mix_rudder_pos : ([c.mix.m0.rud, c.mix.m1.rud, c.mix.m2.rud, c.mix.m3.rud].filter (0 < ·)).length = 2
  mix_rudder_neg : ([c.mix.m0.rud, c.mix.m1.rud, c.mix.m2.rud, c.mix.m3.rud].filter (· < 0)).length = 2
  remapG_perm : c.remapG.isPerm = true
  remapA_perm : c.remapA.isPerm = true
  angleUnit_pos : 0 < c.angleUnit
  kpUnit_pos : 0 < c.kpUnit
  kdUnit_pos : 0 < c.kdUnit
  rotRegScale_pos : 0 < c.rotRegScale
  accRegScale_pos : 0 < c.accRegScale
  battRegScale_pos : 0 < c.battRegScale
  descendUnit_pos : 0 < c.descendUnit
  timeRegUnit_pos : 0 < c.timeRegUnit
  loopTimeUnit_pos : 0 < c.loopTimeUnit
  rxMax_min : 513 ≤ c.rxMax
  pi_low : 314159 / 100000 < c.pi
  pi_high : c.pi < 314160 / 100000
  secondsPerUnit_pos : 0 < c.secondsPerUnit

/-- The value of π CFG0 takes, inside the bounds of R5. -/
def piCfg0 : Scalar := 31415926535897932 / 10000000000000000

/-- CFG0, the reference configuration (R2; the spec's own choice, log 1). -/
def cfg0 : Cfg where
  n := 40
  rid := List.range 40
  initRegs := ((List.replicate 40 (0#16)).set 0x22 1023#16).set 0x25 2#16
  wBatt := 4
  period := 10000
  commTimeout := 1000000
  vSlope := 18659 / 10000
  vOffset := -1470441 / 10000
  adcBits := 10
  vBase := 800
  vShutoff := 600
  mix := ⟨⟨1, 1, 1, 1⟩, ⟨1, -1, 1, -1⟩, ⟨1, 1, -1, -1⟩, ⟨1, -1, -1, 1⟩⟩
  remapG := ⟨0, 1, 2, false, false, false⟩
  remapA := ⟨0, 1, 2, false, false, false⟩
  fstateInit := ⟨[]⟩
  eulerGiven := none
  angleUnit := piCfg0 / 1800
  kpUnit := 1
  kdUnit := 1
  rotRegScale := 1
  accRegScale := 1000
  battRegScale := 1
  descendUnit := 1000
  timeRegUnit := 1000
  loopTimeUnit := 1
  rxMax := 513
  num := .rational
  pi := piCfg0
  q := .truncate
  secondsPerUnit := 1 / 1000000

namespace Config

/-- `FUSE` (R8), opaque: state, rate in deg/s, acceleration in g, sampling period in seconds. -/
opaque fuse : FState → Vec3 → Vec3 → Scalar → FState

/-- `EULER` (R8), opaque: yaw, pitch, roll in radians. -/
opaque euler : FState → Euler

/-- `add` of a `NUM` other than the exact one (R3, U1; log 2). -/
opaque numAdd : Scalar → Scalar → Scalar

/-- `sub` of such a `NUM`. -/
opaque numSub : Scalar → Scalar → Scalar

/-- `mul` of such a `NUM`. -/
opaque numMul : Scalar → Scalar → Scalar

/-- `div` of such a `NUM`. -/
opaque numDiv : Scalar → Scalar → Scalar

/-- `ofInt` of such a `NUM`, for an integer beyond 16 bits (R4 (i); log 2). -/
opaque numOfInt : Int → Scalar

/-- The thresholds of a quantiser other than the default (log 3): between `k` and `k + 1` it answers `k` up to the
threshold and `k + 1` above it, and the flag says which it answers at the threshold. -/
opaque quantThreshold : Int → Scalar × Bool

/-- ENV's free reading of `clock()`: how far it lies after the last draw (R6, R214; log 6). -/
opaque freeClock : Nat → Nat

/-- ENV's free reading of `HAL.readBatteryRaw()` (R214; log 6). -/
opaque freeAdc : Nat → Nat

/-- ENV's free reading of `HAL.readGyro()`, deg/s in sensor axes (R214; log 6). -/
opaque freeGyro : Nat → Vec3

/-- ENV's free reading of `HAL.readAccel()`, g in sensor axes (R214; log 6). -/
opaque freeAccel : Nat → Vec3

end Config

end Sys2Proof
end

