-- ==== Sys2Proof/Syntax.lean ====
section
/-! DEFINITION. The instructions of the GQ core: one constructor per row of spec/opcode_table.json, in the table's order.
The five wire commands carry the fields of their datagram (R60 to R66), the internal operations carry the operands
their rules name (log 9), and the thirteen tick steps carry none. -/

namespace Sys2Proof

/-- One constructor per row of the opcode table. -/
inductive Instr where
  -- wire commands (R61 to R65)
  | rd (addr : Byte)
  | wr (addr : Byte) (value : Word)
  | brd (addr : Byte) (count : Byte)
  | bwr (addr : Byte) (values : List Word)
  | echo (bytes : List Byte)
  -- RegisterBank (R41, R42)
  | rbRead (id : Int)
  | rbWrite (id : Int) (value : Word)
  -- MovingAverageFilter (R80 to R82)
  | mafReset
  | mafPut (v : Scalar)
  | mafGet
  -- AttitudeEstimator (R90 to R92)
  | estInit
  | estStartCal
  | estUpdate
  -- AutoPilotFailsafe (R110 to R113)
  | apInit
  | apEnter (t : Nat)
  | apGetThr (now : Nat) (requested : Int)
  | apSetParam (ceiling : Word) (duration : Word)
  -- AttitudeController (R121, R124)
  | ctlWrap (e : Scalar)
  | ctlRun (sample : AttitudeSample) (tgt : Vec3)
  -- MotorMixer (R135, R139, R140)
  | mixAmp (vf : Option Scalar)
  | mixRun (thr : Int) (rud : Scalar) (ele : Scalar) (ail : Scalar) (vf : Option Scalar)
  | mixTest (en : Word)
  -- ControlLoopScheduler (R171 to R183)
  | tickT1
  | tickT2
  | tickT3
  | tickT4
  | tickT5
  | tickT6
  | tickT7
  | tickT8
  | tickT9
  | tickT10
  | tickT11
  | tickT12
  | tickT13
  deriving DecidableEq, Repr

/-- An internal operation or tick step named by its label (R73), with its operands beside the label as numbers; the
spec encodes no operand (log 9). -/
structure Call where
  label : Byte
  args : List Scalar
  deriving DecidableEq, Repr

/-- What an instruction is read from: the bytes of a datagram (R60), or a call by label (R73). -/
inductive Code where
  | datagram (bytes : List Byte)
  | call (c : Call)
  deriving DecidableEq, Repr

end Sys2Proof
end

