-- ==== Sys2Proof/WellFormed.lean ====
section
/-! DEFINITION. Which instruction terms stand for an instruction of the hardware: the checks the encodings of R60 to R66
put on the wire commands. The internal operations accept every operand of their type. -/

namespace Sys2Proof

/-- The check of one term; `rxMax` is the longest datagram (R60, U6). -/
def Instr.wellFormed (rxMax : Nat) : Instr → Bool
  | .rd _ => true
  | .wr _ _ => true
  | .brd _ _ => true
  -- the count field is one byte (R64)
  | .bwr _ values => decide (values.length ≤ 255)
  -- at least one byte, byte 0 in 0x04 .. 0xFF, no longer than a datagram may be (R65)
  | .echo bytes =>
    match bytes with
    | [] => false
    | op :: rest => decide (4 ≤ op.toNat) && decide (rest.length + 1 ≤ rxMax)
  | .rbRead _ => true
  | .rbWrite _ _ => true
  | .mafReset => true
  | .mafPut _ => true
  | .mafGet => true
  | .estInit => true
  | .estStartCal => true
  | .estUpdate => true
  | .apInit => true
  | .apEnter _ => true
  | .apGetThr _ _ => true
  | .apSetParam _ _ => true
  | .ctlWrap _ => true
  | .ctlRun _ _ => true
  | .mixAmp _ => true
  | .mixRun _ _ _ _ _ => true
  | .mixTest _ => true
  | .tickT1 => true
  | .tickT2 => true
  | .tickT3 => true
  | .tickT4 => true
  | .tickT5 => true
  | .tickT6 => true
  | .tickT7 => true
  | .tickT8 => true
  | .tickT9 => true
  | .tickT10 => true
  | .tickT11 => true
  | .tickT12 => true
  | .tickT13 => true

end Sys2Proof
end

