-- ==== Sys2Proof/Decode.lean ====
section
/-! DEFINITION. The decoder, total on any bytes and rejecting by name (R66 to R71 for datagrams, R73 for labels), then
the encoder, then the two functions by which the host names an instruction by the number the opcode table gives it. -/

namespace Sys2Proof

/-- Why some bytes are no instruction. -/
inductive Reject where
  /-- `Drop(short)`: the datagram is empty or below its opcode's minimum length (R68, X1 of R201). -/
  | short
  /-- longer than `RX_MAX`: outside the spec (R71, U6). -/
  | tooLong
  /-- a call whose label is no row of R73's table. -/
  | unknownLabel
  /-- a call whose operand is no value of the operand's type (a fraction for an integer). -/
  | badOperand
  deriving DecidableEq, Repr

/-- What the decoder answers. -/
inductive Decoded where
  | ok (i : Instr)
  | reject (r : Reject)
  deriving DecidableEq, Repr

/-! ### Bytes and values -/

/-- `lo(v)`: bits 7:0 (section 6 of 00). -/
def loByte (v : Word) : Byte := v.extractLsb' 0 8

/-- `hi(v)`: bits 15:8 (section 6 of 00). -/
def hiByte (v : Word) : Byte := v.extractLsb' 8 8

/-- The slot value of two wire bytes, low byte first (R44, R66); read signed it is `sext_16(lo + 256*hi)`. -/
def wordOf (lo hi : Byte) : Word := hi ++ lo

/-- The first `k` values of a byte string, two bytes each, or none if it is too short (R64). -/
def takeValues : Nat → List Byte → Option (List Word)
  | 0, _ => some []
  | k + 1, lo :: hi :: rest => (takeValues k rest).map (wordOf lo hi :: ·)
  | _ + 1, _ => none

/-- The bytes of a list of values, each low byte first (R64). -/
def valueBytes : List Word → List Byte
  | [] => []
  | v :: vs => loByte v :: hiByte v :: valueBytes vs

/-! ### Datagrams -/

/-- The decoding procedure of R70, in its order; bytes beyond a format's length are ignored (R69). -/
def decodeDatagram (rxMax : Nat) (rx : List Byte) : Decoded :=
  if rxMax < rx.length then .reject .tooLong
  else
    match rx with
    | [] => .reject .short
    | op :: body =>
      if op = 0x00#8 then
        match body with
        | addr :: _ => .ok (.rd addr)
        | _ => .reject .short
      else if op = 0x01#8 then
        match body with
        | addr :: lo :: hi :: _ => .ok (.wr addr (wordOf lo hi))
        | _ => .reject .short
      else if op = 0x02#8 then
        match body with
        | addr :: count :: _ => .ok (.brd addr count)
        | _ => .reject .short
      else if op = 0x03#8 then
        match body with
        | addr :: count :: payload =>
          match takeValues count.toNat payload with
          | some values => .ok (.bwr addr values)
          | none => .reject .short
        | _ => .reject .short
      else .ok (.echo (op :: body))

/-! ### Calls by label -/

/-- One operand of a call; one that is not given is zero. -/
def Call.arg (c : Call) (k : Nat) : Scalar := c.args.getD k 0

/-- A number as an integer operand. -/
def intOperand (a : Scalar) : Option Int := if a.den = 1 then some a.num else none

/-- A number as a natural operand (a time). -/
def natOperand (a : Scalar) : Option Nat := if a.den = 1 ∧ 0 ≤ a.num then some a.num.toNat else none

/-- A number as a 16-bit signed operand. -/
def wordOperand (a : Scalar) : Option Word :=
  if a.den = 1 ∧ -32768 ≤ a.num ∧ a.num ≤ 32767 then some (BitVec.ofInt 16 a.num) else none

/-- An instruction from an operand that may be no value of its type. -/
def Decoded.ofOption (o : Option Instr) : Decoded :=
  match o with
  | some i => .ok i
  | none => .reject .badOperand

/-- The attitude sample of the first nine operands of a call. -/
def Call.sample (c : Call) : AttitudeSample :=
  ⟨c.arg 0, c.arg 1, c.arg 2, ⟨c.arg 3, c.arg 4, c.arg 5⟩, ⟨c.arg 6, c.arg 7, c.arg 8⟩⟩

/-- The instruction a label of R73's table names. -/
def decodeCall (c : Call) : Decoded :=
  match c.label.toNat with
  | 0x10 => .ofOption ((intOperand (c.arg 0)).map .rbRead)
  | 0x11 => .ofOption ((intOperand (c.arg 0)).bind fun id => (wordOperand (c.arg 1)).map (.rbWrite id))
  | 0x20 => .ok .mafReset
  | 0x21 => .ok (.mafPut (c.arg 0))
  | 0x22 => .ok .mafGet
  | 0x30 => .ok .estInit
  | 0x31 => .ok .estStartCal
  | 0x32 => .ok .estUpdate
  | 0x40 => .ok .apInit
  | 0x41 => .ofOption ((natOperand (c.arg 0)).map .apEnter)
  | 0x42 => .ofOption ((natOperand (c.arg 0)).bind fun now => (intOperand (c.arg 1)).map (.apGetThr now))
  | 0x43 => .ofOption ((wordOperand (c.arg 0)).bind fun d => (wordOperand (c.arg 1)).map (.apSetParam d))
  | 0x50 => .ok (.ctlWrap (c.arg 0))
  | 0x51 => .ok (.ctlRun c.sample ⟨c.arg 9, c.arg 10, c.arg 11⟩)
  | 0x60 => .ok (.mixAmp c.args[0]?)
  | 0x61 => .ofOption ((intOperand (c.arg 0)).map fun thr => .mixRun thr (c.arg 1) (c.arg 2) (c.arg 3) c.args[4]?)
  | 0x62 => .ofOption ((wordOperand (c.arg 0)).map .mixTest)
  | 0x71 => .ok .tickT1
  | 0x72 => .ok .tickT2
  | 0x73 => .ok .tickT3
  | 0x74 => .ok .tickT4
  | 0x75 => .ok .tickT5
  | 0x76 => .ok .tickT6
  | 0x77 => .ok .tickT7
  | 0x78 => .ok .tickT8
  | 0x79 => .ok .tickT9
  | 0x7A => .ok .tickT10
  | 0x7B => .ok .tickT11
  | 0x7C => .ok .tickT12
  | 0x7D => .ok .tickT13
  | _ => .reject .unknownLabel

/-- The decoder of either kind of code. -/
def decode (rxMax : Nat) (c : Code) : Decoded :=
  match c with
  | .datagram rx => decodeDatagram rxMax rx
  | .call c => decodeCall c

/-! ### The encoder -/

/-- The operands of CTL.RUN as numbers. -/
def ctlArgs (s : AttitudeSample) (t : Vec3) : List Scalar :=
  [s.yaw, s.pitch, s.roll, s.rate.v0, s.rate.v1, s.rate.v2, s.acc.v0, s.acc.v1, s.acc.v2, t.v0, t.v1, t.v2]

/-- The code of an instruction: R61 to R65 for the wire commands, R73's labels for the rest. -/
def encode : Instr → Code
  | .rd addr => .datagram [0x00#8, addr]
  | .wr addr value => .datagram [0x01#8, addr, loByte value, hiByte value]
  | .brd addr count => .datagram [0x02#8, addr, count]
  | .bwr addr values => .datagram (0x03#8 :: addr :: BitVec.ofNat 8 values.length :: valueBytes values)
  | .echo bytes => .datagram bytes
  | .rbRead id => .call ⟨0x10#8, [(id : Scalar)]⟩
  | .rbWrite id value => .call ⟨0x11#8, [(id : Scalar), (value.toInt : Scalar)]⟩
  | .mafReset => .call ⟨0x20#8, []⟩
  | .mafPut v => .call ⟨0x21#8, [v]⟩
  | .mafGet => .call ⟨0x22#8, []⟩
  | .estInit => .call ⟨0x30#8, []⟩
  | .estStartCal => .call ⟨0x31#8, []⟩
  | .estUpdate => .call ⟨0x32#8, []⟩
  | .apInit => .call ⟨0x40#8, []⟩
  | .apEnter t => .call ⟨0x41#8, [(t : Scalar)]⟩
  | .apGetThr now requested => .call ⟨0x42#8, [(now : Scalar), (requested : Scalar)]⟩
  | .apSetParam c d => .call ⟨0x43#8, [(c.toInt : Scalar), (d.toInt : Scalar)]⟩
  | .ctlWrap e => .call ⟨0x50#8, [e]⟩
  | .ctlRun s t => .call ⟨0x51#8, ctlArgs s t⟩
  | .mixAmp vf => .call ⟨0x60#8, vf.toList⟩
  | .mixRun thr rud ele ail vf => .call ⟨0x61#8, [(thr : Scalar), rud, ele, ail] ++ vf.toList⟩
  | .mixTest en => .call ⟨0x62#8, [(en.toInt : Scalar)]⟩
  | .tickT1 => .call ⟨0x71#8, []⟩
  | .tickT2 => .call ⟨0x72#8, []⟩
  | .tickT3 => .call ⟨0x73#8, []⟩
  | .tickT4 => .call ⟨0x74#8, []⟩
  | .tickT5 => .call ⟨0x75#8, []⟩
  | .tickT6 => .call ⟨0x76#8, []⟩
  | .tickT7 => .call ⟨0x77#8, []⟩
  | .tickT8 => .call ⟨0x78#8, []⟩
  | .tickT9 => .call ⟨0x79#8, []⟩
  | .tickT10 => .call ⟨0x7A#8, []⟩
  | .tickT11 => .call ⟨0x7B#8, []⟩
  | .tickT12 => .call ⟨0x7C#8, []⟩
  | .tickT13 => .call ⟨0x7D#8, []⟩

/-! ### The numbers of the opcode table -/

/-- The first `k` bytes of a number, byte 0 the least significant: the order bytes have on the wire (section 6 of 00). -/
def bytesOf : Nat → Nat → List Byte
  | 0, _ => []
  | k + 1, w => BitVec.ofNat 8 w :: bytesOf k (w / 256)

/-- A byte is a label of R73's table. -/
def isLabel (b : Byte) : Bool :=
  match decodeCall ⟨b, []⟩ with
  | .ok _ => true
  | .reject _ => false

/-- The code a table row's number stands for: a label of R73 (log 9), else a datagram, whose operand bytes above the
row's bits are zero for the four opcodes that have operands and which an ECHO has none of (it is the bytes it is). -/
def tableCode (nbits w : Nat) : Code :=
  let bytes := bytesOf (max 1 ((nbits + 7) / 8)) w
  let op := bytes.getD 0 0
  if isLabel op then .call ⟨op, []⟩
  else if op.toNat < 4 then .datagram ((bytes ++ List.replicate 513 (0#8)).take 513)
  else .datagram bytes

/-- The instruction the decoder reads from a table row's number. -/
def decodeTableWord (nbits w : Nat) : Option Instr :=
  match decode 513 (tableCode nbits w) with
  | .ok i => some i
  | .reject _ => none

end Sys2Proof
end

