-- ==== Sys2Proof/Machine/State.lean ====
section
/-! DEFINITION. The state of the GQ core as plain data: the register bank, the state of the five datapath units, the
sequencer and its latches, the protocol server, the output ports (R10 to R27), then the fields that are the model's own
(what ENV has in store, whose turn is next, how far a step in progress has come), and the state after reset (R30, R231). -/

namespace Sys2Proof.Machine

/-- The register space (R10, R40): the slots in order of their IDs. -/
abbrev Memory := List Word

/-- The canonical form of the register space: exactly `n` slots (R10: the bank is never resized). -/
def Memory.wf (n : Nat) (m : Memory) : Bool := m.length == n

/-- The steps of a tick, which is what `phase` holds (R25). -/
inductive Phase where
  | t1 | t2 | t3 | t4 | t5 | t6 | t7 | t8 | t9 | t10 | t11 | t12 | t13
  deriving DecidableEq, Repr

/-- A moving-average filter (R21). -/
structure Filter where
  buf : List Scalar
  head : Nat
  count : Nat
  sum : Scalar
  deriving DecidableEq, Repr

/-- The calibration buffer (R22). -/
structure Calib where
  buf : List Vec3
  count : Nat
  ready : Bool
  deriving DecidableEq, Repr

/-- The AutoPilotState (R24): `active` false is Normal, true is LowBattery. -/
structure AutoPilot where
  ceiling : Int
  descend : Int
  active : Bool
  onset : Nat
  deriving DecidableEq, Repr

/-- The per-tick latches of the TICK agent (R25). -/
structure Latches where
  tStart : Nat
  tEnd : Nat
  adc : Nat
  vf : Option Scalar
  sample : AttitudeSample
  joyThr : Word
  en : Word
  tgt : Vec3
  thr : Int
  rud : Scalar
  ele : Scalar
  ail : Scalar
  duty : Quad Nat
  deriving DecidableEq, Repr

/-- The six gain registers as read (R17). -/
structure Gains where
  pYaw : Word
  pPitch : Word
  pRoll : Word
  dYaw : Word
  dPitch : Word
  dRoll : Word
  deriving DecidableEq, Repr

/-- The locals of the tick step in progress: what its events have read so far (log 8). -/
structure Locals where
  /-- `x[LANDING_CEILING]` and `x[DESCEND_DURATION]` of T2 (R172). -/
  c : Word
  d : Word
  /-- `c` of T5 (R175). -/
  calib : Word
  /-- `last_rx` as T7 read it (R177). -/
  seenRx : Nat
  /-- the five reads of T8 (R178). -/
  trimYaw : Word
  joyPitch : Word
  trimPitch : Word
  joyRoll : Word
  trimRoll : Word
  /-- the six reads of CTL.RUN (R126). -/
  gains : Gains
  /-- `x[TEST_MODE]` as T11 read it (R181). -/
  mode : Word
  /-- `now` of T13 (R183). -/
  now : Nat
  deriving DecidableEq, Repr

/-- The locals of a step that has read nothing. -/
def Locals.empty : Locals :=
  ⟨0, 0, 0, 0, 0, 0, 0, 0, 0, ⟨0, 0, 0, 0, 0, 0⟩, 0, 0⟩

/-- A datagram and whom a reply goes to (R210). -/
structure Datagram where
  sender : Nat
  bytes : List Byte
  deriving DecidableEq, Repr

/-- What the PKT agent is doing: nothing, or the command it decoded from `rx`, whose first `k` events are done. -/
inductive PktStage where
  | idle
  | handling (i : Instr) (k : Nat)
  deriving DecidableEq, Repr

/-- The argument of `HAL.setIndicator` (R75). -/
inductive Indicator where
  | ready
  | calibrating
  deriving DecidableEq, Repr

/-- An output to ENV (R56, R210). -/
inductive Output where
  | duty (motor : Fin 4) (d : Nat)
  | indicator (s : Indicator)
  | reply (dest : Nat) (tx : List Byte)
  deriving DecidableEq, Repr

/-- Whose turn it is, and how far the agent goes: its whole instruction, or one event of it (R50, log 7). -/
inductive Turn where
  | tick
  | tickEvent
  | pkt
  | pktEvent
  deriving DecidableEq, Repr

/-- What ENV has in store, oldest first, and the last draw of `clock()` (R6, R28, R214; log 5, log 6). -/
structure Env where
  now : Nat
  clock : List Nat
  adc : List Nat
  gyro : List Vec3
  accel : List Vec3
  draws : Nat
  deriving DecidableEq, Repr

/-- The result an internal operation answers when it is called on its own (log 10). -/
inductive OpResult where
  | nothing
  /-- RB.READ (R41). -/
  | slot (v : Option Word)
  /-- MAF.GET (R82). -/
  | mean (v : Option Scalar)
  /-- AP.GETTHR (R112). -/
  | throttle (v : Int)
  /-- CTL.WRAP (R121). -/
  | angle (v : Scalar)
  /-- MIX.AMP (R135). -/
  | amp (v : Scalar)
  deriving DecidableEq, Repr

/-- The state of the block. -/
structure State where
  /-- the configuration CFG (R2), which no step writes (log 1) -/
  cfg : Cfg
  /-- the register bank `x` (R10) -/
  regs : Memory
  /-- the battery filter (R21) -/
  bf : Filter
  /-- the calibration buffer (R22) -/
  cal : Calib
  /-- the gyro bias (R22) -/
  origin : Vec3
  /-- the fusion state (R23) -/
  fstate : FState
  /-- the failsafe (R24) -/
  ap : AutoPilot
  /-- the step TICK performs next (R25) -/
  phase : Phase
  /-- the period boundary T13 waits for (R25) -/
  deadline : Nat
  /-- the per-tick latches (R25) -/
  lt : Latches
  /-- the receive timestamp (R26) -/
  lastRx : Nat
  /-- the request being handled (R26) -/
  rx : Datagram
  /-- the response being built (R26) -/
  tx : List Byte
  /-- the duties last output (R27) -/
  dutyOut : Quad Nat
  /-- the indicator last output (R27) -/
  indicator : Indicator
  /-- events of the current step already performed (log 8) -/
  micro : Nat
  /-- locals of the current step (log 8) -/
  loc : Locals
  /-- what PKT is doing (log 8) -/
  pkt : PktStage
  /-- PKT's draw of `clock()` before it is stored (R156, log 8) -/
  rxTime : Nat
  /-- what ENV has in store (log 6) -/
  env : Env
  /-- datagrams delivered and not yet begun, oldest first (R150) -/
  inbox : List Datagram
  /-- whose turn comes next (log 7) -/
  agenda : List Turn
  /-- the outputs so far, oldest first (log 12) -/
  out : List Output
  /-- the result of an operation called on its own (log 10) -/
  ret : OpResult
  /-- an internal operation to be run on its own (log 9) -/
  call : Option Call
  deriving DecidableEq, Repr

/-- Why the machine stops with a fault: never. "A model needs no fault outcome for any admitted input" (R200), so the
type has no constructor: a fault cannot be written down. -/
inductive Fault where
  deriving DecidableEq, Repr

/-- Why a step has no meaning. -/
inductive Refusal where
  /-- raised by `exec` for an instruction without a meaning: no arm does. Safe: the model claims nothing of it. -/
  | notModelled (mnemonic : String)
  /-- raised by `step` when PKT takes up a datagram longer than `RX_MAX`, which is outside the spec (R200, U6: `refuse`;
  log 14). Safe: the model claims nothing of such a run. -/
  | datagramTooLong
  /-- raised by `step` when `call` holds no label of R73 or no operand of the operation's type (log 9). Safe: no agent of
  the block puts anything there. -/
  | badCall
  deriving DecidableEq, Repr

/-- The latches at reset: unspecified by R25 and read by no rule before it writes them (R232); zeros (log 11). -/
def Latches.initial : Latches :=
  ⟨0, 0, 0, none, ⟨0, 0, 0, Vec3.zero, Vec3.zero⟩, 0, 0, Vec3.zero, 0, 0, 0, 0, ⟨0, 0, 0, 0⟩⟩

/-- The state after the reset event at time `t` under a configuration (R30, R231). -/
def State.resetOf (cfg : Cfg) (t : Nat) : State where
  cfg := cfg
  regs := cfg.initRegs
  bf := ⟨List.replicate cfg.wBatt 0, 0, 0, 0⟩
  cal := ⟨List.replicate calCap Vec3.zero, 0, false⟩
  origin := Vec3.zero
  fstate := cfg.fstateInit
  ap := ⟨0, 0, false, 0⟩
  phase := .t1
  deadline := t + cfg.period
  lt := Latches.initial
  lastRx := t
  rx := ⟨0, []⟩
  tx := []
  dutyOut := ⟨0, 0, 0, 0⟩
  indicator := .calibrating
  micro := 0
  loc := Locals.empty
  pkt := .idle
  rxTime := 0
  env := ⟨t, [], [], [], [], 0⟩
  inbox := []
  agenda := []
  out := [.duty 0 0, .duty 1 0, .duty 2 0, .duty 3 0, .indicator .calibrating]
  ret := .nothing
  call := none

/-- The machine right after reset: CFG0, and a reset event at time 0 (log 1, log 5: DESIGN CHOICE). -/
def State.reset : State := State.resetOf cfg0 0

end Sys2Proof.Machine
end

