-- ==== Sys2Proof/Machine/Operands.lean ====
section
/-! DEFINITION. The operand forms: the operations of NUM (R3), integer helpers (R7), the conversion of a real to a register
value (R4), triples and their remapping (R9), and the conversions between register counts and physical quantities (R11,
R17, R18). -/

namespace Sys2Proof

/-! ### The operations of NUM (R3); comparisons are those of the values (log 2) -/

/-- `add` of NUM. -/
def Numerics.add (n : Numerics) (a b : Scalar) : Scalar :=
  match n with
  | .rational => a + b
  | .other => Config.numAdd a b

/-- `sub` of NUM. -/
def Numerics.sub (n : Numerics) (a b : Scalar) : Scalar :=
  match n with
  | .rational => a - b
  | .other => Config.numSub a b

/-- `mul` of NUM. -/
def Numerics.mul (n : Numerics) (a b : Scalar) : Scalar :=
  match n with
  | .rational => a * b
  | .other => Config.numMul a b

/-- `div` of NUM. -/
def Numerics.div (n : Numerics) (a b : Scalar) : Scalar :=
  match n with
  | .rational => a / b
  | .other => Config.numDiv a b

/-- `ofInt` of NUM; a 16-bit integer is a value of every NUM (R4 (i)). -/
def Numerics.ofInt (n : Numerics) (k : Int) : Scalar :=
  match n with
  | .rational => (k : Scalar)
  | .other => if -32768 ≤ k ∧ k ≤ 32767 then (k : Scalar) else Config.numOfInt k

/-- A sum in ascending order, from zero (R94; the order U2 suggests, log 2). -/
def Numerics.sum (n : Numerics) (l : List Scalar) : Scalar := l.foldl n.add 0

end Sys2Proof

namespace Sys2Proof.Machine

/-! ### Integers (R7) -/

/-- `sat16` (R7). -/
def sat16 (k : Int) : Int := if k < -32768 then -32768 else if 32767 < k then 32767 else k

/-- `wrap16` (R7): the pattern of the value congruent to `k` modulo 65536. -/
def wrap16 (k : Int) : Word := BitVec.ofInt 16 k

/-- The pattern of a saturated integer. -/
def satWord (k : Int) : Word := BitVec.ofInt 16 (sat16 k)

/-- `clamp` on the integers (R7). -/
def clampInt (v a b : Int) : Int := if v < a then a else if b < v then b else v

/-- `clamp` on the reals (R7). -/
def clampScalar (v a b : Scalar) : Scalar := if v < a then a else if b < v then b else v

/-! ### From a real to a register (R4) -/

/-- `trunc`: rounding toward zero (R4). -/
def trunc (v : Scalar) : Int := if 0 ≤ v then v.floor else -((-v).floor)

/-- A real as an integer under the configuration field `Q`: truncation, or a step between neighbouring integers at a
threshold nothing fixes (R4; log 3). -/
def roundBy (q : Quantiser) (v : Scalar) : Int :=
  match q with
  | .truncate => trunc v
  | .other =>
    let k := v.floor
    let t := Config.quantThreshold k
    if v = (k : Scalar) then k
    else if v - k < t.1 ∨ (v - k = t.1 ∧ t.2 = true) then k
    else k + 1

/-- `toReg` as an integer (R4): saturated, so always in the range of a slot. -/
def toRegInt (cfg : Cfg) (v : Scalar) : Int := sat16 (roundBy cfg.q v)

/-- `toReg` as the pattern a slot takes (R4). -/
def toReg (cfg : Cfg) (v : Scalar) : Word := BitVec.ofInt 16 (toRegInt cfg v)

/-! ### Triples -/

/-- Componentwise difference. -/
def vecSub (n : Numerics) (a b : Vec3) : Vec3 := ⟨n.sub a.v0 b.v0, n.sub a.v1 b.v1, n.sub a.v2 b.v2⟩

/-- One sensor axis with the sign of a remapping. -/
def signed (n : Numerics) (neg : Bool) (v : Scalar) : Scalar := n.mul (if neg then -1 else 1) v

/-- `remap` (R9): `b[i] = sign[i] * s[perm[i]]`. -/
def remap (n : Numerics) (m : Remap) (s : Vec3) : Vec3 :=
  ⟨signed n m.neg0 (s.get m.perm0), signed n m.neg1 (s.get m.perm1), signed n m.neg2 (s.get m.perm2)⟩

/-! ### Register counts as quantities -/

/-- A slot read as a real number of counts: `ofInt` of a 16-bit integer. -/
def counts (v : Word) : Scalar := (v.toInt : Scalar)

/-- The battery voltage of an ADC code (R84). -/
def battVolt (cfg : Cfg) (adc : Nat) : Scalar :=
  cfg.num.add (cfg.num.mul cfg.vSlope (cfg.num.ofInt adc)) cfg.vOffset

/-- An angle register in radians (R18). -/
def angleOf (cfg : Cfg) (v : Word) : Scalar := cfg.num.mul (counts v) cfg.angleUnit

/-- The sum of a joystick and a trim register, saturated (R18, R178). -/
def trimmed (joy trim : Word) : Word := satWord (joy.toInt + trim.toInt)

/-- A rate in rad/s from one in deg/s (R123). -/
def toRadians (cfg : Cfg) (v : Scalar) : Scalar := cfg.num.mul v (cfg.num.div cfg.pi 180)

/-- PERIOD in seconds, the sampling period FUSE takes (R96, log 15). -/
def samplePeriod (cfg : Cfg) : Scalar := cfg.num.mul (cfg.num.ofInt cfg.period) cfg.secondsPerUnit

/-- The effective ceiling `L` of the limiter (R16, R141). -/
def ceilingOf (limit : Word) : Int := clampInt limit.toInt 0 dutyMax

/-- The value TIME takes at a clock reading (R182); times are integers, and their quotients no `real` of NUM (log 2). -/
def timeReg (cfg : Cfg) (t : Nat) : Word := wrap16 ((t : Scalar) / cfg.timeRegUnit).floor

/-- The value LOOP_TIME takes for a tick (R182). -/
def loopReg (cfg : Cfg) (tStart tEnd : Nat) : Word :=
  satWord ((((tEnd : Int) - (tStart : Int) : Int) : Scalar) / cfg.loopTimeUnit).floor

end Sys2Proof.Machine
end

