-- ==== Sys2Proof/Machine/Ops.lean ====
section
/-! DEFINITION. The shared operations: access to the register bank (R41, R42), the draws from ENV (R210, R214), the outputs
to ENV (R56), the one primitive that ends an operation early, Drop (R158, R200), and the running of a list of events. -/

namespace Sys2Proof.Machine

/-! ### The register bank -/

/-- `RegRead(i)` (R41): none outside `[0, N)`. -/
def regRead (s : State) (i : Int) : Option Word :=
  if 0 ≤ i ∧ i < s.cfg.n then s.regs[i.toNat]? else none

/-- `RegWrite(i, v)` (R42): nothing changes outside `[0, N)`. -/
def regWrite (s : State) (i : Int) (v : Word) : State :=
  { s with regs := if 0 ≤ i ∧ i < s.cfg.n then s.regs.set i.toNat v else s.regs }

/-- The content of a slot whose ID a rule has checked. -/
def State.slot (s : State) (i : Nat) : Word := s.regs.getD i 0

/-- The write of a slot whose ID a rule has checked. -/
def State.setSlot (s : State) (i : Nat) (v : Word) : State := { s with regs := s.regs.set i v }

/-- `x[NAME]` (section 6 of 00): a named register is in range (R2), so the `none` of R41 cannot occur. -/
def State.x (s : State) (r : Reg) : Word := s.slot (s.cfg.id r)

/-- `x[NAME] <- v`. -/
def State.setX (s : State) (r : Reg) (v : Word) : State := s.setSlot (s.cfg.id r) v

/-! ### Draws from ENV -/

/-- The value the next `clock()` answers: the next reading in store, never below the last draw, or a free one (R6, R214). -/
def Env.clockValue (e : Env) : Nat :=
  match e.clock with
  | t :: _ => max e.now t
  | [] => e.now + Config.freeClock e.draws

/-- ENV after that draw. -/
def Env.afterClock (e : Env) : Env :=
  { e with
    now := e.clockValue
    clock := e.clock.tail
    draws := match e.clock with
      | _ :: _ => e.draws
      | [] => e.draws + 1 }

/-- The value `HAL.readBatteryRaw()` answers: the next code in store, or a free one below `2^ADC_BITS` (R28; log 13). -/
def Env.adcValue (bits : Nat) (e : Env) : Nat :=
  match e.adc with
  | a :: _ => a
  | [] => Config.freeAdc e.draws % 2 ^ bits

/-- ENV after that draw. -/
def Env.afterAdc (e : Env) : Env :=
  { e with
    adc := e.adc.tail
    draws := match e.adc with
      | _ :: _ => e.draws
      | [] => e.draws + 1 }

/-- The value `HAL.readGyro()` answers. -/
def Env.gyroValue (e : Env) : Vec3 :=
  match e.gyro with
  | g :: _ => g
  | [] => Config.freeGyro e.draws

/-- ENV after that draw. -/
def Env.afterGyro (e : Env) : Env :=
  { e with
    gyro := e.gyro.tail
    draws := match e.gyro with
      | _ :: _ => e.draws
      | [] => e.draws + 1 }

/-- The value `HAL.readAccel()` answers. -/
def Env.accelValue (e : Env) : Vec3 :=
  match e.accel with
  | a :: _ => a
  | [] => Config.freeAccel e.draws

/-- ENV after that draw. -/
def Env.afterAccel (e : Env) : Env :=
  { e with
    accel := e.accel.tail
    draws := match e.accel with
      | _ :: _ => e.draws
      | [] => e.draws + 1 }

/-- The readings in store after a poll that ends at the first one not before `deadline`; none if no stored one is. -/
def pollStored (deadline now : Nat) : List Nat → Option (Nat × List Nat)
  | [] => none
  | t :: ts => if deadline ≤ max now t then some (max now t, ts) else pollStored deadline (max now t) ts

/-- ENV after `wait until clock() >= deadline` (R183): the polls in store, else a free reading at or after both the
deadline and the last draw (the wait ends because time advances, R250). -/
def Env.waitUntil (e : Env) (deadline : Nat) : Env :=
  match pollStored deadline e.now e.clock with
  | some (t, rest) => { e with now := t, clock := rest }
  | none =>
    { e with
      now := max deadline (e.clock.foldl max e.now) + Config.freeClock e.draws
      clock := []
      draws := e.draws + 1 }

/-! ### Outputs to ENV -/

/-- An output is performed: it takes its place after those performed before it (R56). -/
def State.emit (s : State) (o : Output) : State := { s with out := s.out ++ [o] }

/-- `HAL.outputDuty(i, d); duty_out[i] <- d` (R27, R139). -/
def State.outputDuty (s : State) (i : Fin 4) (d : Nat) : State :=
  { (s.emit (.duty i d)) with dutyOut := s.dutyOut.set i d }

/-- `HAL.setIndicator(v); indicator <- v` (R27, R175). -/
def State.setIndicator (s : State) (v : Indicator) : State :=
  { (s.emit (.indicator v)) with indicator := v }

/-! ### The handling of a datagram ends -/

/-- The handling of the datagram in hand is over (R207): `rx` and `tx` exist no longer (R26) and nothing is restored. -/
def State.endHandling (s : State) : State := { s with rx := ⟨0, []⟩, tx := [], pkt := .idle }

/-- `raise Drop(reason)` (R158, R200), the block's only exception primitive: it ends the handling; nothing is sent, no
register is written, nothing records it, no state is saved and control goes nowhere else. -/
def State.drop (s : State) : State := s.endHandling

/-! ### Events -/

/-- One event: at most one access to a shared location (R50), with the computation local to the agent around it. -/
abbrev Event := State → State

/-- The events of a list, in order. -/
def runEvents : List Event → State → State
  | [], s => s
  | e :: es, s => runEvents es (e s)

/-- An event performed only under a condition on the state it meets. -/
def Event.onlyIf (c : State → Bool) (e : Event) : Event := fun s => if c s then e s else s

end Sys2Proof.Machine
end

