-- ==== Sys2Proof/Machine/Flags.lean ====
section
/-! DEFINITION. The flags (R29) and the conditions the tick steps and the protocol test (R157, R177, R184, R201): every one is
computed from the state, none is stored beside `cal.ready` and `ap.active`. -/

namespace Sys2Proof.Machine

/-- Filter ready (R29 (i)): the buffer of the window `w` is full. -/
def Filter.isReady (w : Nat) (f : Filter) : Bool := f.count == w

/-- Armed (R184), from the latches of the tick. -/
def State.armed (s : State) : Bool := s.lt.en != 0 && s.lt.joyThr != 0

/-- X1 is a matter of decoding (`Reject.short`); X2 `Drop(range)` (R157): a range of the bank, in the naturals (R43). -/
def inRange (n addr count : Nat) : Bool := !(decide (n ≤ addr) || decide (n < addr + count))

/-- X3 CommTimeout (R177): a strict comparison of an integer difference. -/
def commTimeout (cfg : Cfg) (tStart lastRx : Nat) : Bool :=
  decide ((cfg.commTimeout : Int) < (tStart : Int) - (lastRx : Int))

/-- X4 LowBattery (R19, R173): strictly below the threshold register; no test while the filter is not ready. -/
def lowBattery (cfg : Cfg) (vf : Option Scalar) (threshold : Word) : Bool :=
  match vf with
  | some f => decide (cfg.num.mul f cfg.battRegScale < counts threshold)
  | none => false

/-- The value BATT_STATUS takes (R19, R174). -/
def statusWord (active : Bool) : Word := if active then 1 else 0

/-- Test (bench) mode (R14, R181): all 16 bits are compared. -/
def isTestMode (mode : Word) : Bool := mode == testModeMagic

end Sys2Proof.Machine
end

