-- ==== Sys2Proof/Machine/Protocol.lean ====
section
/-! DEFINITION. CommandProtocolServer (R150 to R160): the five wire commands, each as the list of its events after decoding.
Decoding with the minimum-length check is Decode.lean's; taking up a datagram is Machine/Fetch.lean's. -/

namespace Sys2Proof.Machine

/-- The draw of `last_rx <- clock()` (R156). -/
def stampDraw : Event := fun s => { s with rxTime := s.env.clockValue, env := s.env.afterClock }

/-- The write of `last_rx <- clock()` (R156), one indivisible access (R54). -/
def stampWrite : Event := fun s => { s with lastRx := s.rxTime }

/-- Timestamp refresh (R156): the draw is ENV's, the write is an access to a shared location. -/
def refreshEvents : List Event := [stampDraw, stampWrite]

/-- The range check (R157) with the accesses it guards: out of range raises Drop (R158) before the first access. -/
def checkedEvents (cfg : Cfg) (addr count : Nat) (accesses : List Event) : List Event :=
  if inRange cfg.n addr count then accesses else [State.drop]

/-- The response is sent to the sender of the request (R150 (5)). -/
def sendTx : Event := fun s => s.emit (.reply s.rx.sender s.tx)

/-- A response buffer that does not depend on a register. -/
def putTx (tx : List Byte) : Event := fun s => { s with tx := tx }

/-- The read of one slot, its value appended to the response low byte first (R44, R153). -/
def appendSlot (i : Nat) : Event := fun s => { s with tx := s.tx ++ [loByte (s.slot i), hiByte (s.slot i)] }

/-- The write of one slot. -/
def writeSlot (i : Nat) (v : Word) : Event := fun s => s.setSlot i v

/-- The `count` slot reads of BRD, ascending (R153). -/
def readEvents : Nat → Nat → List Event
  | _, 0 => []
  | addr, k + 1 => appendSlot addr :: readEvents (addr + 1) k

/-- The slot writes of BWR, ascending (R154). -/
def writeEvents : Nat → List Word → List Event
  | _, [] => []
  | addr, v :: vs => writeSlot addr v :: writeEvents (addr + 1) vs

/-- RD (R151): `tx <- [0x00, lo(v), hi(v)]`, sent. -/
def rdEvents (cfg : Cfg) (addr : Byte) : List Event :=
  refreshEvents ++ checkedEvents cfg addr.toNat 1 [putTx [0x00#8], appendSlot addr.toNat, sendTx]

/-- WR (R152): one write, no response. -/
def wrEvents (cfg : Cfg) (addr : Byte) (value : Word) : List Event :=
  refreshEvents ++ checkedEvents cfg addr.toNat 1 [writeSlot addr.toNat value]

/-- BRD (R153): the header, `count` reads, sent. -/
def brdEvents (cfg : Cfg) (addr count : Byte) : List Event :=
  refreshEvents ++ checkedEvents cfg addr.toNat count.toNat
    (putTx [0x02#8, addr, count] :: (readEvents addr.toNat count.toNat ++ [sendTx]))

/-- BWR (R154): as many writes as values, no response. -/
def bwrEvents (cfg : Cfg) (addr : Byte) (values : List Word) : List Event :=
  refreshEvents ++ checkedEvents cfg addr.toNat values.length (writeEvents addr.toNat values)

/-- ECHO (R155): the request verbatim, sent; no register is touched. -/
def echoEvents (bytes : List Byte) : List Event :=
  refreshEvents ++ [putTx bytes, sendTx]

/-- RD (R151). -/
def execRd (addr : Byte) (s : State) : Host.Outcome State Fault Refusal :=
  .next (runEvents (rdEvents s.cfg addr) s).endHandling

/-- WR (R152). -/
def execWr (addr : Byte) (value : Word) (s : State) : Host.Outcome State Fault Refusal :=
  .next (runEvents (wrEvents s.cfg addr value) s).endHandling

/-- BRD (R153). -/
def execBrd (addr count : Byte) (s : State) : Host.Outcome State Fault Refusal :=
  .next (runEvents (brdEvents s.cfg addr count) s).endHandling

/-- BWR (R154). -/
def execBwr (addr : Byte) (values : List Word) (s : State) : Host.Outcome State Fault Refusal :=
  .next (runEvents (bwrEvents s.cfg addr values) s).endHandling

/-- ECHO (R155). -/
def execEcho (bytes : List Byte) (s : State) : Host.Outcome State Fault Refusal :=
  .next (runEvents (echoEvents bytes) s).endHandling

end Sys2Proof.Machine
end

