-- ==== Sys2Proof/Machine/Controller.lean ====
section
/-! DEFINITION. AttitudeController (R120 to R129): a PD law per axis, with one wrap-around correction on yaw and roll. There is
no integral term (R127) and no stored reference pose (R129). -/

namespace Sys2Proof.Machine

/-- `CTL.WRAP(e)` (R121): one correction, strict comparisons. -/
def wrapAngle (cfg : Cfg) (e : Scalar) : Scalar :=
  if cfg.pi < e then cfg.num.sub e (cfg.num.mul 2 cfg.pi)
  else if e < cfg.num.sub 0 cfg.pi then cfg.num.add e (cfg.num.mul 2 cfg.pi)
  else e

/-- One axis of the control law (R124, R126): `P * error + D * rate` with the gains of two registers. Which component of the
rate belongs to which axis, below, is R99's assignment (PRESUMED, log 17). -/
def pdTerm (cfg : Cfg) (p d : Word) (error rate : Scalar) : Scalar :=
  let n := cfg.num
  n.add (n.mul (n.mul (counts p) cfg.kpUnit) error) (n.mul (n.mul (counts d) cfg.kdUnit) rate)

/-- The rudder correction (R122 to R124): the yaw rate is component 2, about the up axis (R99). -/
def yawTerm (cfg : Cfg) (g : Gains) (sample : AttitudeSample) (tgt : Vec3) : Scalar :=
  pdTerm cfg g.pYaw g.dYaw (wrapAngle cfg (cfg.num.sub sample.yaw tgt.v0)) (toRadians cfg sample.rate.v2)

/-- The elevator correction (R122 to R124): pitch is not wrapped; its rate is component 1, about the left axis (R99). -/
def pitchTerm (cfg : Cfg) (g : Gains) (sample : AttitudeSample) (tgt : Vec3) : Scalar :=
  pdTerm cfg g.pPitch g.dPitch (cfg.num.sub sample.pitch tgt.v1) (toRadians cfg sample.rate.v1)

/-- The aileron correction (R122 to R124): the roll rate is component 0, about the forward axis (R99). -/
def rollTerm (cfg : Cfg) (g : Gains) (sample : AttitudeSample) (tgt : Vec3) : Scalar :=
  pdTerm cfg g.pRoll g.dRoll (wrapAngle cfg (cfg.num.sub sample.roll tgt.v2)) (toRadians cfg sample.rate.v0)

/-- The three results added into their channels (R124). -/
def State.addCorrections (s : State) (sample : AttitudeSample) (tgt : Vec3) : State :=
  { s with lt := { s.lt with
      rud := s.cfg.num.add s.lt.rud (yawTerm s.cfg s.loc.gains sample tgt)
      ele := s.cfg.num.add s.lt.ele (pitchTerm s.cfg s.loc.gains sample tgt)
      ail := s.cfg.num.add s.lt.ail (rollTerm s.cfg s.loc.gains sample tgt) } }

/-- The events of CTL.RUN (R124, R126): the six gain reads in R126's order, then the law. The operands are given as
functions of the state, since a tick step takes them from its latches. -/
def ctlRunEvents (sample : State → AttitudeSample) (tgt : State → Vec3) : List Event :=
  [ fun s => { s with loc := { s.loc with gains := { s.loc.gains with pYaw := s.x .pYaw } } },
    fun s => { s with loc := { s.loc with gains := { s.loc.gains with pPitch := s.x .pPitch } } },
    fun s => { s with loc := { s.loc with gains := { s.loc.gains with pRoll := s.x .pRoll } } },
    fun s => { s with loc := { s.loc with gains := { s.loc.gains with dYaw := s.x .dYaw } } },
    fun s => { s with loc := { s.loc with gains := { s.loc.gains with dPitch := s.x .dPitch } } },
    fun s => { s with loc := { s.loc with gains := { s.loc.gains with dRoll := s.x .dRoll } } },
    fun s => s.addCorrections (sample s) (tgt s) ]

/-- CTL.WRAP (R121): the answer is presented in `ret` (log 10). -/
def execCtlWrap (e : Scalar) (s : State) : Host.Outcome State Fault Refusal :=
  .next { s with ret := .angle (wrapAngle s.cfg e) }

/-- CTL.RUN (R124), called on its own: a step in progress keeps its locals. -/
def execCtlRun (sample : AttitudeSample) (tgt : Vec3) (s : State) : Host.Outcome State Fault Refusal :=
  .next { runEvents (ctlRunEvents (fun _ => sample) (fun _ => tgt)) s with loc := s.loc }

end Sys2Proof.Machine
end

