-- ==== Sys2Proof/Machine/Estimator.lean ====
section
/-! DEFINITION. AttitudeEstimator (R90 to R99): the calibration buffer, the fusion update and its telemetry. -/

namespace Sys2Proof.Machine

/-- One axis of the mean of the calibration buffer (R94). -/
def meanOf (n : Numerics) (l : List Scalar) : Scalar := n.div (n.sum l) (n.ofInt calCap)

/-- The per-axis mean of the calibration buffer (R94). -/
def biasOf (n : Numerics) (buf : List Vec3) : Vec3 :=
  let b := buf.take calCap
  ⟨meanOf n (b.map Vec3.v0), meanOf n (b.map Vec3.v1), meanOf n (b.map Vec3.v2)⟩

/-- The buffer after the calibration step takes a sample (R94): nothing once it is ready. -/
def Calib.take (c : Calib) (g : Vec3) : Calib :=
  if c.ready then c
  else { buf := c.buf.set c.count g, count := c.count + 1, ready := c.count + 1 == calCap }

/-- The bias after the calibration step takes a sample (R94): new on the sample that fills the buffer. -/
def biasAfter (n : Numerics) (c : Calib) (origin g : Vec3) : Vec3 :=
  if !c.ready && c.count + 1 == calCap then biasOf n (c.take g).buf else origin

/-- `StartCalibration()` on the buffer (R91). -/
def Calib.restart (c : Calib) : Calib := { c with count := 0, ready := false }

/-- `EULER` of the configuration (R8): an answer stated as a given, else the opaque algorithm (log 4). -/
def eulerOf (cfg : Cfg) (f : FState) : Euler :=
  match cfg.eulerGiven with
  | some e => e
  | none => Config.euler f

/-- EST.INIT (R90). -/
def State.estInit (s : State) : State :=
  { s with cal := s.cal.restart, origin := Vec3.zero, fstate := s.cfg.fstateInit }

/-- EST.UPDATE up to its telemetry (R92 to R97): the two readings, remapping, calibration step, bias subtraction, fusion
and the sample; local to the TICK agent. -/
def State.sense (s : State) : State :=
  let g := remap s.cfg.num s.cfg.remapG s.env.gyroValue
  let a := remap s.cfg.num s.cfg.remapA s.env.afterGyro.accelValue
  let origin := biasAfter s.cfg.num s.cal s.origin g
  let rate := vecSub s.cfg.num g origin
  let fstate := Config.fuse s.fstate rate a (samplePeriod s.cfg)
  let e := eulerOf s.cfg fstate
  { s with
    env := s.env.afterGyro.afterAccel
    cal := s.cal.take g
    origin := origin
    fstate := fstate
    lt := { s.lt with sample := ⟨e.yaw, e.pitch, e.roll, rate, a⟩ } }

/-- One telemetry write of R98. -/
def telemetry (r : Reg) (value : Cfg → AttitudeSample → Scalar) : Event := fun s =>
  s.setX r (toReg s.cfg (value s.cfg s.lt.sample))

/-- The events of EST.UPDATE (R92): the readings and what is local, then the nine writes of R98 in its order. -/
def estUpdateEvents : List Event :=
  [ State.sense,
    telemetry .attYaw (fun c p => c.num.div p.yaw c.angleUnit),
    telemetry .attPitch (fun c p => c.num.div p.pitch c.angleUnit),
    telemetry .attRoll (fun c p => c.num.div p.roll c.angleUnit),
    telemetry .rotX (fun c p => c.num.mul p.rate.v0 c.rotRegScale),
    telemetry .rotY (fun c p => c.num.mul p.rate.v1 c.rotRegScale),
    telemetry .rotZ (fun c p => c.num.mul p.rate.v2 c.rotRegScale),
    telemetry .accX (fun c p => c.num.mul p.acc.v0 c.accRegScale),
    telemetry .accY (fun c p => c.num.mul p.acc.v1 c.accRegScale),
    telemetry .accZ (fun c p => c.num.mul p.acc.v2 c.accRegScale) ]

/-- EST.INIT (R90). -/
def execEstInit (s : State) : Host.Outcome State Fault Refusal :=
  .next s.estInit

/-- EST.STARTCAL (R91): the bias and the fusion state stay. -/
def execEstStartCal (s : State) : Host.Outcome State Fault Refusal :=
  .next { s with cal := s.cal.restart }

/-- EST.UPDATE (R92). -/
def execEstUpdate (s : State) : Host.Outcome State Fault Refusal :=
  .next (runEvents estUpdateEvents s)

end Sys2Proof.Machine
end

