-- ==== Sys2Proof/Machine/Failsafe.lean ====
section
/-! DEFINITION. AutoPilotFailsafe (R110 to R114). -/

namespace Sys2Proof.Machine

/-- `Init()` (R110). -/
def AutoPilot.initialised (a : AutoPilot) : AutoPilot := { a with active := false }

/-- `EnterLowBatteryMode(t)` (R111): the onset is recorded once. -/
def AutoPilot.entered (a : AutoPilot) (t : Nat) : AutoPilot :=
  if a.active then a else { a with active := true, onset := t }

/-- `GetThrottle(now, requested)` (R112), in signed integers. -/
def AutoPilot.throttle (a : AutoPilot) (now : Nat) (requested : Int) : Int :=
  if !a.active then requested
  else if a.descend ≤ (now : Int) - (a.onset : Int) then 0
  else if a.ceiling < requested then a.ceiling
  else requested

/-- The parameters reloaded from two register values (R113). -/
def AutoPilot.withParams (a : AutoPilot) (cfg : Cfg) (c d : Word) : AutoPilot :=
  { a with ceiling := c.toInt, descend := d.toInt * cfg.descendUnit }

/-- AP.INIT (R110). -/
def execApInit (s : State) : Host.Outcome State Fault Refusal :=
  .next { s with ap := s.ap.initialised }

/-- AP.ENTER (R111). -/
def execApEnter (t : Nat) (s : State) : Host.Outcome State Fault Refusal :=
  .next { s with ap := s.ap.entered t }

/-- AP.GETTHR (R112): changes no state of the block; the answer is presented in `ret` (log 10). -/
def execApGetThr (now : Nat) (requested : Int) (s : State) : Host.Outcome State Fault Refusal :=
  .next { s with ret := .throttle (s.ap.throttle now requested) }

/-- AP.SETPARAM (R113). -/
def execApSetParam (c d : Word) (s : State) : Host.Outcome State Fault Refusal :=
  .next { s with ap := s.ap.withParams s.cfg c d }

end Sys2Proof.Machine
end

