-- ==== Sys2Proof/Machine/Mixer.lean ====
section
/-! DEFINITION. MotorMixer (R135 to R144): battery-sag compensation, the mixing matrix, the limiter, and test mode. -/

namespace Sys2Proof.Machine

/-- `MIX.AMP(vf)` (R135; C1: the threshold itself compensates). -/
def ampOf (cfg : Cfg) (vf : Option Scalar) : Scalar :=
  match vf with
  | none => 0
  | some m => if cfg.vShutoff ≤ m then cfg.num.div cfg.vBase m else 0

/-- One motor of the matrix product (R137). -/
def mixRow (n : Numerics) (r : MixRow) (thr rud ele ail : Scalar) : Scalar :=
  n.add (n.add (n.add (n.mul r.thr thr) (n.mul r.rud rud)) (n.mul r.ele ele)) (n.mul r.ail ail)

/-- The unclamped duty of one motor (R136, R137): all four inputs scaled, then mixed. -/
def mixOf (cfg : Cfg) (i : Fin 4) (thr : Int) (rud ele ail : Scalar) (vf : Option Scalar) : Scalar :=
  let n := cfg.num
  let amp := ampOf cfg vf
  mixRow n (cfg.mix.get i) (n.mul amp (n.ofInt thr)) (n.mul amp rud) (n.mul amp ele) (n.mul amp ail)

/-- Clamping and conversion to a duty (R138). -/
def dutyOf (cfg : Cfg) (ceiling : Int) (m : Scalar) : Nat := (toRegInt cfg (clampScalar m 0 ceiling)).toNat

/-- The duty of one motor in test mode (R140). -/
def rawDuty (en v : Word) : Nat := if en != 0 then (clampInt v.toInt 0 dutyMax).toNat else 0

/-- LIMIT is read and the four duties are computed from the operands of MIX.RUN (R136 to R139). -/
def State.computeDuties (s : State) (thr : Int) (rud ele ail : Scalar) (vf : Option Scalar) : State :=
  let c := ceilingOf (s.x .limit)
  { s with lt := { s.lt with duty :=
      ⟨dutyOf s.cfg c (mixOf s.cfg 0 thr rud ele ail vf), dutyOf s.cfg c (mixOf s.cfg 1 thr rud ele ail vf),
       dutyOf s.cfg c (mixOf s.cfg 2 thr rud ele ail vf), dutyOf s.cfg c (mixOf s.cfg 3 thr rud ele ail vf)⟩ } }

/-- `HAL.outputDuty(i, duty[i]); duty_out[i] <- duty[i]` (R139, R140). -/
def outputEvent (i : Fin 4) : Event := fun s => s.outputDuty i (s.lt.duty.get i)

/-- `x[MOTORi] <- duty[i]` (R139). -/
def mirrorEvent (i : Fin 4) : Event := fun s => s.setX (.motor i) (BitVec.ofNat 16 (s.lt.duty.get i))

/-- `duty[i]` from the motor's own register (R140). -/
def rawEvent (en : State → Word) (i : Fin 4) : Event := fun s =>
  { s with lt := { s.lt with duty := s.lt.duty.set i (rawDuty (en s) (s.x (.motor i))) } }

/-- The events of MIX.RUN (R139): the read of LIMIT with the computation, which `compute` performs, then output and
mirror for motors 0 to 3 in this order. -/
def mixRunEvents (compute : Event) : List Event :=
  [ compute,
    outputEvent 0, mirrorEvent 0, outputEvent 1, mirrorEvent 1,
    outputEvent 2, mirrorEvent 2, outputEvent 3, mirrorEvent 3 ]

/-- The events of MIX.TEST (R140): for motors 0 to 3 in this order the read and the output; no register is written. -/
def mixTestEvents (en : State → Word) : List Event :=
  [ rawEvent en 0, outputEvent 0, rawEvent en 1, outputEvent 1,
    rawEvent en 2, outputEvent 2, rawEvent en 3, outputEvent 3 ]

/-- MIX.AMP (R135): the answer is presented in `ret` (log 10). -/
def execMixAmp (vf : Option Scalar) (s : State) : Host.Outcome State Fault Refusal :=
  .next { s with ret := .amp (ampOf s.cfg vf) }

/-- MIX.RUN (R139). -/
def execMixRun (thr : Int) (rud ele ail : Scalar) (vf : Option Scalar) (s : State) :
    Host.Outcome State Fault Refusal :=
  .next (runEvents (mixRunEvents fun s => s.computeDuties thr rud ele ail vf) s)

/-- MIX.TEST (R140). -/
def execMixTest (en : Word) (s : State) : Host.Outcome State Fault Refusal :=
  .next (runEvents (mixTestEvents fun _ => en) s)

end Sys2Proof.Machine
end

