-- ==== Sys2Proof/Machine/MovingAverage.lean ====
section
/-! DEFINITION. MovingAverageFilter (R80 to R85): the three operations on a filter, and their calls on the one filter of the
block, `bf` (R84). -/

namespace Sys2Proof.Machine

/-- MAF.RESET on a filter (R80): the buffer is left as it is. -/
def Filter.cleared (f : Filter) : Filter := { f with count := 0, head := 0, sum := 0 }

/-- MAF.PUT on a filter of window `w` (R81). -/
def Filter.put (n : Numerics) (w : Nat) (f : Filter) (v : Scalar) : Filter :=
  if f.count < w then
    { buf := f.buf.set f.head v, sum := n.add f.sum v, count := f.count + 1, head := (f.head + 1) % w }
  else
    { buf := f.buf.set f.head v, sum := n.sub (n.add f.sum v) (f.buf.getD f.head 0), count := f.count
      head := (f.head + 1) % w }

/-- MAF.GET on a filter of window `w` (R82): the mean, or none while the filter is not ready. -/
def Filter.mean (n : Numerics) (w : Nat) (f : Filter) : Option Scalar :=
  if f.isReady w then some (n.div f.sum (n.ofInt w)) else none

/-- MAF.RESET (R80). -/
def execMafReset (s : State) : Host.Outcome State Fault Refusal :=
  .next { s with bf := s.bf.cleared }

/-- MAF.PUT (R81). -/
def execMafPut (v : Scalar) (s : State) : Host.Outcome State Fault Refusal :=
  .next { s with bf := s.bf.put s.cfg.num s.cfg.wBatt v }

/-- MAF.GET (R82): changes no state of the block; the answer is presented in `ret` (log 10). -/
def execMafGet (s : State) : Host.Outcome State Fault Refusal :=
  .next { s with ret := .mean (s.bf.mean s.cfg.num s.cfg.wBatt) }

end Sys2Proof.Machine
end

