-- ==== Sys2Proof/Machine/Tick.lean ====
section
/-! DEFINITION. ControlLoopScheduler (R170 to R186): the thirteen steps of a tick, each the list of its events in the order
of its pseudocode, so that PKT events may fall between any two (R50). -/

namespace Sys2Proof.Machine

/-- `pc <- T(n+1)`, and T1 after T13 (R170). -/
def Phase.next : Phase → Phase
  | .t1 => .t2 | .t2 => .t3 | .t3 => .t4 | .t4 => .t5 | .t5 => .t6 | .t6 => .t7 | .t7 => .t8
  | .t8 => .t9 | .t9 => .t10 | .t10 => .t11 | .t11 => .t12 | .t12 => .t13 | .t13 => .t1

/-- The 4-bit number of a step (R74). -/
def Phase.code : Phase → BitVec 4
  | .t1 => 1 | .t2 => 2 | .t3 => 3 | .t4 => 4 | .t5 => 5 | .t6 => 6 | .t7 => 7
  | .t8 => 8 | .t9 => 9 | .t10 => 10 | .t11 => 11 | .t12 => 12 | .t13 => 13

/-- T1 (R171): the two draws and the filter, then the one or two battery registers. -/
def t1Events : List Event :=
  [ fun s => { s with lt := { s.lt with tStart := s.env.clockValue }, env := s.env.afterClock },
    fun s =>
      let adc := s.env.adcValue s.cfg.adcBits
      let bf := s.bf.put s.cfg.num s.cfg.wBatt (battVolt s.cfg adc)
      { s with env := s.env.afterAdc, bf := bf, lt := { s.lt with adc := adc, vf := bf.mean s.cfg.num s.cfg.wBatt } },
    fun s => s.setX .battRaw (toReg s.cfg (s.cfg.num.ofInt s.lt.adc)),
    fun s =>
      match s.lt.vf with
      | some f => s.setX .battFiltered (toReg s.cfg (s.cfg.num.mul f s.cfg.battRegScale))
      | none => s ]

/-- T2 (R172): two reads, then AP.SETPARAM. -/
def t2Events : List Event :=
  [ fun s => { s with loc := { s.loc with c := s.x .landingCeiling } },
    fun s =>
      let s := { s with loc := { s.loc with d := s.x .descendDuration } }
      { s with ap := s.ap.withParams s.cfg s.loc.c s.loc.d } ]

/-- T3 (R173): the test of X4, then AP.ENTER. -/
def t3Events : List Event :=
  [ fun s =>
      if lowBattery s.cfg s.lt.vf (s.x .battLowThreshold) then { s with ap := s.ap.entered s.lt.tStart } else s ]

/-- T4 (R174): the operator throttle is latched, AP.INIT if it is zero, then the battery status. -/
def t4Events : List Event :=
  [ fun s =>
      let joy := s.x .joyThrottle
      { s with lt := { s.lt with joyThr := joy }, ap := if joy = 0 then s.ap.initialised else s.ap },
    fun s => s.setX .battStatus (statusWord s.ap.active) ]

/-- T5 (R175): the read, then the register of the branch taken, then its indicator. -/
def t5Events : List Event :=
  [ fun s => { s with loc := { s.loc with calib := s.x .calib } },
    fun s =>
      if s.loc.calib = 1 then { s with cal := s.cal.restart }.setX .calib 2
      else if s.loc.calib = 2 ∧ s.cal.ready = true then s.setX .calib 0
      else s,
    fun s =>
      if s.loc.calib = 1 then s.setIndicator .calibrating
      else if s.loc.calib = 2 ∧ s.cal.ready = true then s.setIndicator .ready
      else s ]

/-- T6 (R176): EST.UPDATE. -/
def t6Events : List Event := estUpdateEvents

/-- T7 (R177): the read of `last_rx`, then the forced write of ENABLE. -/
def t7Events : List Event :=
  [ fun s => { s with loc := { s.loc with seenRx := s.lastRx } },
    fun s => if commTimeout s.cfg s.lt.tStart s.loc.seenRx then s.setX .enable 0 else s ]

/-- T8 (R178): five reads, three writes, the targets in radians. -/
def t8Events : List Event :=
  [ fun s => { s with loc := { s.loc with trimYaw := s.x .trimYaw } },
    fun s => { s with loc := { s.loc with joyPitch := s.x .joyPitch } },
    fun s => { s with loc := { s.loc with trimPitch := s.x .trimPitch } },
    fun s => { s with loc := { s.loc with joyRoll := s.x .joyRoll } },
    fun s => { s with loc := { s.loc with trimRoll := s.x .trimRoll } },
    fun s => s.setX .targetYaw s.loc.trimYaw,
    fun s => s.setX .targetPitch (trimmed s.loc.joyPitch s.loc.trimPitch),
    fun s =>
      let ty := s.loc.trimYaw
      let tp := trimmed s.loc.joyPitch s.loc.trimPitch
      let tr := trimmed s.loc.joyRoll s.loc.trimRoll
      let s := s.setX .targetRoll tr
      { s with lt := { s.lt with tgt := ⟨angleOf s.cfg ty, angleOf s.cfg tp, angleOf s.cfg tr⟩ } } ]

/-- T9 (R179): ENABLE is latched and the failsafe answers the throttle. -/
def t9Events : List Event :=
  [ fun s =>
      let en := s.x .enable
      let req := if en != 0 then s.lt.joyThr.toInt else 0
      { s with lt := { s.lt with en := en, thr := s.ap.throttle s.lt.tStart req } } ]

/-- T10 (R180): the channels are cleared; CTL.RUN only if armed. -/
def t10Events : List Event :=
  (fun s => { s with lt := { s.lt with rud := 0, ele := 0, ail := 0 } }) ::
    (ctlRunEvents (fun s => s.lt.sample) (fun s => s.lt.tgt)).map (Event.onlyIf State.armed)

/-- T11 (R181): the mode is read, then MIX.TEST or MIX.RUN on the latches. -/
def t11Events : List Event :=
  (fun s => { s with loc := { s.loc with mode := s.x .testMode } }) ::
    ((mixTestEvents fun s => s.lt.en).map (Event.onlyIf fun s => isTestMode s.loc.mode) ++
     (mixRunEvents fun s => s.computeDuties s.lt.thr s.lt.rud s.lt.ele s.lt.ail s.lt.vf).map
        (Event.onlyIf fun s => !isTestMode s.loc.mode))

/-- T12 (R182): the draw, then LOOP_TIME, then TIME. -/
def t12Events : List Event :=
  [ fun s => { s with lt := { s.lt with tEnd := s.env.clockValue }, env := s.env.afterClock },
    fun s => s.setX .loopTime (loopReg s.cfg s.lt.tStart s.lt.tEnd),
    fun s => s.setX .time (timeReg s.cfg s.lt.tEnd) ]

/-- T13 (R183): the draw, then the wait or the resynchronisation. -/
def t13Events : List Event :=
  [ fun s => { s with loc := { s.loc with now := s.env.clockValue }, env := s.env.afterClock },
    fun s =>
      if s.loc.now ≤ s.deadline then
        { s with env := s.env.waitUntil s.deadline, deadline := s.deadline + s.cfg.period }
      else if s.loc.now - s.deadline < s.cfg.period then { s with deadline := s.deadline + s.cfg.period }
      else { s with deadline := s.loc.now + s.cfg.period } ]

/-- The events of a step. -/
def tickEvents : Phase → List Event
  | .t1 => t1Events
  | .t2 => t2Events
  | .t3 => t3Events
  | .t4 => t4Events
  | .t5 => t5Events
  | .t6 => t6Events
  | .t7 => t7Events
  | .t8 => t8Events
  | .t9 => t9Events
  | .t10 => t10Events
  | .t11 => t11Events
  | .t12 => t12Events
  | .t13 => t13Events

/-- A step is over: `pc` goes to the next and its locals are gone (R170). After T13 too the per-tick latches keep the values
of the tick that is over, where R25 leaves them unspecified at the start of each tick (DESIGN CHOICE, log 11). -/
def State.endStep (s : State) (p : Phase) : State :=
  { s with phase := p.next, micro := 0, loc := Locals.empty }

/-- A step performed whole. -/
def State.runStep (s : State) (p : Phase) : State := (runEvents (tickEvents p) s).endStep p

/-- TICK.T1 (R171). -/
def execTickT1 (s : State) : Host.Outcome State Fault Refusal := .next (s.runStep .t1)

/-- TICK.T2 (R172). -/
def execTickT2 (s : State) : Host.Outcome State Fault Refusal := .next (s.runStep .t2)

/-- TICK.T3 (R173). -/
def execTickT3 (s : State) : Host.Outcome State Fault Refusal := .next (s.runStep .t3)

/-- TICK.T4 (R174). -/
def execTickT4 (s : State) : Host.Outcome State Fault Refusal := .next (s.runStep .t4)

/-- TICK.T5 (R175). -/
def execTickT5 (s : State) : Host.Outcome State Fault Refusal := .next (s.runStep .t5)

/-- TICK.T6 (R176). -/
def execTickT6 (s : State) : Host.Outcome State Fault Refusal := .next (s.runStep .t6)

/-- TICK.T7 (R177). -/
def execTickT7 (s : State) : Host.Outcome State Fault Refusal := .next (s.runStep .t7)

/-- TICK.T8 (R178). -/
def execTickT8 (s : State) : Host.Outcome State Fault Refusal := .next (s.runStep .t8)

/-- TICK.T9 (R179). -/
def execTickT9 (s : State) : Host.Outcome State Fault Refusal := .next (s.runStep .t9)

/-- TICK.T10 (R180). -/
def execTickT10 (s : State) : Host.Outcome State Fault Refusal := .next (s.runStep .t10)

/-- TICK.T11 (R181). -/
def execTickT11 (s : State) : Host.Outcome State Fault Refusal := .next (s.runStep .t11)

/-- TICK.T12 (R182). -/
def execTickT12 (s : State) : Host.Outcome State Fault Refusal := .next (s.runStep .t12)

/-- TICK.T13 (R183). -/
def execTickT13 (s : State) : Host.Outcome State Fault Refusal := .next (s.runStep .t13)

end Sys2Proof.Machine
end

