-- ==== Sys2Proof/Machine/Fetch.lean ====
section
/-! DEFINITION. How an agent comes to its next instruction and how far it goes in one turn: TICK's step is the one `phase`
names (R170), PKT's command is decoded from the oldest datagram delivered (R150); either may be performed whole or one
event at a time (R50), and the agenda says whose turn it is (log 7). -/

namespace Sys2Proof.Machine

/-! ### TICK -/

/-- The instruction `phase` names. -/
def Phase.instr : Phase → Instr
  | .t1 => .tickT1 | .t2 => .tickT2 | .t3 => .tickT3 | .t4 => .tickT4 | .t5 => .tickT5
  | .t6 => .tickT6 | .t7 => .tickT7 | .t8 => .tickT8 | .t9 => .tickT9 | .t10 => .tickT10
  | .t11 => .tickT11 | .t12 => .tickT12 | .t13 => .tickT13

/-- One event of the step in progress; the last one ends the step. -/
def State.tickOne (s : State) : State :=
  match (tickEvents s.phase).drop s.micro with
  | [] => s.endStep s.phase
  | [e] => (e s).endStep s.phase
  | e :: _ :: _ => { e s with micro := s.micro + 1 }

/-- The events of the step in progress that are left. -/
def State.tickRest (s : State) : State :=
  (runEvents ((tickEvents s.phase).drop s.micro) s).endStep s.phase

/-! ### PKT -/

/-- The events of a command in hand; PKT decodes nothing but the five wire commands (R70). -/
def pktEvents (cfg : Cfg) : Instr → List Event
  | .rd addr => rdEvents cfg addr
  | .wr addr value => wrEvents cfg addr value
  | .brd addr count => brdEvents cfg addr count
  | .bwr addr values => bwrEvents cfg addr values
  | .echo bytes => echoEvents bytes
  | .rbRead _ | .rbWrite _ _ | .mafReset | .mafPut _ | .mafGet | .estInit | .estStartCal | .estUpdate
  | .apInit | .apEnter _ | .apGetThr _ _ | .apSetParam _ _ | .ctlWrap _ | .ctlRun _ _
  | .mixAmp _ | .mixRun _ _ _ _ _ | .mixTest _
  | .tickT1 | .tickT2 | .tickT3 | .tickT4 | .tickT5 | .tickT6 | .tickT7 | .tickT8 | .tickT9 | .tickT10
  | .tickT11 | .tickT12 | .tickT13 => []

/-- PKT takes up the oldest datagram delivered (R150 (1)): decoded, it is in hand; too short, it is dropped (X1) and
`last_rx` is not refreshed (R156); over `RX_MAX`, it is outside the spec (U6). With none delivered PKT is idle (R211). -/
def State.takeUp (s : State) : Host.Outcome State Fault Refusal :=
  match s.inbox with
  | [] => .next s
  | d :: ds =>
    match decodeDatagram s.cfg.rxMax d.bytes with
    | .ok i => .next { s with inbox := ds, rx := d, tx := [], pkt := .handling i 0 }
    | .reject .tooLong => .refused .datagramTooLong
    | .reject .short => .next { s with inbox := ds, rx := d }.drop
    | .reject .unknownLabel => .next { s with inbox := ds, rx := d }.drop
    | .reject .badOperand => .next { s with inbox := ds, rx := d }.drop

/-- One event of the command in hand; the last one ends the handling. -/
def State.pktOne (s : State) (i : Instr) (k : Nat) : State :=
  match (pktEvents s.cfg i).drop k with
  | [] => s.endHandling
  | [e] => (e s).endHandling
  | e :: _ :: _ => { e s with pkt := .handling i (k + 1) }

/-- The events of the command in hand that are left. -/
def State.pktRest (s : State) (i : Instr) (k : Nat) : State :=
  (runEvents ((pktEvents s.cfg i).drop k) s).endHandling

/-! ### Whose turn -/

/-- PKT has a datagram in hand or delivered. -/
def State.pktBusy (s : State) : Bool :=
  match s.pkt with
  | .handling _ _ => true
  | .idle => !s.inbox.isEmpty

/-- The turn that comes next: the agenda's, else a datagram before the next step (log 7). -/
def State.turn (s : State) : Turn :=
  match s.agenda with
  | t :: _ => t
  | [] => if s.pktBusy then .pkt else .tick

/-- The state in which that turn is taken. -/
def State.afterTurn (s : State) : State := { s with agenda := s.agenda.tail }

/-! ### Placing an instruction where it is fetched -/

/-- The phase of a tick step's instruction. -/
def phaseOf : Instr → Option Phase
  | .tickT1 => some .t1 | .tickT2 => some .t2 | .tickT3 => some .t3 | .tickT4 => some .t4 | .tickT5 => some .t5
  | .tickT6 => some .t6 | .tickT7 => some .t7 | .tickT8 => some .t8 | .tickT9 => some .t9 | .tickT10 => some .t10
  | .tickT11 => some .t11 | .tickT12 => some .t12 | .tickT13 => some .t13
  | .rd _ | .wr _ _ | .brd _ _ | .bwr _ _ | .echo _
  | .rbRead _ | .rbWrite _ _ | .mafReset | .mafPut _ | .mafGet | .estInit | .estStartCal | .estUpdate
  | .apInit | .apEnter _ | .apGetThr _ _ | .apSetParam _ _ | .ctlWrap _ | .ctlRun _ _
  | .mixAmp _ | .mixRun _ _ _ _ _ | .mixTest _ => none

/-- A step placed in `phase`, TICK's turn next. -/
def State.placePhase (s : State) (p : Phase) : State :=
  { s with call := none, phase := p, micro := 0, agenda := .tick :: s.agenda }

/-- A datagram placed first in `inbox`, PKT idle and its turn next. -/
def State.placeDatagram (s : State) (rx : List Byte) : State :=
  { s with call := none, pkt := .idle, inbox := ⟨0, rx⟩ :: s.inbox, agenda := .pkt :: s.agenda }

/-- A code placed where its agent fetches it: a step in `phase`, a datagram in `inbox`, an operation in `call` (log 9). -/
def State.placeCode (s : State) (c : Code) : State :=
  match c with
  | .datagram rx => s.placeDatagram rx
  | .call c =>
    match decodeCall c with
    | .ok i =>
      match phaseOf i with
      | some p => s.placePhase p
      | none => { s with call := some c }
    | .reject _ => { s with call := some c }

/-! ### Power-on -/

/-- The reset event, as R231 orders it, whatever the state before it: the clock is drawn, the bank takes INIT_REGS, the
units are initialised by their own operations, and the outputs are driven. What R232 leaves unspecified stays. The rules do not
say what becomes of datagrams delivered and not begun, of the model's own agenda and call, or of the outputs performed
before: they stay, and the five outputs are added after those (DESIGN CHOICE, log 23). -/
def State.powerOn (s : State) : State :=
  let t := s.env.clockValue
  let s := { s with env := s.env.afterClock, regs := s.cfg.initRegs, bf := s.bf.cleared }
  let s := s.estInit
  let s := { s with ap := { s.ap.initialised with onset := 0, ceiling := 0, descend := 0 } }
  let s := { s with lastRx := t, deadline := t + s.cfg.period }
  let s := (((s.outputDuty 0 0).outputDuty 1 0).outputDuty 2 0).outputDuty 3 0
  let s := s.setIndicator .calibrating
  { s.endHandling with phase := .t1, micro := 0, loc := Locals.empty }

end Sys2Proof.Machine
end

