-- ==== Sys2Proof/Machine/RegBank.lean ====
section
/-! DEFINITION. RegisterBank: RB.READ and RB.WRITE called on their own. -/

namespace Sys2Proof.Machine

/-- RB.READ (R41): the slot's value, or none outside `[0, N)`; no other effect. -/
def execRbRead (id : Int) (s : State) : Host.Outcome State Fault Refusal :=
  .next { s with ret := .slot (regRead s id) }

/-- RB.WRITE (R42): the slot takes the value; outside `[0, N)` nothing changes. -/
def execRbWrite (id : Int) (v : Word) (s : State) : Host.Outcome State Fault Refusal :=
  .next (regWrite s id v)

end Sys2Proof.Machine
end

