-- ==== Sys2Proof/Machine/Dispatch.lean ====
section
/-! DEFINITION. One arm per instruction, each one call of its meaning. -/

namespace Sys2Proof.Machine

def exec (i : Instr) (s : State) : Host.Outcome State Fault Refusal :=
  match i with
  | .rd addr => Sys2Proof.Machine.execRd addr s
  | .wr addr value => Sys2Proof.Machine.execWr addr value s
  | .brd addr count => Sys2Proof.Machine.execBrd addr count s
  | .bwr addr values => Sys2Proof.Machine.execBwr addr values s
  | .echo bytes => Sys2Proof.Machine.execEcho bytes s
  | .rbRead id => Sys2Proof.Machine.execRbRead id s
  | .rbWrite id value => Sys2Proof.Machine.execRbWrite id value s
  | .mafReset => Sys2Proof.Machine.execMafReset s
  | .mafPut v => Sys2Proof.Machine.execMafPut v s
  | .mafGet => Sys2Proof.Machine.execMafGet s
  | .estInit => Sys2Proof.Machine.execEstInit s
  | .estStartCal => Sys2Proof.Machine.execEstStartCal s
  | .estUpdate => Sys2Proof.Machine.execEstUpdate s
  | .apInit => Sys2Proof.Machine.execApInit s
  | .apEnter t => Sys2Proof.Machine.execApEnter t s
  | .apGetThr now requested => Sys2Proof.Machine.execApGetThr now requested s
  | .apSetParam ceiling duration => Sys2Proof.Machine.execApSetParam ceiling duration s
  | .ctlWrap e => Sys2Proof.Machine.execCtlWrap e s
  | .ctlRun sample tgt => Sys2Proof.Machine.execCtlRun sample tgt s
  | .mixAmp vf => Sys2Proof.Machine.execMixAmp vf s
  | .mixRun thr rud ele ail vf => Sys2Proof.Machine.execMixRun thr rud ele ail vf s
  | .mixTest en => Sys2Proof.Machine.execMixTest en s
  | .tickT1 => Sys2Proof.Machine.execTickT1 s
  | .tickT2 => Sys2Proof.Machine.execTickT2 s
  | .tickT3 => Sys2Proof.Machine.execTickT3 s
  | .tickT4 => Sys2Proof.Machine.execTickT4 s
  | .tickT5 => Sys2Proof.Machine.execTickT5 s
  | .tickT6 => Sys2Proof.Machine.execTickT6 s
  | .tickT7 => Sys2Proof.Machine.execTickT7 s
  | .tickT8 => Sys2Proof.Machine.execTickT8 s
  | .tickT9 => Sys2Proof.Machine.execTickT9 s
  | .tickT10 => Sys2Proof.Machine.execTickT10 s
  | .tickT11 => Sys2Proof.Machine.execTickT11 s
  | .tickT12 => Sys2Proof.Machine.execTickT12 s
  | .tickT13 => Sys2Proof.Machine.execTickT13 s

end Sys2Proof.Machine
end

