-- ==== Sys2Proof/Machine/Step.lean ====
section
/-! DEFINITION. One step of the block: an operation placed in `call`, else the turn of one of the two agents, which runs
its instruction whole, or one event of it, or what is left of it (R50, R150, R170). -/

namespace Sys2Proof.Machine

/-- TICK's whole turn: the step `phase` names, or the rest of the step in progress (R170). -/
def State.tickTurn (s : State) : Host.Outcome State Fault Refusal :=
  match s.micro with
  | 0 => exec s.phase.instr s
  | _ + 1 => .next s.tickRest

/-- PKT's whole turn on the datagram it has in hand: the command, or the rest of it. -/
def State.handleInHand (s : State) : Host.Outcome State Fault Refusal :=
  match s.pkt with
  | .idle => .next s
  | .handling i 0 => exec i s
  | .handling i (k + 1) => .next (s.pktRest i (k + 1))

/-- PKT's whole turn (R150): the datagram in hand, or the oldest one delivered, taken up and handled. -/
def State.pktTurn (s : State) : Host.Outcome State Fault Refusal :=
  match s.pkt with
  | .handling _ _ => s.handleInHand
  | .idle =>
    match s.takeUp with
    | .next t => t.handleInHand
    | .fault r => .fault r
    | .refused r => .refused r

/-- PKT's turn of one event: taking a datagram up is one. -/
def State.pktEventTurn (s : State) : Host.Outcome State Fault Refusal :=
  match s.pkt with
  | .idle => s.takeUp
  | .handling i k => .next (s.pktOne i k)

/-- An operation placed in `call` (log 9). -/
def State.callTurn (s : State) (c : Call) : Host.Outcome State Fault Refusal :=
  match decodeCall c with
  | .ok i => exec i { s with call := none }
  | .reject _ => .refused .badCall

/-- A turn of the agents. -/
def State.takeTurn (s : State) (t : Turn) : Host.Outcome State Fault Refusal :=
  match t with
  | .tick => s.tickTurn
  | .tickEvent => .next s.tickOne
  | .pkt => s.pktTurn
  | .pktEvent => s.pktEventTurn

/-- One step. -/
def step (s : State) : Host.Outcome State Fault Refusal :=
  match s.call with
  | some c => s.callTurn c
  | none => s.afterTurn.takeTurn s.turn

/-- The state in which the next step fetches and runs the instruction of a table row's number. -/
def State.withFetchWord (s : State) (nbits w : Nat) : State := s.placeCode (tableCode nbits w)

end Sys2Proof.Machine
end

