-- ==== Sys2Proof/Safety.lean ====
section
/-! DEFINITION. What a sound state is, in the terms the statements use: the invariants of the units (R10, R21, R22, R27,
R83), of the sequencer and the protocol server, the order of times (R6), and what it means that a step writes only
certain registers. -/

namespace Sys2Proof

/-- What a statement about zeros names of NUM (R3): zero times anything is zero, and zeros add up to zero. -/
def Numerics.KeepsZero (n : Numerics) : Prop := (∀ a, n.mul 0 a = 0 ∧ n.mul a 0 = 0) ∧ n.add 0 0 = 0

end Sys2Proof

namespace Sys2Proof.Machine

/-- The invariant of a moving-average filter of window `w` (R21, R83). Under exact NUM the sum is that of the values held,
which while the buffer fills are its first `count` places. A rounding NUM may drift from it (U2). -/
structure FilterOk (n : Numerics) (w : Nat) (f : Filter) : Prop where
  buf_length : f.buf.length = w
  head_lt : f.head < w
  count_le : f.count ≤ w
  filling : f.count < w → f.head = f.count
  sum_eq : n = .rational → f.sum = (f.buf.take f.count).sum

/-- The invariant of the calibration buffer (R22, R94): the count never exceeds the capacity, and the buffer is ready
exactly when it is full. -/
structure CalibOk (c : Calib) : Prop where
  buf_length : c.buf.length = calCap
  count_le : c.count ≤ calCap
  ready_iff : c.ready = (c.count == calCap)

/-- Duties of the 10-bit port (R25, R27). -/
def DutiesOk (q : Quad Nat) : Prop := ∀ i, (q.get i : Int) ≤ dutyMax

/-- An instruction is one of the five wire commands (R60). -/
def isWireCommand (i : Instr) : Bool :=
  match encode i with
  | .datagram _ => true
  | .call _ => false

/-- What PKT has in hand is a wire command with an event left (R150). -/
def PktOk (cfg : Cfg) (p : PktStage) : Prop :=
  match p with
  | .idle => True
  | .handling i k => isWireCommand i = true ∧ k < (pktEvents cfg i).length

/-- The invariant every step keeps. -/
structure State.Ok (s : State) : Prop where
  cfg : s.cfg.Ok
  memory : Memory.wf s.cfg.n s.regs = true
  filter : FilterOk s.cfg.num s.cfg.wBatt s.bf
  calib : CalibOk s.cal
  duty : DutiesOk s.lt.duty
  dutyOut : DutiesOk s.dutyOut
  micro : s.micro < (tickEvents s.phase).length
  pkt : PktOk s.cfg s.pkt

/-- No recorded time lies after the last draw of the clock, and the failsafe's onset not after the tick's start (R6,
R112 (vi), R114 (iii)); `call` is empty, as it is whenever no operation has been placed from outside (log 9). -/
structure State.TimesOk (s : State) : Prop where
  call : s.call = none
  onset : s.ap.onset ≤ s.lt.tStart
  tStart : s.lt.tStart ≤ s.env.now
  lastRx : s.lastRx ≤ s.env.now
  rxTime : s.rxTime ≤ s.env.now
  seenRx : s.loc.seenRx ≤ s.env.now
  waitFrom : s.loc.now ≤ s.env.now

/-- From `s` to `t` the register bank changes in the listed registers only, each of which holds its value. -/
def OnlyWrites (s t : State) (ws : List (Reg × Word)) : Prop :=
  t.regs.length = s.regs.length ∧ (∀ w ∈ ws, t.x w.1 = w.2) ∧
    ∀ j, (∀ w ∈ ws, j ≠ s.cfg.id w.1) → t.slot j = s.slot j

/-- A list of instructions one after the other, as long as each has a next state. -/
def execAll : List Instr → State → Host.Outcome State Fault Refusal
  | [], s => .next s
  | i :: is, s =>
    match exec i s with
    | .next t => execAll is t
    | .fault r => .fault r
    | .refused r => .refused r

/-- A state after the timestamp refresh of a datagram (R156) with its handling over (R207): what every command does
besides its register accesses and its response. -/
def State.stamped (s : State) : State :=
  { s with
    rxTime := s.env.clockValue, env := s.env.afterClock, lastRx := s.env.clockValue
    rx := ⟨0, []⟩, tx := [], pkt := .idle }

/-- A datagram with this opcode is decoded to `Drop(short)` where its length is as given (R68, R70). -/
def DropsShort (op : Byte) (short : List Byte → Prop) : Prop :=
  ∀ (rxMax : Nat) (rx : List Byte), rx.length ≤ rxMax → rx.head? = some op → short rx →
    decodeDatagram rxMax rx = .reject .short

/-- The six gain registers in the order CTL.RUN reads them (R126). -/
def gainRegs : List Reg := [.pYaw, .pPitch, .pRoll, .dYaw, .dPitch, .dRoll]

/-- The block runs by itself: nothing is placed in `call`, no turn is planned, and PKT has nothing to do, so every step is
a whole tick step. -/
def State.Undisturbed (s : State) : Prop :=
  s.call = none ∧ s.agenda = [] ∧ s.inbox = [] ∧ s.pkt = .idle

end Sys2Proof.Machine
end

