-- ==== Sys2Proof/Certificates/Slice0/Obligations.lean ====
section
/-! DEFINITION. The statements for the provers. -/

open Sys2Proof Sys2Proof.Machine

/-! ### Encoding -/

/-- R61 to R66, and R73's labels with the operands the model carries beside them (log 9): the code of every well-formed
instruction decodes to it, with every operand. -/
def Obligations.DecodeOfEncodeIsIdentity : Prop :=
  ∀ (rxMax : Nat) (i : Instr), 513 ≤ rxMax → i.wellFormed rxMax = true → decode rxMax (encode i) = .ok i

/-- R70, with the minimum lengths of R68 and the ignored bytes of R69: what every byte string of an admitted length
decodes to. -/
def Obligations.DecodingProcedure : Prop :=
  ∀ (rxMax : Nat) (rx : List Byte), rx.length ≤ rxMax →
    let op := (rx.getD 0 0).toNat
    let count := (rx.getD 2 0).toNat
    (rx.length = 0 → decodeDatagram rxMax rx = .reject .short) ∧
    (1 ≤ rx.length → op = 0 →
      (rx.length < 2 → decodeDatagram rxMax rx = .reject .short) ∧
      (2 ≤ rx.length → decodeDatagram rxMax rx = .ok (.rd (rx.getD 1 0)))) ∧
    (1 ≤ rx.length → op = 1 →
      (rx.length < 4 → decodeDatagram rxMax rx = .reject .short) ∧
      (4 ≤ rx.length → decodeDatagram rxMax rx = .ok (.wr (rx.getD 1 0) (wordOf (rx.getD 2 0) (rx.getD 3 0))))) ∧
    (1 ≤ rx.length → op = 2 →
      (rx.length < 3 → decodeDatagram rxMax rx = .reject .short) ∧
      (3 ≤ rx.length → decodeDatagram rxMax rx = .ok (.brd (rx.getD 1 0) (rx.getD 2 0)))) ∧
    (1 ≤ rx.length → op = 3 →
      (rx.length < 3 → decodeDatagram rxMax rx = .reject .short) ∧
      (3 ≤ rx.length → rx.length < 3 + 2 * count → decodeDatagram rxMax rx = .reject .short) ∧
      (3 + 2 * count ≤ rx.length → decodeDatagram rxMax rx =
        .ok (.bwr (rx.getD 1 0)
          ((List.range count).map fun k => wordOf (rx.getD (3 + 2 * k) 0) (rx.getD (4 + 2 * k) 0))))) ∧
    (1 ≤ rx.length → 4 ≤ op → decodeDatagram rxMax rx = .ok (.echo rx))

/-- R44, R66: a value is two bytes, low byte first, read as two's complement; `lo` and `hi` take it apart again. -/
def Obligations.ValuesAreLittleEndianSigned : Prop :=
  (∀ lo hi : Byte, (wordOf lo hi).toInt =
    let u : Int := lo.toNat + 256 * hi.toNat
    if u < 32768 then u else u - 65536) ∧
  (∀ v : Word, (loByte v).toNat = v.toNat % 256 ∧ (hiByte v).toNat = v.toNat / 256 ∧ wordOf (loByte v) (hiByte v) = v)

/-- Words written out from the spec's examples (R66, R72, R151 to R155) decode to the commands they stand for, and the
labels of R73 to their operations. -/
def Obligations.WrittenOutWordsDecode : Prop :=
  decodeDatagram 513 [0x00, 0x22] = .ok (.rd 0x22) ∧
  decodeDatagram 513 [0x01, 0x1B, 0xF4, 0x01] = .ok (.wr 0x1B (BitVec.ofInt 16 500)) ∧
  decodeDatagram 513 [0x01, 0x15, 0x9C, 0xFF] = .ok (.wr 0x15 (BitVec.ofInt 16 (-100))) ∧
  decodeDatagram 513 [0x02, 0x1E, 0x04] = .ok (.brd 0x1E 4) ∧
  decodeDatagram 513 [0x03, 0x1E, 0x04, 0x64, 0x00, 0xC8, 0x00, 0x2C, 0x01, 0x00, 0x08] =
    .ok (.bwr 0x1E [100, 200, 300, 2048]) ∧
  decodeDatagram 513 [0x7F, 0x01, 0x02] = .ok (.echo [0x7F, 0x01, 0x02]) ∧
  decodeCall ⟨0x21, [5 / 2]⟩ = .ok (.mafPut (5 / 2)) ∧
  decodeCall ⟨0x7D, []⟩ = .ok .tickT13

/-! ### Numbers -/

/-- R4: what is required of every `Q`, for either quantiser of the configuration, and the default, truncation toward zero
saturated to 16 bits. -/
def Obligations.ToRegKeepsItsThreeProperties : Prop :=
  ∀ cfg : Cfg,
    (∀ k : Int, -32768 ≤ k → k ≤ 32767 → (toReg cfg (k : Scalar)).toInt = k) ∧
    (∀ u v : Scalar, u ≤ v → (toReg cfg u).toInt ≤ (toReg cfg v).toInt) ∧
    (∀ v : Scalar, -32768 ≤ toRegInt cfg v ∧ toRegInt cfg v ≤ 32767 ∧ (toReg cfg v).toInt = toRegInt cfg v) ∧
    (cfg.q = .truncate → ∀ v : Scalar,
      (0 ≤ v → (toReg cfg v).toInt = min ⌊v⌋ 32767) ∧ (v ≤ 0 → (toReg cfg v).toInt = max ⌈v⌉ (-32768)))

/-! ### Reset -/

/-- R30: the state after reset, under every configuration and at every reset time. The fields R30 leaves unspecified are
not named. -/
def Obligations.ResetLeavesTheListedState : Prop :=
  ∀ (cfg : Cfg) (t : Nat), let s := State.resetOf cfg t
    s.regs = cfg.initRegs ∧ s.bf.count = 0 ∧ s.bf.head = 0 ∧ s.bf.sum = 0 ∧
    s.cal.count = 0 ∧ s.cal.ready = false ∧ s.origin = ⟨0, 0, 0⟩ ∧ s.fstate = cfg.fstateInit ∧
    s.ap = ⟨0, 0, false, 0⟩ ∧ s.phase = .t1 ∧ s.deadline = t + cfg.period ∧ s.lastRx = t ∧
    s.rx.bytes = [] ∧ s.tx = [] ∧ s.dutyOut = ⟨0, 0, 0, 0⟩ ∧ s.indicator = .calibrating

/-- R231: the reset event performs its sequence on whatever state was before it. That the outputs of before stay in front of
its own is the model's choice (log 23). -/
def Obligations.PowerOnPerformsTheResetSequence : Prop :=
  ∀ s : State, let t := s.powerOn
    t.regs = s.cfg.initRegs ∧ t.bf.count = 0 ∧ t.bf.head = 0 ∧ t.bf.sum = 0 ∧ t.bf.buf = s.bf.buf ∧
    t.cal.count = 0 ∧ t.cal.ready = false ∧ t.origin = ⟨0, 0, 0⟩ ∧ t.fstate = s.cfg.fstateInit ∧
    t.ap = ⟨0, 0, false, 0⟩ ∧ t.lastRx = s.env.clockValue ∧ t.deadline = s.env.clockValue + s.cfg.period ∧
    t.out = s.out ++ [.duty 0 0, .duty 1 0, .duty 2 0, .duty 3 0, .indicator .calibrating] ∧
    t.dutyOut = ⟨0, 0, 0, 0⟩ ∧ t.indicator = .calibrating ∧ t.phase = .t1

/-- The reset state meets the invariant, under every configuration R2 admits and at every reset time; CFG0 is one, and the
model's choice is CFG0 and time 0 (log 1, log 5). -/
def Obligations.ResetMeetsTheInvariant : Prop :=
  State.reset = State.resetOf cfg0 0 ∧ cfg0.Ok ∧
    ∀ (cfg : Cfg) (t : Nat), cfg.Ok → (State.resetOf cfg t).Ok ∧ (State.resetOf cfg t).TimesOk

/-! ### RegisterBank -/

/-- R41, R42: RB.READ and RB.WRITE with an ID inside and outside `[0, N)`, and all they leave unchanged. -/
def Obligations.RegisterReadAndWrite : Prop :=
  ∀ (s : State) (id : Int) (v : Word), s.cfg.Ok → Memory.wf s.cfg.n s.regs = true →
    (0 ≤ id → id < s.cfg.n →
      (∃ w, s.regs[id.toNat]? = some w ∧ exec (.rbRead id) s = .next { s with ret := .slot (some w) }) ∧
      (∃ t, exec (.rbWrite id v) s = .next t ∧ t = { s with regs := t.regs } ∧ t.regs.length = s.regs.length ∧
        t.regs[id.toNat]? = some v ∧ ∀ j, j ≠ id.toNat → t.regs[j]? = s.regs[j]?)) ∧
    (id < 0 ∨ s.cfg.n ≤ id →
      exec (.rbRead id) s = .next { s with ret := .slot none } ∧ exec (.rbWrite id v) s = .next s)

/-! ### MovingAverageFilter -/

/-- R80, R81, R82: the three operations on the battery filter, for every NUM (R3). That a full filter adds the new value
first and then subtracts the evicted one is the model's choice of order (log 2), which exact NUM does not show. -/
def Obligations.FilterOperations : Prop :=
  ∀ (s : State) (v : Scalar), let f := s.bf; let w := s.cfg.wBatt; let num := s.cfg.num
    exec .mafReset s = .next { s with bf := { f with count := 0, head := 0, sum := 0 } } ∧
    (f.count < w → exec (.mafPut v) s = .next { s with bf :=
      ⟨f.buf.set f.head v, (f.head + 1) % w, f.count + 1, num.add f.sum v⟩ }) ∧
    (w ≤ f.count → exec (.mafPut v) s = .next { s with bf :=
      ⟨f.buf.set f.head v, (f.head + 1) % w, f.count, num.sub (num.add f.sum v) (f.buf.getD f.head 0)⟩ }) ∧
    (f.count = w → exec .mafGet s = .next { s with ret := .mean (some (num.div f.sum (num.ofInt w))) }) ∧
    (f.count ≠ w → exec .mafGet s = .next { s with ret := .mean none })

/-- R83: after a reset and any values, the count is that of the last window for every NUM, and under exact NUM the sum and
the mean are those of the last window too, whatever the filter held before; nothing but the filter changes. -/
def Obligations.FilterHoldsTheLastWindow : Prop :=
  ∀ (s : State) (vs : List Scalar), s.cfg.Ok → s.bf.buf.length = s.cfg.wBatt →
    ∃ t, execAll (.mafReset :: vs.map .mafPut) s = .next t ∧ t = { s with bf := t.bf } ∧
      t.bf.count = min vs.length s.cfg.wBatt ∧
      (s.cfg.wBatt ≤ vs.length → ∃ m, exec .mafGet t = .next { t with ret := .mean (some m) } ∧
        (s.cfg.num = .rational → m = (vs.drop (vs.length - s.cfg.wBatt)).sum / s.cfg.wBatt)) ∧
      (vs.length < s.cfg.wBatt → exec .mafGet t = .next { t with ret := .mean none }) ∧
      (s.cfg.num = .rational → t.bf.sum = (vs.drop (vs.length - s.cfg.wBatt)).sum)

/-! ### AttitudeEstimator -/

/-- R90, R91: EST.INIT, and EST.STARTCAL, which keeps the bias and the fusion state. -/
def Obligations.EstimatorInitAndRestart : Prop :=
  ∀ s : State,
    exec .estInit s = .next { s with
      cal := { s.cal with count := 0, ready := false }, origin := ⟨0, 0, 0⟩, fstate := s.cfg.fstateInit } ∧
    exec .estStartCal s = .next { s with cal := { s.cal with count := 0, ready := false } }

/-- R93 to R95, R98: one update of the estimator. Both readings are remapped; the sample joins the calibration buffer while
it is not ready, and the one that fills it yields the bias this very update subtracts; the nine telemetry registers are
written, and nothing else but the fusion state and the sample. For every NUM; the order of the thousand summands, ascending
from zero, is the model's choice (log 2), and under exact NUM it does not matter. -/
def Obligations.EstimatorUpdate : Prop :=
  ∀ s : State, s.cfg.Ok → Memory.wf s.cfg.n s.regs = true →
    ∃ t, exec .estUpdate s = .next t ∧
      (let num := s.cfg.num
       let g := remap num s.cfg.remapG s.env.gyroValue
       let a := remap num s.cfg.remapA s.env.afterGyro.accelValue
       let p := t.lt.sample
       (∀ (m : Remap) (v : Vec3), remap num m v =
         ⟨num.mul (if m.neg0 then -1 else 1) (v.get m.perm0), num.mul (if m.neg1 then -1 else 1) (v.get m.perm1),
           num.mul (if m.neg2 then -1 else 1) (v.get m.perm2)⟩) ∧
       (s.cal.ready = true → t.cal = s.cal ∧ t.origin = s.origin) ∧
       (s.cal.ready = false →
         t.cal = ⟨s.cal.buf.set s.cal.count g, s.cal.count + 1, s.cal.count + 1 == 1000⟩ ∧
         (s.cal.count + 1 ≠ 1000 → t.origin = s.origin) ∧
         (s.cal.count + 1 = 1000 →
           let b := t.cal.buf.take 1000
           let mean : List Scalar → Scalar := fun l => num.div (l.foldl num.add 0) 1000
           t.origin = ⟨mean (b.map Vec3.v0), mean (b.map Vec3.v1), mean (b.map Vec3.v2)⟩ ∧
           (num = .rational → ∀ l, mean l = l.sum / 1000))) ∧
       p.rate = ⟨num.sub g.v0 t.origin.v0, num.sub g.v1 t.origin.v1, num.sub g.v2 t.origin.v2⟩ ∧ p.acc = a ∧
       OnlyWrites s t
         [(.attYaw, toReg s.cfg (num.div p.yaw s.cfg.angleUnit)),
          (.attPitch, toReg s.cfg (num.div p.pitch s.cfg.angleUnit)),
          (.attRoll, toReg s.cfg (num.div p.roll s.cfg.angleUnit)),
          (.rotX, toReg s.cfg (num.mul p.rate.v0 s.cfg.rotRegScale)),
          (.rotY, toReg s.cfg (num.mul p.rate.v1 s.cfg.rotRegScale)),
          (.rotZ, toReg s.cfg (num.mul p.rate.v2 s.cfg.rotRegScale)),
          (.accX, toReg s.cfg (num.mul a.v0 s.cfg.accRegScale)),
          (.accY, toReg s.cfg (num.mul a.v1 s.cfg.accRegScale)),
          (.accZ, toReg s.cfg (num.mul a.v2 s.cfg.accRegScale))] ∧
       t = { s with
         regs := t.regs, env := s.env.afterGyro.afterAccel, cal := t.cal, origin := t.origin, fstate := t.fstate,
         lt := { s.lt with sample := p } })

/-- R96, R97 with the model's own conversion of PERIOD to seconds (log 15) and the given EULER of the vectors (log 4): one
fusion update per EST.UPDATE, on the rate and the acceleration of the sample, and the three angles of the new state. -/
def Obligations.FusionUpdate : Prop :=
  ∀ s : State, ∃ t, exec .estUpdate s = .next t ∧
    (let p := t.lt.sample
     t.fstate = Config.fuse s.fstate p.rate p.acc
       (s.cfg.num.mul (s.cfg.num.ofInt s.cfg.period) s.cfg.secondsPerUnit) ∧
     (s.cfg.eulerGiven = none → (⟨p.yaw, p.pitch, p.roll⟩ : Euler) = Config.euler t.fstate) ∧
     (∀ e, s.cfg.eulerGiven = some e → (⟨p.yaw, p.pitch, p.roll⟩ : Euler) = e))

/-- R91, R94: after a restart the buffer takes exactly a thousand samples; before the last one it is not ready and the
stale bias stays, and with the last one the bias is the mean of the thousand remapped samples, axis by axis, summed in
ascending order from zero where NUM rounds (the model's choice, log 2). -/
def Obligations.CalibrationTakesAThousandSamples : Prop :=
  ∀ (s : State) (raw later : List Vec3), s.cfg.Ok → CalibOk s.cal → raw.length ≤ 1000 → s.env.gyro = raw ++ later →
    ∃ t, execAll (.estStartCal :: List.replicate raw.length .estUpdate) s = .next t ∧
      t.cal.count = raw.length ∧
      (raw.length < 1000 → t.cal.ready = false ∧ t.origin = s.origin) ∧
      (raw.length = 1000 → t.cal.ready = true ∧
        (let g := raw.map (remap s.cfg.num s.cfg.remapG)
         let mean : List Scalar → Scalar := fun l => s.cfg.num.div (l.foldl s.cfg.num.add 0) 1000
         t.origin = ⟨mean (g.map Vec3.v0), mean (g.map Vec3.v1), mean (g.map Vec3.v2)⟩ ∧
         (s.cfg.num = .rational → ∀ l, mean l = l.sum / 1000)))

/-! ### AutoPilotFailsafe -/

/-- R110, R111, R113: AP.INIT, AP.ENTER in either state (the onset is recorded once), AP.SETPARAM. -/
def Obligations.FailsafeStateMachine : Prop :=
  ∀ (s : State) (t : Nat) (c d : Word),
    exec .apInit s = .next { s with ap := { s.ap with active := false } } ∧
    (s.ap.active = false → exec (.apEnter t) s = .next { s with ap := { s.ap with active := true, onset := t } }) ∧
    (s.ap.active = true → exec (.apEnter t) s = .next s) ∧
    exec (.apSetParam c d) s =
      .next { s with ap := { s.ap with ceiling := c.toInt, descend := d.toInt * s.cfg.descendUnit } }

/-- R112: the throttle in Normal, past the descent deadline, and before it; so the failsafe can only reduce a throttle
that is not negative. -/
def Obligations.FailsafeThrottle : Prop :=
  ∀ (s : State) (now : Nat) (requested : Int),
    ∃ thr, exec (.apGetThr now requested) s = .next { s with ret := .throttle thr } ∧
      (s.ap.active = false → thr = requested) ∧
      (s.ap.active = true → s.ap.descend ≤ (now : Int) - s.ap.onset → thr = 0) ∧
      (s.ap.active = true → (now : Int) - s.ap.onset < s.ap.descend → thr = min requested s.ap.ceiling) ∧
      (0 ≤ requested → 0 ≤ s.ap.ceiling → 0 ≤ thr ∧ thr ≤ requested)

/-! ### AttitudeController -/

/-- R121: one correction by 2π, both comparisons strict. That the bound below, -π, is zero less π by NUM's `sub` is the
model's reading (log 2), and under exact NUM it is -π itself; there the result lies in [-π, π] within three half turns and
beyond them does not. -/
def Obligations.WrapTakesTheShorterArc : Prop :=
  ∀ (s : State) (e : Scalar), s.cfg.Ok → let π := s.cfg.pi; let num := s.cfg.num
    ∃ w, exec (.ctlWrap e) s = .next { s with ret := .angle w } ∧
      (π < e → w = num.sub e (num.mul 2 π)) ∧
      (e ≤ π → e < num.sub 0 π → w = num.add e (num.mul 2 π)) ∧
      (num.sub 0 π ≤ e → e ≤ π → w = e) ∧
      (num = .rational → num.sub 0 π = -π ∧
        (-(3 * π) ≤ e → e ≤ 3 * π → -π ≤ w ∧ w ≤ π) ∧ (3 * π < e → π < w) ∧ (e < -(3 * π) → w < -π))

/-- R124, with the errors of R122, the rates of R123, and the gains of R126: each correction is added into its channel and
nothing else changes, the throttle among it (R128). Which component of the rate is whose is R99's assignment, which the
spec marks as general knowledge (log 17); the wrap's lower bound is the model's reading of -π (log 2). -/
def Obligations.ControllerRun : Prop :=
  ∀ (s : State) (p : AttitudeSample) (tgt : Vec3),
    let num := s.cfg.num
    let term : Reg → Reg → Scalar → Scalar → Scalar := fun kp kd error rate =>
      num.add (num.mul (num.mul ((s.x kp).toInt : Scalar) s.cfg.kpUnit) error)
        (num.mul (num.mul ((s.x kd).toInt : Scalar) s.cfg.kdUnit) (num.mul rate (num.div s.cfg.pi 180)))
    exec (.ctlRun p tgt) s = .next { s with lt := { s.lt with
      rud := num.add s.lt.rud (term .pYaw .dYaw (wrapAngle s.cfg (num.sub p.yaw tgt.v0)) p.rate.v2)
      ele := num.add s.lt.ele (term .pPitch .dPitch (num.sub p.pitch tgt.v1) p.rate.v1)
      ail := num.add s.lt.ail (term .pRoll .dRoll (wrapAngle s.cfg (num.sub p.roll tgt.v2)) p.rate.v0) } }

/-! ### MotorMixer -/

/-- R135, R143: the battery compensation; at the shutoff threshold itself it compensates (C1). -/
def Obligations.BatteryCompensation : Prop :=
  ∀ (s : State) (m : Scalar),
    exec (.mixAmp none) s = .next { s with ret := .amp 0 } ∧
    (s.cfg.vShutoff ≤ m → exec (.mixAmp (some m)) s = .next { s with ret := .amp (s.cfg.num.div s.cfg.vBase m) }) ∧
    (m < s.cfg.vShutoff → exec (.mixAmp (some m)) s = .next { s with ret := .amp 0 })

/-- R139, with R136 to R138 and the limiter of R141: the four duties, their outputs in motor order, their mirrors, and
nothing else. `amp` is what MIX.AMP answers. That a motor's four products are added from the left is the model's choice of
order (log 2), which exact NUM does not show. -/
def Obligations.MixerRun : Prop :=
  ∀ (s : State) (thr : Int) (rud ele ail : Scalar) (vf : Option Scalar), s.cfg.Ok →
    Memory.wf s.cfg.n s.regs = true →
    ∃ (t : State) (amp : Scalar),
      exec (.mixAmp vf) s = .next { s with ret := .amp amp } ∧
      exec (.mixRun thr rud ele ail vf) s = .next t ∧
      (let ceiling : Int := max 0 (min (s.x .limit).toInt 1023)
       let num := s.cfg.num
       let m : Fin 4 → Scalar := fun i => let r := s.cfg.mix.get i
         num.add (num.add (num.add (num.mul r.thr (num.mul amp (num.ofInt thr))) (num.mul r.rud (num.mul amp rud)))
           (num.mul r.ele (num.mul amp ele))) (num.mul r.ail (num.mul amp ail))
       let d := t.dutyOut
       (∀ i, (d.get i : Int) = toRegInt s.cfg (max 0 (min (m i) ceiling))) ∧
       OnlyWrites s t [(.motor0, BitVec.ofNat 16 d.m0), (.motor1, BitVec.ofNat 16 d.m1),
         (.motor2, BitVec.ofNat 16 d.m2), (.motor3, BitVec.ofNat 16 d.m3)] ∧
       t = { s with
         regs := t.regs, dutyOut := d, lt := { s.lt with duty := d }
         out := s.out ++ [.duty 0 d.m0, .duty 1 d.m1, .duty 2 d.m2, .duty 3 d.m3] })

/-- R144 (i): whatever the inputs, in normal mode every duty and every mirrored register lies between 0 and the effective
ceiling. -/
def Obligations.MixerDutyBounds : Prop :=
  ∀ (s t : State) (thr : Int) (rud ele ail : Scalar) (vf : Option Scalar), s.cfg.Ok →
    Memory.wf s.cfg.n s.regs = true → exec (.mixRun thr rud ele ail vf) s = .next t →
    ∀ i : Fin 4, 0 ≤ (t.x (.motor i)).toInt ∧ (t.x (.motor i)).toInt = t.dutyOut.get i ∧
      (t.dutyOut.get i : Int) ≤ max 0 (min (s.x .limit).toInt 1023)

/-- R144 (ii): without corrections the four duties are equal. Of NUM it names that zeros stay zeros (R3), as exact NUM
does. -/
def Obligations.PureThrottleGivesEqualDuties : Prop :=
  ∀ (s : State) (thr : Int) (vf : Option Scalar), s.cfg.Ok → s.cfg.num.KeepsZero →
    ∃ t, exec (.mixRun thr 0 0 0 vf) s = .next t ∧ ∀ i : Fin 4, t.dutyOut.get i = t.dutyOut.get 0

/-- R144 (iv), R143: below the shutoff voltage, or while the filter is not ready, all four duties are zero. Of NUM it names
that zeros stay zeros (R3), as exact NUM does. -/
def Obligations.CutoffSilencesTheMotors : Prop :=
  ∀ (s : State) (thr : Int) (rud ele ail : Scalar) (vf : Option Scalar), s.cfg.num.KeepsZero →
    (∀ m, vf = some m → m < s.cfg.vShutoff) →
    ∃ t, exec (.mixRun thr rud ele ail vf) s = .next t ∧ t.dutyOut = ⟨0, 0, 0, 0⟩

/-- R140: test mode outputs the raw duties of the motor registers, clamped to the port, or zeros when disabled; no register
is written. -/
def Obligations.TestModeOutputs : Prop :=
  ∀ (s : State) (en : Word),
    ∃ d : Quad Nat, (en = 0 → d = ⟨0, 0, 0, 0⟩) ∧
      (en ≠ 0 → ∀ i : Fin 4, (d.get i : Int) = max 0 (min (s.x (.motor i)).toInt 1023)) ∧
      exec (.mixTest en) s = .next { s with
        dutyOut := d, lt := { s.lt with duty := d }
        out := s.out ++ [.duty 0 d.m0, .duty 1 d.m1, .duty 2 d.m2, .duty 3 d.m3] }

/-! ### CommandProtocolServer -/

/-- R151: RD in and out of range, and too short. -/
def Obligations.ReadCommand : Prop :=
  DropsShort 0x00 (fun rx => rx.length < 2) ∧
  ∀ (s : State) (addr : Byte), Memory.wf s.cfg.n s.regs = true →
    (addr.toNat < s.cfg.n → ∃ v, s.regs[addr.toNat]? = some v ∧
      exec (.rd addr) s = .next { s.stamped with
        out := s.out ++ [.reply s.rx.sender [0x00, loByte v, hiByte v]] }) ∧
    (s.cfg.n ≤ addr.toNat → exec (.rd addr) s = .next s.stamped)

/-- R152: WR in and out of range, and too short. -/
def Obligations.WriteCommand : Prop :=
  DropsShort 0x01 (fun rx => rx.length < 4) ∧
  ∀ (s : State) (addr : Byte) (v : Word), Memory.wf s.cfg.n s.regs = true →
    (addr.toNat < s.cfg.n → ∃ t, exec (.wr addr v) s = .next t ∧ t = { s.stamped with regs := t.regs } ∧
      t.regs.length = s.regs.length ∧ t.regs[addr.toNat]? = some v ∧
      ∀ j, j ≠ addr.toNat → t.regs[j]? = s.regs[j]?) ∧
    (s.cfg.n ≤ addr.toNat → exec (.wr addr v) s = .next s.stamped)

/-- R153: BRD in and out of range (R157), with any count, and too short. -/
def Obligations.BulkReadCommand : Prop :=
  DropsShort 0x02 (fun rx => rx.length < 3) ∧
  ∀ (s : State) (addr count : Byte), Memory.wf s.cfg.n s.regs = true →
    (addr.toNat < s.cfg.n → addr.toNat + count.toNat ≤ s.cfg.n → ∃ vs : List Word,
      vs.length = count.toNat ∧ (∀ k, k < count.toNat → vs[k]? = s.regs[addr.toNat + k]?) ∧
      exec (.brd addr count) s = .next { s.stamped with
        out := s.out ++ [.reply s.rx.sender (0x02 :: addr :: count :: vs.flatMap fun v => [loByte v, hiByte v])] }) ∧
    (s.cfg.n ≤ addr.toNat ∨ s.cfg.n < addr.toNat + count.toNat → exec (.brd addr count) s = .next s.stamped)

/-- R154: BWR in and out of range (R157), with any number of values, and too short in either stage. -/
def Obligations.BulkWriteCommand : Prop :=
  DropsShort 0x03 (fun rx => rx.length < 3 ∨ rx.length < 3 + 2 * (rx.getD 2 0).toNat) ∧
  ∀ (s : State) (addr : Byte) (vs : List Word), Memory.wf s.cfg.n s.regs = true →
    (addr.toNat < s.cfg.n → addr.toNat + vs.length ≤ s.cfg.n → ∃ t, exec (.bwr addr vs) s = .next t ∧
      t = { s.stamped with regs := t.regs } ∧ t.regs.length = s.regs.length ∧
      (∀ k, k < vs.length → t.regs[addr.toNat + k]? = vs[k]?) ∧
      ∀ j, j < addr.toNat ∨ addr.toNat + vs.length ≤ j → t.regs[j]? = s.regs[j]?) ∧
    (s.cfg.n ≤ addr.toNat ∨ s.cfg.n < addr.toNat + vs.length → exec (.bwr addr vs) s = .next s.stamped)

/-- R155: ECHO answers the request verbatim and touches no register. -/
def Obligations.EchoCommand : Prop :=
  ∀ (s : State) (bytes : List Byte),
    exec (.echo bytes) s = .next { s.stamped with out := s.out ++ [.reply s.rx.sender bytes] }

/-- R160 (ii): a bulk write followed by a bulk read of the same range returns the identical sequence, to the sender of the
datagram that reads. -/
def Obligations.BulkWriteThenReadReturnsTheSequence : Prop :=
  ∀ (s : State) (addr : Byte) (vs : List Word), Memory.wf s.cfg.n s.regs = true → vs.length ≤ 255 →
    addr.toNat < s.cfg.n → addr.toNat + vs.length ≤ s.cfg.n →
    ∃ u, exec (.bwr addr vs) s = .next u ∧ ∀ d : Datagram,
      ∃ t, exec (.brd addr (BitVec.ofNat 8 vs.length)) { u with rx := d } = .next t ∧
        t.out = s.out ++ [.reply d.sender
          (0x02 :: addr :: BitVec.ofNat 8 vs.length :: vs.flatMap fun v => [loByte v, hiByte v])]

/-- R156, R158, R201 (X1): a datagram below its opcode's minimum length is dropped; no response, no register, and the
timestamp is not refreshed. R200, U6: one over RX_MAX is refused. -/
def Obligations.UnacceptableDatagrams : Prop :=
  ∀ (s : State) (d : Datagram) (ds : List Datagram), s.call = none → s.pkt = .idle → s.inbox = d :: ds →
    (s.turn = .pkt ∨ s.turn = .pktEvent) →
    (decodeDatagram s.cfg.rxMax d.bytes = .reject .short →
      step s = .next { s with agenda := s.agenda.tail, inbox := ds, rx := ⟨0, []⟩, tx := [] }) ∧
    (s.cfg.rxMax < d.bytes.length → step s = .refused .datagramTooLong)

/-- R206: a turn of PKT leaves everything that is the TICK agent's alone. -/
def Obligations.PktLeavesTickAlone : Prop :=
  ∀ s t : State, s.call = none → PktOk s.cfg s.pkt → (s.turn = .pkt ∨ s.turn = .pktEvent) → step s = .next t →
    t.bf = s.bf ∧ t.cal = s.cal ∧ t.origin = s.origin ∧ t.fstate = s.fstate ∧ t.ap = s.ap ∧ t.phase = s.phase ∧
    t.deadline = s.deadline ∧ t.lt = s.lt ∧ t.micro = s.micro ∧ t.loc = s.loc ∧ t.dutyOut = s.dutyOut ∧
    t.indicator = s.indicator

/-- R211: a turn of TICK leaves everything that is the PKT agent's alone, the timestamp among it. -/
def Obligations.TickLeavesPktAlone : Prop :=
  ∀ s t : State, s.call = none → (s.turn = .tick ∨ s.turn = .tickEvent) → step s = .next t →
    t.lastRx = s.lastRx ∧ t.rx = s.rx ∧ t.tx = s.tx ∧ t.pkt = s.pkt ∧ t.rxTime = s.rxTime ∧ t.inbox = s.inbox

/-! ### ControlLoopScheduler -/

/-- R171: T1. -/
def Obligations.TickT1 : Prop :=
  ∀ s : State, s.cfg.Ok → Memory.wf s.cfg.n s.regs = true →
    ∃ t u, exec .tickT1 s = .next t ∧
      (let num := s.cfg.num
       let adc := s.env.afterClock.adcValue s.cfg.adcBits
       exec (.mafPut (num.add (num.mul s.cfg.vSlope (num.ofInt adc)) s.cfg.vOffset)) s = .next u ∧
       exec .mafGet u = .next { u with ret := .mean t.lt.vf } ∧
       OnlyWrites s t ((.battRaw, toReg s.cfg (num.ofInt adc)) ::
         (match t.lt.vf with
          | some f => [(.battFiltered, toReg s.cfg (num.mul f s.cfg.battRegScale))]
          | none => [])) ∧
       t = { s with
         regs := t.regs, bf := u.bf, env := s.env.afterClock.afterAdc
         lt := { s.lt with tStart := s.env.clockValue, adc := adc, vf := t.lt.vf }
         phase := .t2, micro := 0, loc := Locals.empty })

/-- R172: T2. -/
def Obligations.TickT2 : Prop :=
  ∀ s : State, ∃ u, exec (.apSetParam (s.x .landingCeiling) (s.x .descendDuration)) s = .next u ∧
    exec .tickT2 s = .next { u with phase := .t3, micro := 0, loc := Locals.empty }

/-- R173: T3; no test while the filter is not ready, and a voltage equal to the threshold does not trigger. -/
def Obligations.TickT3 : Prop :=
  ∀ s : State,
    ((∃ f, s.lt.vf = some f ∧ s.cfg.num.mul f s.cfg.battRegScale < ((s.x .battLowThreshold).toInt : Scalar)) →
      ∃ u, exec (.apEnter s.lt.tStart) s = .next u ∧
        exec .tickT3 s = .next { u with phase := .t4, micro := 0, loc := Locals.empty }) ∧
    ((∀ f, s.lt.vf = some f → ((s.x .battLowThreshold).toInt : Scalar) ≤ s.cfg.num.mul f s.cfg.battRegScale) →
      exec .tickT3 s = .next { s with phase := .t4, micro := 0, loc := Locals.empty })

/-- R174: T4. -/
def Obligations.TickT4 : Prop :=
  ∀ s : State, s.cfg.Ok → Memory.wf s.cfg.n s.regs = true →
    ∃ t, exec .tickT4 s = .next t ∧
      t.ap = { s.ap with active := s.ap.active && (s.x .joyThrottle != 0) } ∧
      OnlyWrites s t [(.battStatus, if t.ap.active then 1 else 0)] ∧
      t = { s with
        regs := t.regs, ap := t.ap, lt := { s.lt with joyThr := s.x .joyThrottle }
        phase := .t5, micro := 0, loc := Locals.empty }

/-- R175: T5; a request restarts the calibration, a completion is reported, every other case does nothing. -/
def Obligations.TickT5 : Prop :=
  ∀ s : State, s.cfg.Ok → Memory.wf s.cfg.n s.regs = true →
    (s.x .calib = 1 → ∃ t u, exec .estStartCal s = .next u ∧ exec .tickT5 s = .next t ∧
      OnlyWrites s t [(.calib, 2)] ∧ t = { u with
        regs := t.regs, indicator := .calibrating, out := s.out ++ [.indicator .calibrating]
        phase := .t6, micro := 0, loc := Locals.empty }) ∧
    (s.x .calib = 2 → s.cal.ready = true → ∃ t, exec .tickT5 s = .next t ∧
      OnlyWrites s t [(.calib, 0)] ∧ t = { s with
        regs := t.regs, indicator := .ready, out := s.out ++ [.indicator .ready]
        phase := .t6, micro := 0, loc := Locals.empty }) ∧
    (s.x .calib ≠ 1 → (s.x .calib ≠ 2 ∨ s.cal.ready = false) →
      exec .tickT5 s = .next { s with phase := .t6, micro := 0, loc := Locals.empty })

/-- R176: T6 is one update of the estimator. -/
def Obligations.TickT6 : Prop :=
  ∀ s : State, ∃ u, exec .estUpdate s = .next u ∧
    exec .tickT6 s = .next { u with phase := .t7, micro := 0, loc := Locals.empty }

/-- R177: T7; the comparison is strict and in the integers. -/
def Obligations.TickT7 : Prop :=
  ∀ s : State, s.cfg.Ok → Memory.wf s.cfg.n s.regs = true →
    ((s.cfg.commTimeout : Int) < (s.lt.tStart : Int) - s.lastRx →
      ∃ t, exec .tickT7 s = .next t ∧ OnlyWrites s t [(.enable, 0)] ∧
        t = { s with regs := t.regs, phase := .t8, micro := 0, loc := Locals.empty }) ∧
    ((s.lt.tStart : Int) - s.lastRx ≤ s.cfg.commTimeout →
      exec .tickT7 s = .next { s with phase := .t8, micro := 0, loc := Locals.empty })

/-- R178: T8; the sums are formed in the integers and saturated, and the targets are those of the registers in radians. -/
def Obligations.TickT8 : Prop :=
  ∀ s : State, s.cfg.Ok → Memory.wf s.cfg.n s.regs = true →
    ∃ (t : State) (tp tr : Word), exec .tickT8 s = .next t ∧
      tp.toInt = max (-32768) (min ((s.x .joyPitch).toInt + (s.x .trimPitch).toInt) 32767) ∧
      tr.toInt = max (-32768) (min ((s.x .joyRoll).toInt + (s.x .trimRoll).toInt) 32767) ∧
      OnlyWrites s t [(.targetYaw, s.x .trimYaw), (.targetPitch, tp), (.targetRoll, tr)] ∧
      t = { s with
        regs := t.regs
        lt := { s.lt with tgt := ⟨s.cfg.num.mul ((s.x .trimYaw).toInt : Scalar) s.cfg.angleUnit,
          s.cfg.num.mul (tp.toInt : Scalar) s.cfg.angleUnit, s.cfg.num.mul (tr.toInt : Scalar) s.cfg.angleUnit⟩ }
        phase := .t9, micro := 0, loc := Locals.empty }

/-- R179: T9; a cleared ENABLE requests no throttle. -/
def Obligations.TickT9 : Prop :=
  ∀ s : State, ∃ thr : Int,
    exec (.apGetThr s.lt.tStart (if s.x .enable = 0 then 0 else s.lt.joyThr.toInt)) s =
      .next { s with ret := .throttle thr } ∧
    exec .tickT9 s = .next { s with
      lt := { s.lt with en := s.x .enable, thr := thr }, phase := .t10, micro := 0, loc := Locals.empty }

/-- R180, R184: T10; the channels are cleared, and only an armed vehicle is stabilised. -/
def Obligations.TickT10 : Prop :=
  ∀ s : State, let cleared := { s with lt := { s.lt with rud := 0, ele := 0, ail := 0 } }
    (s.lt.en ≠ 0 → s.lt.joyThr ≠ 0 → ∃ u, exec (.ctlRun s.lt.sample s.lt.tgt) cleared = .next u ∧
      exec .tickT10 s = .next { u with phase := .t11, micro := 0, loc := Locals.empty }) ∧
    (s.lt.en = 0 ∨ s.lt.joyThr = 0 →
      exec .tickT10 s = .next { cleared with phase := .t11, micro := 0, loc := Locals.empty })

/-- R181, R14: T11; test mode only when all 16 bits of TEST_MODE are 0x00A5. -/
def Obligations.TickT11 : Prop :=
  ∀ s : State, ∃ u,
    exec (if s.x .testMode = 0x00A5 then .mixTest s.lt.en
      else .mixRun s.lt.thr s.lt.rud s.lt.ele s.lt.ail s.lt.vf) s = .next u ∧
    exec .tickT11 s = .next { u with phase := .t12, micro := 0, loc := Locals.empty }

/-- R182: T12; LOOP_TIME saturates, TIME wraps. That the two quotients are exact under every NUM, since times are integers, is
the model's reading (log 2). -/
def Obligations.TickT12 : Prop :=
  ∀ s : State, s.cfg.Ok → Memory.wf s.cfg.n s.regs = true →
    ∃ t, exec .tickT12 s = .next t ∧
      (let tEnd := s.env.clockValue
       (t.x .loopTime).toInt =
         max (-32768) (min ⌊(((tEnd : Int) - (s.lt.tStart : Int) : Int) : Scalar) / s.cfg.loopTimeUnit⌋ 32767) ∧
       (t.x .time).toInt ≡ ⌊(tEnd : Scalar) / s.cfg.timeRegUnit⌋ [ZMOD 65536] ∧
       OnlyWrites s t [(.loopTime, t.x .loopTime), (.time, t.x .time)] ∧
       t = { s with
         regs := t.regs, env := s.env.afterClock, lt := { s.lt with tEnd := tEnd }
         phase := .t13, micro := 0, loc := Locals.empty })

/-- R183: T13; on time it waits to the boundary, late by less than a period it keeps the phase, later it
resynchronises; no register and no output changes. That the latches keep their values into the next tick is the model's
choice (log 11): R25 leaves them unspecified there. -/
def Obligations.TickT13 : Prop :=
  ∀ s : State, ∃ t, exec .tickT13 s = .next t ∧
    (let now := s.env.clockValue
     (now ≤ s.deadline → t.deadline = s.deadline + s.cfg.period ∧ s.deadline ≤ t.env.now) ∧
     (s.deadline < now → now - s.deadline < s.cfg.period →
       t.deadline = s.deadline + s.cfg.period ∧ t.env = s.env.afterClock) ∧
     (s.deadline < now → s.cfg.period ≤ now - s.deadline →
       t.deadline = now + s.cfg.period ∧ t.env = s.env.afterClock) ∧
     t = { s with env := t.env, deadline := t.deadline, phase := .t1, micro := 0, loc := Locals.empty })

/-- R170: each tick step hands over to the next one in the order T1 to T13 and T1, whatever the registers hold, and no
other instruction moves `phase`. -/
def Obligations.PhaseFollowsTheFixedOrder : Prop :=
  (∀ (i : Instr) (s t : State), exec i s = .next t →
    t.phase = match phaseOf i with
      | some p => p.next
      | none => s.phase) ∧
  (∀ p : Phase, phaseOf p.instr = some p ∧ p.next.code.toNat = p.code.toNat % 13 + 1)

/-- R23, R29, R211, R230 as rules about all instructions: the only instructions that can change each unit's state (R211's
`bf`, `cal`, `origin`, `fstate`, `ap`) and the timestamp, and the only ones that set and clear each of R29's flags. -/
def Obligations.UnitsHaveTheirWriters : Prop :=
  ∀ (i : Instr) (s t : State), exec i s = .next t →
    (t.bf ≠ s.bf → i = .mafReset ∨ (∃ v, i = .mafPut v) ∨ i = .tickT1) ∧
    (1 ≤ s.cfg.wBatt → s.bf.count ≠ s.cfg.wBatt → t.bf.count = s.cfg.wBatt → (∃ v, i = .mafPut v) ∨ i = .tickT1) ∧
    (s.bf.count = s.cfg.wBatt → t.bf.count ≠ s.cfg.wBatt → i = .mafReset) ∧
    (t.cal ≠ s.cal → i = .estInit ∨ i = .estStartCal ∨ (i = .tickT5 ∧ s.x .calib = 1) ∨
      ((i = .estUpdate ∨ i = .tickT6) ∧ s.cal.ready = false)) ∧
    (t.fstate ≠ s.fstate → i = .estInit ∨ i = .estUpdate ∨ i = .tickT6) ∧
    (t.origin ≠ s.origin → i = .estInit ∨ ((i = .estUpdate ∨ i = .tickT6) ∧ s.cal.ready = false ∧ t.cal.ready = true)) ∧
    (s.cal.ready = false → t.cal.ready = true → i = .estUpdate ∨ i = .tickT6) ∧
    (s.cal.ready = true → t.cal.ready = false →
      i = .estInit ∨ i = .estStartCal ∨ (i = .tickT5 ∧ s.x .calib = 1)) ∧
    (t.ap.ceiling ≠ s.ap.ceiling ∨ t.ap.descend ≠ s.ap.descend → (∃ c d, i = .apSetParam c d) ∨ i = .tickT2) ∧
    (t.ap.onset ≠ s.ap.onset → (∃ n, i = .apEnter n) ∨ i = .tickT3) ∧
    (s.ap.active = false → t.ap.active = true → (∃ n, i = .apEnter n) ∨ i = .tickT3) ∧
    (s.ap.active = true → t.ap.active = false → i = .apInit ∨ (i = .tickT4 ∧ s.x .joyThrottle = 0)) ∧
    (t.lastRx ≠ s.lastRx → isWireCommand i = true)

/-- R186: what a tick writes; every other slot of the bank, named or not, stays as it is in every tick step. -/
def Obligations.TickWritesOnlyItsRegisters : Prop :=
  ∀ (p : Phase) (s t : State) (j : Nat), exec p.instr s = .next t →
    (∀ r ∈ (match p with
      | .t1 => ([.battRaw, .battFiltered] : List Reg)
      | .t4 => [.battStatus]
      | .t5 => [.calib]
      | .t6 => [.attYaw, .attPitch, .attRoll, .rotX, .rotY, .rotZ, .accX, .accY, .accZ]
      | .t7 => [.enable]
      | .t8 => [.targetYaw, .targetPitch, .targetRoll]
      | .t11 => [.motor0, .motor1, .motor2, .motor3]
      | .t12 => [.loopTime, .time]
      | .t2 | .t3 | .t9 | .t10 | .t13 => []), j ≠ s.cfg.id r) →
    t.regs[j]? = s.regs[j]?

/-- R177 with R179 to R181, R139, R140 and R205 (1): once no datagram has come for longer than the timeout, the tick that
notices it at T7 leaves ENABLE at 0 and all four motors at 0, in normal mode and in test mode. This is of a tick no
datagram disturbs, which in the model is an empty agenda and no delivery (log 7): a WR of ENABLE may fall between T7 and T9
(R50). The premise on the ceiling is R114's, since with a negative one the failsafe may answer a negative throttle (R112
(v), U9), and of NUM it names that zeros stay zeros (R3). -/
def Obligations.TimeoutStopsTheMotors : Prop :=
  ∀ s : State, s.Ok → s.Undisturbed → s.phase = .t7 → s.micro = 0 → 0 ≤ s.ap.ceiling →
    s.cfg.num.KeepsZero → (s.cfg.commTimeout : Int) < (s.lt.tStart : Int) - s.lastRx →
    ∃ t, core.run 5 s = .next t ∧ t.phase = .t12 ∧ t.x .enable = 0 ∧ t.dutyOut = ⟨0, 0, 0, 0⟩

/-! ### The step -/

/-- R200: every instruction completes in every state. -/
def Obligations.EveryInstructionCompletes : Prop :=
  ∀ (i : Instr) (s : State), ∃ t, exec i s = .next t

/-- R150, R170: the instruction an agent fetches is the one that runs: TICK the step `phase` names (whose label of R73
decodes to it), PKT the command its oldest datagram decodes to; and an operation placed in `call` (log 9). -/
def Obligations.StepRunsTheFetchedInstruction : Prop :=
  ∀ s : State,
    (s.call = none → s.turn = .tick → s.micro = 0 →
      step s = exec s.phase.instr { s with agenda := s.agenda.tail } ∧
      decodeCall ⟨0x70#8 + s.phase.code.setWidth 8, []⟩ = .ok s.phase.instr) ∧
    (∀ (d : Datagram) (ds : List Datagram) (i : Instr), s.call = none → s.turn = .pkt → s.pkt = .idle →
      s.inbox = d :: ds → decodeDatagram s.cfg.rxMax d.bytes = .ok i →
      step s = exec i { s with
        agenda := s.agenda.tail, inbox := ds, rx := d, tx := [], pkt := .handling i 0 }) ∧
    (∀ (c : Call) (i : Instr), s.call = some c → decodeCall c = .ok i → step s = exec i { s with call := none })

/-- R200: no step faults. A step is refused only on a datagram over RX_MAX, on which the spec defines nothing (log 14), or on
a call that names no operation, which is the model's own choice and no rule of the spec (log 9). -/
def Obligations.StepStopsOnlyOutsideTheSpec : Prop :=
  ∀ s : State,
    (∀ r, step s ≠ .fault r) ∧
    (∀ r, step s = .refused r →
      (r = .badCall ∧ ∃ c e, s.call = some c ∧ decodeCall c = .reject e) ∨
      (r = .datagramTooLong ∧ ∃ d ds, s.inbox = d :: ds ∧ s.cfg.rxMax < d.bytes.length))

/-- R52, R170: a tick step performed one event at a time, with no event of PKT between, is the step performed whole. The
agenda (log 7) and the list of a step's events (log 8) are the model's. -/
def Obligations.StepIsTheSumOfItsEvents : Prop :=
  ∀ (s : State) (rest : List Turn), s.call = none → s.micro = 0 →
    s.agenda = List.replicate (tickEvents s.phase).length .tickEvent ++ rest →
    core.run (tickEvents s.phase).length s = exec s.phase.instr { s with agenda := rest }

/-- R52, R150: a command taken up and performed one event at a time, with no event of TICK between, is the command
performed whole. The agenda (log 7) and the list of a command's events (log 8) are the model's. -/
def Obligations.CommandIsTheSumOfItsEvents : Prop :=
  ∀ (s : State) (d : Datagram) (ds : List Datagram) (i : Instr) (rest : List Turn), s.call = none → s.pkt = .idle →
    s.inbox = d :: ds → decodeDatagram s.cfg.rxMax d.bytes = .ok i →
    s.agenda = List.replicate ((pktEvents s.cfg i).length + 1) .pktEvent ++ rest →
    core.run ((pktEvents s.cfg i).length + 1) s =
      exec i { s with agenda := rest, inbox := ds, rx := d, tx := [], pkt := .handling i 0 }

/-- R50, R51 (iii), and program P7 of 95: while a BWR of the six gain registers and the six gain reads of T10 are both in
progress, every one of the 64 old-or-new patterns can be read. That both are about to begin is said by the model's event
counts, two events of the BWR and one of T10 done (log 8), and the choice among the patterns by its agenda (log 7). -/
def Obligations.EveryTornPatternOfGainsCanBeRead : Prop :=
  ∀ (s : State) (addr : Byte) (vs : List Word) (new : Fin 6 → Bool), s.Ok → s.call = none → s.phase = .t10 →
    s.micro = 1 → s.armed = true → vs.length = 6 → s.pkt = .handling (.bwr addr vs) 2 →
    (∀ k : Fin 6, (gainRegs[k.val]?).map s.cfg.id = some (addr.toNat + k.val)) →
    ∃ (plan : List Turn) (t : State), core.run plan.length { s with agenda := plan } = .next t ∧
      ∀ k : Fin 6,
        [t.loc.gains.pYaw, t.loc.gains.pPitch, t.loc.gains.pRoll,
          t.loc.gains.dYaw, t.loc.gains.dPitch, t.loc.gains.dRoll][k.val]? =
        if new k then vs[k.val]? else (gainRegs[k.val]?).map s.x

/-! ### Invariants -/

/-- R10, R21, R22, R25, R27, R83, R94: every step keeps the bank's slots, the filter's count and under exact NUM its sum, the
calibration count, the 10-bit duties, and the progress of both agents within bounds. -/
def Obligations.StepKeepsTheInvariant : Prop :=
  ∀ s t : State, s.Ok → step s = .next t → t.Ok

/-- R6, R112 (vi): no step runs the clock back, no recorded time is ahead of it, and the failsafe's onset is never after
the tick's start. -/
def Obligations.StepKeepsTheOrderOfTimes : Prop :=
  ∀ s t : State, s.TimesOk → PktOk s.cfg s.pkt → step s = .next t → t.TimesOk ∧ s.env.now ≤ t.env.now

/-- R28, R56: no step changes the configuration, and the outputs so far are never revised: new ones come after them. -/
def Obligations.StepKeepsConfigurationAndOutputs : Prop :=
  ∀ s t : State, step s = .next t → t.cfg = s.cfg ∧ s.out <+: t.out
end

