-- ==== Sys2Proof/Laws/State.lean ====
section
/-! SUPPORT. One lemma per field per shared update of State, so that no proof unfolds a record update. -/

namespace Sys2Proof.Machine

variable (s : State)

@[simp] theorem State.setSlot_cfg (i : Nat) (v : Word) : (s.setSlot i v).cfg = s.cfg := rfl
@[simp] theorem State.setSlot_regs (i : Nat) (v : Word) : (s.setSlot i v).regs = s.regs.set i v := rfl
@[simp] theorem State.setSlot_bf (i : Nat) (v : Word) : (s.setSlot i v).bf = s.bf := rfl
@[simp] theorem State.setSlot_cal (i : Nat) (v : Word) : (s.setSlot i v).cal = s.cal := rfl
@[simp] theorem State.setSlot_origin (i : Nat) (v : Word) : (s.setSlot i v).origin = s.origin := rfl
@[simp] theorem State.setSlot_fstate (i : Nat) (v : Word) : (s.setSlot i v).fstate = s.fstate := rfl
@[simp] theorem State.setSlot_ap (i : Nat) (v : Word) : (s.setSlot i v).ap = s.ap := rfl
@[simp] theorem State.setSlot_phase (i : Nat) (v : Word) : (s.setSlot i v).phase = s.phase := rfl
@[simp] theorem State.setSlot_deadline (i : Nat) (v : Word) : (s.setSlot i v).deadline = s.deadline := rfl
@[simp] theorem State.setSlot_lt (i : Nat) (v : Word) : (s.setSlot i v).lt = s.lt := rfl
@[simp] theorem State.setSlot_lastRx (i : Nat) (v : Word) : (s.setSlot i v).lastRx = s.lastRx := rfl
@[simp] theorem State.setSlot_rx (i : Nat) (v : Word) : (s.setSlot i v).rx = s.rx := rfl
@[simp] theorem State.setSlot_tx (i : Nat) (v : Word) : (s.setSlot i v).tx = s.tx := rfl
@[simp] theorem State.setSlot_dutyOut (i : Nat) (v : Word) : (s.setSlot i v).dutyOut = s.dutyOut := rfl
@[simp] theorem State.setSlot_indicator (i : Nat) (v : Word) : (s.setSlot i v).indicator = s.indicator := rfl
@[simp] theorem State.setSlot_micro (i : Nat) (v : Word) : (s.setSlot i v).micro = s.micro := rfl
@[simp] theorem State.setSlot_loc (i : Nat) (v : Word) : (s.setSlot i v).loc = s.loc := rfl
@[simp] theorem State.setSlot_pkt (i : Nat) (v : Word) : (s.setSlot i v).pkt = s.pkt := rfl
@[simp] theorem State.setSlot_rxTime (i : Nat) (v : Word) : (s.setSlot i v).rxTime = s.rxTime := rfl
@[simp] theorem State.setSlot_env (i : Nat) (v : Word) : (s.setSlot i v).env = s.env := rfl
@[simp] theorem State.setSlot_inbox (i : Nat) (v : Word) : (s.setSlot i v).inbox = s.inbox := rfl
@[simp] theorem State.setSlot_agenda (i : Nat) (v : Word) : (s.setSlot i v).agenda = s.agenda := rfl
@[simp] theorem State.setSlot_out (i : Nat) (v : Word) : (s.setSlot i v).out = s.out := rfl
@[simp] theorem State.setSlot_ret (i : Nat) (v : Word) : (s.setSlot i v).ret = s.ret := rfl
@[simp] theorem State.setSlot_call (i : Nat) (v : Word) : (s.setSlot i v).call = s.call := rfl

@[simp] theorem State.setX_cfg (r : Reg) (v : Word) : (s.setX r v).cfg = s.cfg := rfl
@[simp] theorem State.setX_regs (r : Reg) (v : Word) : (s.setX r v).regs = s.regs.set (s.cfg.id r) v := rfl
@[simp] theorem State.setX_bf (r : Reg) (v : Word) : (s.setX r v).bf = s.bf := rfl
@[simp] theorem State.setX_cal (r : Reg) (v : Word) : (s.setX r v).cal = s.cal := rfl
@[simp] theorem State.setX_origin (r : Reg) (v : Word) : (s.setX r v).origin = s.origin := rfl
@[simp] theorem State.setX_fstate (r : Reg) (v : Word) : (s.setX r v).fstate = s.fstate := rfl
@[simp] theorem State.setX_ap (r : Reg) (v : Word) : (s.setX r v).ap = s.ap := rfl
@[simp] theorem State.setX_phase (r : Reg) (v : Word) : (s.setX r v).phase = s.phase := rfl
@[simp] theorem State.setX_deadline (r : Reg) (v : Word) : (s.setX r v).deadline = s.deadline := rfl
@[simp] theorem State.setX_lt (r : Reg) (v : Word) : (s.setX r v).lt = s.lt := rfl
@[simp] theorem State.setX_lastRx (r : Reg) (v : Word) : (s.setX r v).lastRx = s.lastRx := rfl
@[simp] theorem State.setX_rx (r : Reg) (v : Word) : (s.setX r v).rx = s.rx := rfl
@[simp] theorem State.setX_tx (r : Reg) (v : Word) : (s.setX r v).tx = s.tx := rfl
@[simp] theorem State.setX_dutyOut (r : Reg) (v : Word) : (s.setX r v).dutyOut = s.dutyOut := rfl
@[simp] theorem State.setX_indicator (r : Reg) (v : Word) : (s.setX r v).indicator = s.indicator := rfl
@[simp] theorem State.setX_micro (r : Reg) (v : Word) : (s.setX r v).micro = s.micro := rfl
@[simp] theorem State.setX_loc (r : Reg) (v : Word) : (s.setX r v).loc = s.loc := rfl
@[simp] theorem State.setX_pkt (r : Reg) (v : Word) : (s.setX r v).pkt = s.pkt := rfl
@[simp] theorem State.setX_rxTime (r : Reg) (v : Word) : (s.setX r v).rxTime = s.rxTime := rfl
@[simp] theorem State.setX_env (r : Reg) (v : Word) : (s.setX r v).env = s.env := rfl
@[simp] theorem State.setX_inbox (r : Reg) (v : Word) : (s.setX r v).inbox = s.inbox := rfl
@[simp] theorem State.setX_agenda (r : Reg) (v : Word) : (s.setX r v).agenda = s.agenda := rfl
@[simp] theorem State.setX_out (r : Reg) (v : Word) : (s.setX r v).out = s.out := rfl
@[simp] theorem State.setX_ret (r : Reg) (v : Word) : (s.setX r v).ret = s.ret := rfl
@[simp] theorem State.setX_call (r : Reg) (v : Word) : (s.setX r v).call = s.call := rfl

@[simp] theorem State.emit_cfg (o : Output) : (s.emit o).cfg = s.cfg := rfl
@[simp] theorem State.emit_regs (o : Output) : (s.emit o).regs = s.regs := rfl
@[simp] theorem State.emit_bf (o : Output) : (s.emit o).bf = s.bf := rfl
@[simp] theorem State.emit_cal (o : Output) : (s.emit o).cal = s.cal := rfl
@[simp] theorem State.emit_origin (o : Output) : (s.emit o).origin = s.origin := rfl
@[simp] theorem State.emit_fstate (o : Output) : (s.emit o).fstate = s.fstate := rfl
@[simp] theorem State.emit_ap (o : Output) : (s.emit o).ap = s.ap := rfl
@[simp] theorem State.emit_phase (o : Output) : (s.emit o).phase = s.phase := rfl
@[simp] theorem State.emit_deadline (o : Output) : (s.emit o).deadline = s.deadline := rfl
@[simp] theorem State.emit_lt (o : Output) : (s.emit o).lt = s.lt := rfl
@[simp] theorem State.emit_lastRx (o : Output) : (s.emit o).lastRx = s.lastRx := rfl
@[simp] theorem State.emit_rx (o : Output) : (s.emit o).rx = s.rx := rfl
@[simp] theorem State.emit_tx (o : Output) : (s.emit o).tx = s.tx := rfl
@[simp] theorem State.emit_dutyOut (o : Output) : (s.emit o).dutyOut = s.dutyOut := rfl
@[simp] theorem State.emit_indicator (o : Output) : (s.emit o).indicator = s.indicator := rfl
@[simp] theorem State.emit_micro (o : Output) : (s.emit o).micro = s.micro := rfl
@[simp] theorem State.emit_loc (o : Output) : (s.emit o).loc = s.loc := rfl
@[simp] theorem State.emit_pkt (o : Output) : (s.emit o).pkt = s.pkt := rfl
@[simp] theorem State.emit_rxTime (o : Output) : (s.emit o).rxTime = s.rxTime := rfl
@[simp] theorem State.emit_env (o : Output) : (s.emit o).env = s.env := rfl
@[simp] theorem State.emit_inbox (o : Output) : (s.emit o).inbox = s.inbox := rfl
@[simp] theorem State.emit_agenda (o : Output) : (s.emit o).agenda = s.agenda := rfl
@[simp] theorem State.emit_out (o : Output) : (s.emit o).out = s.out ++ [o] := rfl
@[simp] theorem State.emit_ret (o : Output) : (s.emit o).ret = s.ret := rfl
@[simp] theorem State.emit_call (o : Output) : (s.emit o).call = s.call := rfl

@[simp] theorem State.outputDuty_cfg (i : Fin 4) (d : Nat) : (s.outputDuty i d).cfg = s.cfg := rfl
@[simp] theorem State.outputDuty_regs (i : Fin 4) (d : Nat) : (s.outputDuty i d).regs = s.regs := rfl
@[simp] theorem State.outputDuty_bf (i : Fin 4) (d : Nat) : (s.outputDuty i d).bf = s.bf := rfl
@[simp] theorem State.outputDuty_cal (i : Fin 4) (d : Nat) : (s.outputDuty i d).cal = s.cal := rfl
@[simp] theorem State.outputDuty_origin (i : Fin 4) (d : Nat) : (s.outputDuty i d).origin = s.origin := rfl
@[simp] theorem State.outputDuty_fstate (i : Fin 4) (d : Nat) : (s.outputDuty i d).fstate = s.fstate := rfl
@[simp] theorem State.outputDuty_ap (i : Fin 4) (d : Nat) : (s.outputDuty i d).ap = s.ap := rfl
@[simp] theorem State.outputDuty_phase (i : Fin 4) (d : Nat) : (s.outputDuty i d).phase = s.phase := rfl
@[simp] theorem State.outputDuty_deadline (i : Fin 4) (d : Nat) : (s.outputDuty i d).deadline = s.deadline := rfl
@[simp] theorem State.outputDuty_lt (i : Fin 4) (d : Nat) : (s.outputDuty i d).lt = s.lt := rfl
@[simp] theorem State.outputDuty_lastRx (i : Fin 4) (d : Nat) : (s.outputDuty i d).lastRx = s.lastRx := rfl
@[simp] theorem State.outputDuty_rx (i : Fin 4) (d : Nat) : (s.outputDuty i d).rx = s.rx := rfl
@[simp] theorem State.outputDuty_tx (i : Fin 4) (d : Nat) : (s.outputDuty i d).tx = s.tx := rfl
@[simp] theorem State.outputDuty_dutyOut (i : Fin 4) (d : Nat) : (s.outputDuty i d).dutyOut = s.dutyOut.set i d := rfl
@[simp] theorem State.outputDuty_indicator (i : Fin 4) (d : Nat) : (s.outputDuty i d).indicator = s.indicator := rfl
@[simp] theorem State.outputDuty_micro (i : Fin 4) (d : Nat) : (s.outputDuty i d).micro = s.micro := rfl
@[simp] theorem State.outputDuty_loc (i : Fin 4) (d : Nat) : (s.outputDuty i d).loc = s.loc := rfl
@[simp] theorem State.outputDuty_pkt (i : Fin 4) (d : Nat) : (s.outputDuty i d).pkt = s.pkt := rfl
@[simp] theorem State.outputDuty_rxTime (i : Fin 4) (d : Nat) : (s.outputDuty i d).rxTime = s.rxTime := rfl
@[simp] theorem State.outputDuty_env (i : Fin 4) (d : Nat) : (s.outputDuty i d).env = s.env := rfl
@[simp] theorem State.outputDuty_inbox (i : Fin 4) (d : Nat) : (s.outputDuty i d).inbox = s.inbox := rfl
@[simp] theorem State.outputDuty_agenda (i : Fin 4) (d : Nat) : (s.outputDuty i d).agenda = s.agenda := rfl
@[simp] theorem State.outputDuty_out (i : Fin 4) (d : Nat) : (s.outputDuty i d).out = s.out ++ [.duty i d] := rfl
@[simp] theorem State.outputDuty_ret (i : Fin 4) (d : Nat) : (s.outputDuty i d).ret = s.ret := rfl
@[simp] theorem State.outputDuty_call (i : Fin 4) (d : Nat) : (s.outputDuty i d).call = s.call := rfl

@[simp] theorem State.setIndicator_cfg (v : Indicator) : (s.setIndicator v).cfg = s.cfg := rfl
@[simp] theorem State.setIndicator_regs (v : Indicator) : (s.setIndicator v).regs = s.regs := rfl
@[simp] theorem State.setIndicator_bf (v : Indicator) : (s.setIndicator v).bf = s.bf := rfl
@[simp] theorem State.setIndicator_cal (v : Indicator) : (s.setIndicator v).cal = s.cal := rfl
@[simp] theorem State.setIndicator_origin (v : Indicator) : (s.setIndicator v).origin = s.origin := rfl
@[simp] theorem State.setIndicator_fstate (v : Indicator) : (s.setIndicator v).fstate = s.fstate := rfl
@[simp] theorem State.setIndicator_ap (v : Indicator) : (s.setIndicator v).ap = s.ap := rfl
@[simp] theorem State.setIndicator_phase (v : Indicator) : (s.setIndicator v).phase = s.phase := rfl
@[simp] theorem State.setIndicator_deadline (v : Indicator) : (s.setIndicator v).deadline = s.deadline := rfl
@[simp] theorem State.setIndicator_lt (v : Indicator) : (s.setIndicator v).lt = s.lt := rfl
@[simp] theorem State.setIndicator_lastRx (v : Indicator) : (s.setIndicator v).lastRx = s.lastRx := rfl
@[simp] theorem State.setIndicator_rx (v : Indicator) : (s.setIndicator v).rx = s.rx := rfl
@[simp] theorem State.setIndicator_tx (v : Indicator) : (s.setIndicator v).tx = s.tx := rfl
@[simp] theorem State.setIndicator_dutyOut (v : Indicator) : (s.setIndicator v).dutyOut = s.dutyOut := rfl
@[simp] theorem State.setIndicator_indicator (v : Indicator) : (s.setIndicator v).indicator = v := rfl
@[simp] theorem State.setIndicator_micro (v : Indicator) : (s.setIndicator v).micro = s.micro := rfl
@[simp] theorem State.setIndicator_loc (v : Indicator) : (s.setIndicator v).loc = s.loc := rfl
@[simp] theorem State.setIndicator_pkt (v : Indicator) : (s.setIndicator v).pkt = s.pkt := rfl
@[simp] theorem State.setIndicator_rxTime (v : Indicator) : (s.setIndicator v).rxTime = s.rxTime := rfl
@[simp] theorem State.setIndicator_env (v : Indicator) : (s.setIndicator v).env = s.env := rfl
@[simp] theorem State.setIndicator_inbox (v : Indicator) : (s.setIndicator v).inbox = s.inbox := rfl
@[simp] theorem State.setIndicator_agenda (v : Indicator) : (s.setIndicator v).agenda = s.agenda := rfl
@[simp] theorem State.setIndicator_out (v : Indicator) : (s.setIndicator v).out = s.out ++ [.indicator v] := rfl
@[simp] theorem State.setIndicator_ret (v : Indicator) : (s.setIndicator v).ret = s.ret := rfl
@[simp] theorem State.setIndicator_call (v : Indicator) : (s.setIndicator v).call = s.call := rfl

@[simp] theorem State.endHandling_cfg : s.endHandling.cfg = s.cfg := rfl
@[simp] theorem State.endHandling_regs : s.endHandling.regs = s.regs := rfl
@[simp] theorem State.endHandling_bf : s.endHandling.bf = s.bf := rfl
@[simp] theorem State.endHandling_cal : s.endHandling.cal = s.cal := rfl
@[simp] theorem State.endHandling_origin : s.endHandling.origin = s.origin := rfl
@[simp] theorem State.endHandling_fstate : s.endHandling.fstate = s.fstate := rfl
@[simp] theorem State.endHandling_ap : s.endHandling.ap = s.ap := rfl
@[simp] theorem State.endHandling_phase : s.endHandling.phase = s.phase := rfl
@[simp] theorem State.endHandling_deadline : s.endHandling.deadline = s.deadline := rfl
@[simp] theorem State.endHandling_lt : s.endHandling.lt = s.lt := rfl
@[simp] theorem State.endHandling_lastRx : s.endHandling.lastRx = s.lastRx := rfl
@[simp] theorem State.endHandling_rx : s.endHandling.rx = ⟨0, []⟩ := rfl
@[simp] theorem State.endHandling_tx : s.endHandling.tx = [] := rfl
@[simp] theorem State.endHandling_dutyOut : s.endHandling.dutyOut = s.dutyOut := rfl
@[simp] theorem State.endHandling_indicator : s.endHandling.indicator = s.indicator := rfl
@[simp] theorem State.endHandling_micro : s.endHandling.micro = s.micro := rfl
@[simp] theorem State.endHandling_loc : s.endHandling.loc = s.loc := rfl
@[simp] theorem State.endHandling_pkt : s.endHandling.pkt = .idle := rfl
@[simp] theorem State.endHandling_rxTime : s.endHandling.rxTime = s.rxTime := rfl
@[simp] theorem State.endHandling_env : s.endHandling.env = s.env := rfl
@[simp] theorem State.endHandling_inbox : s.endHandling.inbox = s.inbox := rfl
@[simp] theorem State.endHandling_agenda : s.endHandling.agenda = s.agenda := rfl
@[simp] theorem State.endHandling_out : s.endHandling.out = s.out := rfl
@[simp] theorem State.endHandling_ret : s.endHandling.ret = s.ret := rfl
@[simp] theorem State.endHandling_call : s.endHandling.call = s.call := rfl

@[simp] theorem State.endStep_cfg (p : Phase) : (s.endStep p).cfg = s.cfg := rfl
@[simp] theorem State.endStep_regs (p : Phase) : (s.endStep p).regs = s.regs := rfl
@[simp] theorem State.endStep_bf (p : Phase) : (s.endStep p).bf = s.bf := rfl
@[simp] theorem State.endStep_cal (p : Phase) : (s.endStep p).cal = s.cal := rfl
@[simp] theorem State.endStep_origin (p : Phase) : (s.endStep p).origin = s.origin := rfl
@[simp] theorem State.endStep_fstate (p : Phase) : (s.endStep p).fstate = s.fstate := rfl
@[simp] theorem State.endStep_ap (p : Phase) : (s.endStep p).ap = s.ap := rfl
@[simp] theorem State.endStep_phase (p : Phase) : (s.endStep p).phase = p.next := rfl
@[simp] theorem State.endStep_deadline (p : Phase) : (s.endStep p).deadline = s.deadline := rfl
@[simp] theorem State.endStep_lt (p : Phase) : (s.endStep p).lt = s.lt := rfl
@[simp] theorem State.endStep_lastRx (p : Phase) : (s.endStep p).lastRx = s.lastRx := rfl
@[simp] theorem State.endStep_rx (p : Phase) : (s.endStep p).rx = s.rx := rfl
@[simp] theorem State.endStep_tx (p : Phase) : (s.endStep p).tx = s.tx := rfl
@[simp] theorem State.endStep_dutyOut (p : Phase) : (s.endStep p).dutyOut = s.dutyOut := rfl
@[simp] theorem State.endStep_indicator (p : Phase) : (s.endStep p).indicator = s.indicator := rfl
@[simp] theorem State.endStep_micro (p : Phase) : (s.endStep p).micro = 0 := rfl
@[simp] theorem State.endStep_loc (p : Phase) : (s.endStep p).loc = Locals.empty := rfl
@[simp] theorem State.endStep_pkt (p : Phase) : (s.endStep p).pkt = s.pkt := rfl
@[simp] theorem State.endStep_rxTime (p : Phase) : (s.endStep p).rxTime = s.rxTime := rfl
@[simp] theorem State.endStep_env (p : Phase) : (s.endStep p).env = s.env := rfl
@[simp] theorem State.endStep_inbox (p : Phase) : (s.endStep p).inbox = s.inbox := rfl
@[simp] theorem State.endStep_agenda (p : Phase) : (s.endStep p).agenda = s.agenda := rfl
@[simp] theorem State.endStep_out (p : Phase) : (s.endStep p).out = s.out := rfl
@[simp] theorem State.endStep_ret (p : Phase) : (s.endStep p).ret = s.ret := rfl
@[simp] theorem State.endStep_call (p : Phase) : (s.endStep p).call = s.call := rfl

@[simp] theorem State.afterTurn_cfg : s.afterTurn.cfg = s.cfg := rfl
@[simp] theorem State.afterTurn_regs : s.afterTurn.regs = s.regs := rfl
@[simp] theorem State.afterTurn_bf : s.afterTurn.bf = s.bf := rfl
@[simp] theorem State.afterTurn_cal : s.afterTurn.cal = s.cal := rfl
@[simp] theorem State.afterTurn_origin : s.afterTurn.origin = s.origin := rfl
@[simp] theorem State.afterTurn_fstate : s.afterTurn.fstate = s.fstate := rfl
@[simp] theorem State.afterTurn_ap : s.afterTurn.ap = s.ap := rfl
@[simp] theorem State.afterTurn_phase : s.afterTurn.phase = s.phase := rfl
@[simp] theorem State.afterTurn_deadline : s.afterTurn.deadline = s.deadline := rfl
@[simp] theorem State.afterTurn_lt : s.afterTurn.lt = s.lt := rfl
@[simp] theorem State.afterTurn_lastRx : s.afterTurn.lastRx = s.lastRx := rfl
@[simp] theorem State.afterTurn_rx : s.afterTurn.rx = s.rx := rfl
@[simp] theorem State.afterTurn_tx : s.afterTurn.tx = s.tx := rfl
@[simp] theorem State.afterTurn_dutyOut : s.afterTurn.dutyOut = s.dutyOut := rfl
@[simp] theorem State.afterTurn_indicator : s.afterTurn.indicator = s.indicator := rfl
@[simp] theorem State.afterTurn_micro : s.afterTurn.micro = s.micro := rfl
@[simp] theorem State.afterTurn_loc : s.afterTurn.loc = s.loc := rfl
@[simp] theorem State.afterTurn_pkt : s.afterTurn.pkt = s.pkt := rfl
@[simp] theorem State.afterTurn_rxTime : s.afterTurn.rxTime = s.rxTime := rfl
@[simp] theorem State.afterTurn_env : s.afterTurn.env = s.env := rfl
@[simp] theorem State.afterTurn_inbox : s.afterTurn.inbox = s.inbox := rfl
@[simp] theorem State.afterTurn_agenda : s.afterTurn.agenda = s.agenda.tail := rfl
@[simp] theorem State.afterTurn_out : s.afterTurn.out = s.out := rfl
@[simp] theorem State.afterTurn_ret : s.afterTurn.ret = s.ret := rfl
@[simp] theorem State.afterTurn_call : s.afterTurn.call = s.call := rfl

/-! The draws: every draw moves its own port and the counter of free readings, and `now` only forward. -/

@[simp] theorem Env.afterClock_now (e : Env) : e.afterClock.now = e.clockValue := rfl

@[simp] theorem Env.afterAdc_now (e : Env) : e.afterAdc.now = e.now := rfl

@[simp] theorem Env.afterGyro_now (e : Env) : e.afterGyro.now = e.now := rfl

@[simp] theorem Env.afterAccel_now (e : Env) : e.afterAccel.now = e.now := rfl

@[simp] theorem Env.afterGyro_accel (e : Env) : e.afterGyro.accel = e.accel := rfl

@[simp] theorem Env.afterGyro_gyro (e : Env) : e.afterGyro.gyro = e.gyro.tail := rfl

@[simp] theorem Env.afterAccel_gyro (e : Env) : e.afterAccel.gyro = e.gyro := rfl

/-- A draw of the clock is never below the last one (R6). -/
theorem Env.now_le_clockValue (e : Env) : e.now ≤ e.clockValue := by
  unfold Env.clockValue
  split
  · exact Nat.le_max_left _ _
  · exact Nat.le_add_right _ _

/-- The polls of a wait end at a stored reading not before the deadline and not before the last draw. -/
theorem pollStored_spec {deadline now t : Nat} {ts rest : List Nat}
    (h : pollStored deadline now ts = some (t, rest)) : deadline ≤ t ∧ now ≤ t := by
  induction ts generalizing now with
  | nil => simp [pollStored] at h
  | cons a as ih =>
    unfold pollStored at h
    split at h
    · next hd =>
      obtain ⟨rfl, rfl⟩ : max now a = t ∧ as = rest := by simpa using h
      exact ⟨hd, Nat.le_max_left _ _⟩
    · exact ⟨(ih h).1, le_trans (Nat.le_max_left _ _) (ih h).2⟩

/-- The wait of T13 ends at or after the deadline and never before the last draw (R183, R6). -/
theorem Env.waitUntil_now (e : Env) (deadline : Nat) :
    deadline ≤ (e.waitUntil deadline).now ∧ e.now ≤ (e.waitUntil deadline).now := by
  unfold Env.waitUntil
  split
  · next h => exact pollStored_spec h
  · have hf : ∀ (l : List Nat) (a : Nat), a ≤ l.foldl max a := by
      intro l
      induction l with
      | nil => intro a; exact le_rfl
      | cons b l ih => intro a; exact le_trans (Nat.le_max_left _ _) (ih _)
    have := hf e.clock e.now
    constructor <;> simp only <;> omega

/-! The bundles of four. -/

@[simp] theorem Quad.get_set {α : Type} (q : Quad α) (i j : Fin 4) (a : α) :
    (q.set i a).get j = if i = j then a else q.get j := by
  fin_cases i <;> fin_cases j <;> rfl

/-- Two bundles with the same entries are equal. -/
theorem Quad.ext_get {α : Type} {p q : Quad α} (h : ∀ i, p.get i = q.get i) : p = q := by
  have h0 := h 0
  have h1 := h 1
  have h2 := h 2
  have h3 := h 3
  cases p
  cases q
  simp_all [Quad.get]

end Sys2Proof.Machine
end

