-- ==== Sys2Proof/Laws/Bank.lean ====
section
/-! SUPPORT. The register bank: a read after a write, the canonical form, the distinct IDs of the registers, and how the
writes of a step add up to OnlyWrites. -/

namespace Sys2Proof.Machine

/-! ### The IDs of the registers -/

theorem Reg.idx_lt (r : Reg) : r.idx < 40 := by cases r <;> decide

theorem Reg.idx_injective {r q : Reg} (h : r.idx = q.idx) : r = q := by
  cases r <;> cases q <;> first | rfl | (exact absurd h (by decide))

/-- The ID of a register is an entry of `rid`. -/
theorem id_eq_getElem {c : Cfg} (hc : c.Ok) (r : Reg) :
    c.id r = c.rid[r.idx]'(by rw [hc.rid_length]; exact Reg.idx_lt r) := by
  unfold Cfg.id
  rw [List.getD_eq_getElem]

/-- A named register is in range (R2). -/
theorem id_lt {c : Cfg} (hc : c.Ok) (r : Reg) : c.id r < c.n := by
  rw [id_eq_getElem hc]
  exact hc.rid_range _ (List.getElem_mem _)

/-- IDs are unique (R2). -/
theorem id_injective {c : Cfg} (hc : c.Ok) {r q : Reg} (h : c.id r = c.id q) : r = q := by
  rw [id_eq_getElem hc, id_eq_getElem hc] at h
  exact Reg.idx_injective ((List.Nodup.getElem_inj_iff hc.rid_nodup).mp h)

theorem id_inj {c : Cfg} (hc : c.Ok) (r q : Reg) : c.id r = c.id q ↔ r = q :=
  ⟨id_injective hc, fun h => h ▸ rfl⟩

/-! ### Reads after writes -/

/-- The bank has `n` slots. -/
theorem memory_length {s : State} (hm : Memory.wf s.cfg.n s.regs = true) : s.regs.length = s.cfg.n := by
  simpa [Memory.wf] using hm

theorem slot_setSlot_self (s : State) {i : Nat} (v : Word) (hi : i < s.regs.length) :
    (s.setSlot i v).slot i = v := by
  simp [State.slot, State.setSlot, List.getD_eq_getElem?_getD, hi]

theorem slot_setSlot_ne (s : State) {i j : Nat} (v : Word) (h : i ≠ j) : (s.setSlot i v).slot j = s.slot j := by
  simp [State.slot, State.setSlot, List.getD_eq_getElem?_getD, h]

/-- A read of a named register after a write of one (R41, R42). -/
theorem x_setX {s : State} (hc : s.cfg.Ok) (hm : Memory.wf s.cfg.n s.regs = true) (r q : Reg) (v : Word) :
    (s.setX r v).x q = if r = q then v else s.x q := by
  have hlen := memory_length hm
  by_cases h : r = q
  · subst h
    simp only [if_true]
    exact slot_setSlot_self s v (by rw [hlen]; exact id_lt hc r)
  · simp only [h, if_false]
    exact slot_setSlot_ne s v (fun e => h (id_injective hc e))

/-- A slot outside the bank reads as zero, so two banks of one length with equal slots are equal. -/
theorem slot_getElem? {s : State} {i : Nat} (hi : i < s.regs.length) : s.regs[i]? = some (s.slot i) := by
  simp [State.slot, List.getD_eq_getElem?_getD, hi]

/-! ### The canonical form -/

theorem setSlot_keeps_wf {s : State} (i : Nat) (v : Word) (hm : Memory.wf s.cfg.n s.regs = true) :
    Memory.wf (s.setSlot i v).cfg.n (s.setSlot i v).regs = true := by
  simpa [Memory.wf] using hm

theorem setX_keeps_wf {s : State} (r : Reg) (v : Word) (hm : Memory.wf s.cfg.n s.regs = true) :
    Memory.wf (s.setX r v).cfg.n (s.setX r v).regs = true := by
  simpa [Memory.wf] using hm

theorem regWrite_keeps_wf {s : State} (i : Int) (v : Word) (hm : Memory.wf s.cfg.n s.regs = true) :
    Memory.wf (regWrite s i v).cfg.n (regWrite s i v).regs = true := by
  unfold regWrite
  by_cases h : 0 ≤ i ∧ i < s.cfg.n <;> simpa [Memory.wf, h] using hm

/-- The bank is in its form after every reset (R30, R10). -/
theorem resetOf_memory_wf {cfg : Cfg} (h : cfg.Ok) (t : Nat) :
    Memory.wf (State.resetOf cfg t).cfg.n (State.resetOf cfg t).regs = true := by
  simpa [Memory.wf, State.resetOf] using h.init_length

theorem reset_memory_wf : Memory.wf State.reset.cfg.n State.reset.regs = true := by decide

/-! ### What a step writes -/

/-- Nothing is written where the bank stays. -/
theorem onlyWrites_nil {s t : State} (hr : t.regs = s.regs) : OnlyWrites s t [] := by
  refine ⟨by rw [hr], by simp, fun j _ => ?_⟩
  simp [State.slot, hr]

/-- One more register is written, none of those before it. -/
theorem onlyWrites_setX {s t : State} {ws : List (Reg × Word)} (hc : s.cfg.Ok)
    (hm : Memory.wf s.cfg.n s.regs = true) (h : OnlyWrites s t ws) (hcfg : t.cfg = s.cfg) (r : Reg) (v : Word)
    (hr : ∀ w ∈ ws, w.1 ≠ r) : OnlyWrites s (t.setX r v) (ws ++ [(r, v)]) := by
  obtain ⟨hl, hv, hf⟩ := h
  have hct : t.cfg.Ok := hcfg ▸ hc
  have hmt : Memory.wf t.cfg.n t.regs = true := by
    have := memory_length hm
    simp [Memory.wf, hcfg, hl, this]
  refine ⟨by simp [hl], ?_, ?_⟩
  · intro w hw
    rw [x_setX hct hmt]
    rcases List.mem_append.mp hw with hw | hw
    · rw [if_neg (fun e => hr w hw e.symm)]
      exact hv w hw
    · obtain rfl : w = (r, v) := by simpa using hw
      simp
  · intro j hj
    have hne : s.cfg.id r ≠ j := fun e => hj (r, v) (by simp) e.symm
    have : (t.setX r v).slot j = t.slot j := by
      unfold State.setX
      rw [hcfg]
      exact slot_setSlot_ne t v hne
    rw [this]
    exact hf j fun w hw => hj w (by simp [hw])

/-- What is written depends on the bank and the configuration only. -/
theorem onlyWrites_congr {s t u : State} {ws : List (Reg × Word)} (h : OnlyWrites s t ws) (hr : u.regs = t.regs)
    (hc : u.cfg = t.cfg) : OnlyWrites s u ws := by
  obtain ⟨hl, hv, hf⟩ := h
  refine ⟨by rw [hr, hl], fun w hw => ?_, fun j hj => ?_⟩
  · rw [← hv w hw]
    simp [State.x, State.slot, hr, hc]
  · rw [← hf j hj]
    simp [State.slot, hr]

/-- A register that is not among those written keeps its value. -/
theorem OnlyWrites.keeps {s t : State} {ws : List (Reg × Word)} (h : OnlyWrites s t ws) (hc : s.cfg.Ok)
    (hcfg : t.cfg = s.cfg) (r : Reg) (hr : ∀ w ∈ ws, w.1 ≠ r) : t.x r = s.x r := by
  unfold State.x
  rw [hcfg]
  exact h.2.2 _ fun w hw e => hr w hw (id_injective hc e).symm

end Sys2Proof.Machine
end

