-- ==== Sys2Proof/Laws/Codes.lean ====
section
/-! SUPPORT. The bytes of a value, the values of a payload, the decoding procedure on a datagram of an admitted length,
and the operands of calls: what decoding takes apart, encoding has put together. -/

namespace Sys2Proof

/-- R44: a value's two bytes put together again. -/
@[simp] theorem wordOf_lo_hi (v : Word) : wordOf (loByte v) (hiByte v) = v := by
  apply BitVec.eq_of_toNat_eq
  have := v.isLt
  simp only [wordOf, loByte, hiByte, BitVec.toNat_append, BitVec.extractLsb'_toNat, Nat.shiftRight_eq_div_pow]
  rw [← Nat.shiftLeft_add_eq_or_of_lt (by omega), Nat.shiftLeft_eq]
  omega

theorem loByte_toNat (v : Word) : (loByte v).toNat = v.toNat % 256 := by
  simp [loByte, BitVec.extractLsb'_toNat]

theorem hiByte_toNat (v : Word) : (hiByte v).toNat = v.toNat / 256 := by
  have := v.isLt
  simp only [hiByte, BitVec.extractLsb'_toNat, Nat.shiftRight_eq_div_pow]
  omega

theorem wordOf_toNat (lo hi : Byte) : (wordOf lo hi).toNat = lo.toNat + 256 * hi.toNat := by
  have := lo.isLt
  simp only [wordOf, BitVec.toNat_append]
  rw [← Nat.shiftLeft_add_eq_or_of_lt (by omega), Nat.shiftLeft_eq]
  omega

@[simp] theorem valueBytes_length (vs : List Word) : (valueBytes vs).length = 2 * vs.length := by
  induction vs with
  | nil => rfl
  | cons v vs ih => simp [valueBytes, ih]; omega

/-- The values of a payload come back from its bytes, whatever follows them (R64, R69). -/
theorem takeValues_valueBytes (vs : List Word) (rest : List Byte) :
    takeValues vs.length (valueBytes vs ++ rest) = some vs := by
  induction vs with
  | nil => rfl
  | cons v vs ih => simp [valueBytes, takeValues, ih]

/-- A payload too short for its count has no values (R68). -/
theorem takeValues_short : ∀ (k : Nat) (bs : List Byte), bs.length < 2 * k → takeValues k bs = none
  | 0, _, h => by omega
  | _ + 1, [], _ => rfl
  | _ + 1, [_], _ => rfl
  | k + 1, lo :: hi :: bs, h => by
    simp only [List.length_cons] at h
    simp [takeValues, takeValues_short k bs (by omega)]

/-- The values of a payload long enough for its count, by position (R64). -/
theorem takeValues_enough : ∀ (k : Nat) (bs : List Byte), 2 * k ≤ bs.length →
    takeValues k bs = some ((List.range k).map fun j => wordOf (bs.getD (2 * j) 0) (bs.getD (2 * j + 1) 0))
  | 0, _, _ => rfl
  | k + 1, [], h => by simp at h
  | k + 1, [_], h => by simp at h; omega
  | k + 1, lo :: hi :: bs, h => by
    simp only [List.length_cons] at h
    rw [takeValues, takeValues_enough k bs (by omega), List.range_succ_eq_map]
    simp [Function.comp_def, Nat.mul_add]

/-- The decoding procedure on a datagram of an admitted length (R70). -/
theorem decodeDatagram_cons {rxMax : Nat} {op : Byte} {body : List Byte} : (op :: body).length ≤ rxMax →
    decodeDatagram rxMax (op :: body) =
      if op = 0x00#8 then
        match body with
        | addr :: _ => .ok (.rd addr)
        | _ => .reject .short
      else if op = 0x01#8 then
        match body with
        | addr :: lo :: hi :: _ => .ok (.wr addr (wordOf lo hi))
        | _ => .reject .short
      else if op = 0x02#8 then
        match body with
        | addr :: count :: _ => .ok (.brd addr count)
        | _ => .reject .short
      else if op = 0x03#8 then
        match body with
        | addr :: count :: payload =>
          match takeValues count.toNat payload with
          | some values => .ok (.bwr addr values)
          | none => .reject .short
        | _ => .reject .short
      else .ok (.echo (op :: body)) :=
  fun h => if_neg (Nat.not_lt.mpr h)

/-! ### Operands of calls -/

@[simp] theorem intOperand_intCast (k : Int) : intOperand (k : Scalar) = some k := by
  simp [intOperand]

@[simp] theorem natOperand_natCast (k : Nat) : natOperand (k : Scalar) = some k := by
  simp [natOperand]

@[simp] theorem wordOperand_toInt (v : Word) : wordOperand (v.toInt : Scalar) = some v := by
  have h1 := BitVec.le_toInt v
  have h2 := BitVec.toInt_lt (x := v)
  simp [wordOperand]
  omega

end Sys2Proof
end

