-- ==== Sys2Proof/Laws/Events.lean ====
section
/-! SUPPORT. Lists of events, and what the events of each agent leave alone (R206, R211): TICK's leave PKT's state, PKT's
leave TICK's. -/

namespace Sys2Proof.Machine

/-! ### Lists of events -/

@[simp] theorem runEvents_nil (s : State) : runEvents [] s = s := rfl

@[simp] theorem runEvents_cons (e : Event) (es : List Event) (s : State) :
    runEvents (e :: es) s = runEvents es (e s) := rfl

theorem runEvents_append (as bs : List Event) (s : State) :
    runEvents (as ++ bs) s = runEvents bs (runEvents as s) := by
  induction as generalizing s with
  | nil => rfl
  | cons a as ih => exact ih (a s)

/-- What every event of a list keeps, the list keeps. -/
theorem runEvents_keeps {P : State → Prop} {es : List Event} (h : ∀ e ∈ es, ∀ s, P s → P (e s)) {s : State}
    (hs : P s) : P (runEvents es s) := by
  induction es generalizing s with
  | nil => exact hs
  | cons e es ih => exact ih (fun e' he => h e' (by simp [he])) (h e (by simp) s hs)

/-- A relation every event of a list stands in, from a state to the next, holds over the list. -/
theorem runEvents_relates {R : State → State → Prop} (hrefl : ∀ s, R s s)
    (htrans : ∀ {s t u}, R s t → R t u → R s u) {es : List Event} (h : ∀ e ∈ es, ∀ s, R s (e s)) (s : State) :
    R s (runEvents es s) :=
  runEvents_keeps (P := R s) (fun e he t ht => htrans ht (h e he t)) (hrefl s)

/-- Events none of which is performed change nothing. -/
theorem runEvents_onlyIf_false {c : State → Bool} {es : List Event} {s : State} (h : c s = false) :
    runEvents (es.map (Event.onlyIf c)) s = s := by
  induction es with
  | nil => rfl
  | cons e es ih => simpa [Event.onlyIf, h] using ih

/-- Events all of which are performed, where none of them changes the condition. -/
theorem runEvents_onlyIf_true {c : State → Bool} {es : List Event} {s : State} (h : c s = true)
    (hc : ∀ e ∈ es, ∀ t, c (e t) = c t) : runEvents (es.map (Event.onlyIf c)) s = runEvents es s := by
  induction es generalizing s with
  | nil => rfl
  | cons e es ih =>
    have he : c (e s) = true := by rw [hc e (by simp), h]
    simpa [Event.onlyIf, h] using ih he (fun e' h' => hc e' (by simp [h']))

/-! ### What the agents' events leave alone -/

/-- What no event of a tick step changes: the configuration, PKT's state and its datagrams, whose turn it is, and how far
the step has come (R211). -/
structure TickFrame (s t : State) : Prop where
  cfg : t.cfg = s.cfg
  length : t.regs.length = s.regs.length
  phase : t.phase = s.phase
  micro : t.micro = s.micro
  lastRx : t.lastRx = s.lastRx
  rx : t.rx = s.rx
  tx : t.tx = s.tx
  pkt : t.pkt = s.pkt
  rxTime : t.rxTime = s.rxTime
  inbox : t.inbox = s.inbox
  agenda : t.agenda = s.agenda
  call : t.call = s.call
  out : s.out <+: t.out
  now : s.env.now ≤ t.env.now

theorem TickFrame.refl (s : State) : TickFrame s s :=
  ⟨rfl, rfl, rfl, rfl, rfl, rfl, rfl, rfl, rfl, rfl, rfl, rfl, List.prefix_refl _, le_refl _⟩

theorem TickFrame.trans {s t u : State} (h : TickFrame s t) (k : TickFrame t u) : TickFrame s u :=
  ⟨k.cfg.trans h.cfg, k.length.trans h.length, k.phase.trans h.phase, k.micro.trans h.micro, k.lastRx.trans h.lastRx,
    k.rx.trans h.rx, k.tx.trans h.tx, k.pkt.trans h.pkt, k.rxTime.trans h.rxTime, k.inbox.trans h.inbox,
    k.agenda.trans h.agenda, k.call.trans h.call, h.out.trans k.out, h.now.trans k.now⟩

theorem TickFrame.setX (s : State) (r : Reg) (v : Word) : TickFrame s (s.setX r v) :=
  ⟨rfl, by simp, rfl, rfl, rfl, rfl, rfl, rfl, rfl, rfl, rfl, rfl, List.prefix_refl _, le_refl _⟩

theorem TickFrame.outputDuty (s : State) (i : Fin 4) (d : Nat) : TickFrame s (s.outputDuty i d) :=
  ⟨rfl, rfl, rfl, rfl, rfl, rfl, rfl, rfl, rfl, rfl, rfl, rfl, List.prefix_append _ _, le_refl _⟩

theorem TickFrame.setIndicator (s : State) (v : Indicator) : TickFrame s (s.setIndicator v) :=
  ⟨rfl, rfl, rfl, rfl, rfl, rfl, rfl, rfl, rfl, rfl, rfl, rfl, List.prefix_append _ _, le_refl _⟩

/-- An event that writes none of these, except the environment. -/
theorem TickFrame.of_env {s t : State} (h : t = { t with
    cfg := s.cfg, regs := s.regs, phase := s.phase, micro := s.micro, lastRx := s.lastRx, rx := s.rx, tx := s.tx
    pkt := s.pkt, rxTime := s.rxTime, inbox := s.inbox, agenda := s.agenda, call := s.call, out := s.out })
    (hn : s.env.now ≤ t.env.now) : TickFrame s t := by
  rw [h]
  exact ⟨rfl, rfl, rfl, rfl, rfl, rfl, rfl, rfl, rfl, rfl, rfl, rfl, List.prefix_refl _, hn⟩

theorem estUpdate_frame : ∀ e ∈ estUpdateEvents, ∀ s, TickFrame s (e s) := by
  intro e he s
  simp only [estUpdateEvents, List.mem_cons, List.not_mem_nil, or_false] at he
  rcases he with rfl | rfl | rfl | rfl | rfl | rfl | rfl | rfl | rfl | rfl
  · exact .of_env rfl (by simp [State.sense])
  all_goals exact .setX _ _ _

theorem ctlRun_frame (f : State → AttitudeSample) (g : State → Vec3) :
    ∀ e ∈ ctlRunEvents f g, ∀ s, TickFrame s (e s) := by
  intro e he s
  simp only [ctlRunEvents, List.mem_cons, List.not_mem_nil, or_false] at he
  rcases he with rfl | rfl | rfl | rfl | rfl | rfl | rfl <;> exact .of_env rfl (le_refl _)

theorem mixRun_frame (thr : State → Int) (rud ele ail : State → Scalar) (vf : State → Option Scalar) :
    ∀ e ∈ mixRunEvents (fun s => s.computeDuties (thr s) (rud s) (ele s) (ail s) (vf s)), ∀ s, TickFrame s (e s) := by
  intro e he s
  simp only [mixRunEvents, List.mem_cons, List.not_mem_nil, or_false] at he
  rcases he with rfl | rfl | rfl | rfl | rfl | rfl | rfl | rfl | rfl
  · exact .of_env rfl (le_refl _)
  all_goals first | exact .setX _ _ _ | exact .outputDuty _ _ _

theorem mixTest_frame (en : State → Word) : ∀ e ∈ mixTestEvents en, ∀ s, TickFrame s (e s) := by
  intro e he s
  simp only [mixTestEvents, List.mem_cons, List.not_mem_nil, or_false] at he
  rcases he with rfl | rfl | rfl | rfl | rfl | rfl | rfl | rfl
  all_goals first | exact .outputDuty _ _ _ | exact .of_env rfl (le_refl _)

theorem onlyIf_frame {c : State → Bool} {es : List Event} (h : ∀ e ∈ es, ∀ s, TickFrame s (e s)) :
    ∀ e ∈ es.map (Event.onlyIf c), ∀ s, TickFrame s (e s) := by
  intro e he s
  obtain ⟨e', he', rfl⟩ := List.mem_map.mp he
  unfold Event.onlyIf
  split
  · exact h e' he' s
  · exact .refl s

/-- Every event of every tick step keeps the frame. -/
theorem tickEvents_frame (p : Phase) : ∀ e ∈ tickEvents p, ∀ s, TickFrame s (e s) := by
  cases p with
  | t6 => exact estUpdate_frame
  | t10 =>
    intro e he s
    rcases List.mem_cons.mp he with rfl | he
    · exact .of_env rfl (le_refl _)
    · exact onlyIf_frame (ctlRun_frame _ _) e he s
  | t11 =>
    intro e he s
    rcases List.mem_cons.mp he with rfl | he
    · exact .of_env rfl (le_refl _)
    · rcases List.mem_append.mp he with he | he
      · exact onlyIf_frame (mixTest_frame _) e he s
      · exact onlyIf_frame (mixRun_frame _ _ _ _ _) e he s
  | t1 =>
    intro e he s
    simp only [tickEvents, t1Events, List.mem_cons, List.not_mem_nil, or_false] at he
    rcases he with rfl | rfl | rfl | rfl
    · exact .of_env rfl (Env.now_le_clockValue _)
    · exact .of_env rfl (by simp)
    · exact .setX _ _ _
    · simp only
      split
      · exact .setX _ _ _
      · exact .refl s
  | t2 =>
    intro e he s
    simp only [tickEvents, t2Events, List.mem_cons, List.not_mem_nil, or_false] at he
    rcases he with rfl | rfl <;> exact .of_env rfl (le_refl _)
  | t3 =>
    intro e he s
    simp only [tickEvents, t3Events, List.mem_cons, List.not_mem_nil, or_false] at he
    subst he
    simp only
    split
    · exact .of_env rfl (le_refl _)
    · exact .refl s
  | t4 =>
    intro e he s
    simp only [tickEvents, t4Events, List.mem_cons, List.not_mem_nil, or_false] at he
    rcases he with rfl | rfl
    · exact .of_env rfl (le_refl _)
    · exact .setX _ _ _
  | t5 =>
    intro e he s
    simp only [tickEvents, t5Events, List.mem_cons, List.not_mem_nil, or_false] at he
    rcases he with rfl | rfl | rfl
    · exact .of_env rfl (le_refl _)
    · simp only
      split
      · exact .trans (t := { s with cal := s.cal.restart }) (.of_env rfl (le_refl _)) (.setX _ _ _)
      · split
        · exact .setX _ _ _
        · exact .refl s
    · simp only
      split
      · exact .setIndicator _ _
      · split
        · exact .setIndicator _ _
        · exact .refl s
  | t7 =>
    intro e he s
    simp only [tickEvents, t7Events, List.mem_cons, List.not_mem_nil, or_false] at he
    rcases he with rfl | rfl
    · exact .of_env rfl (le_refl _)
    · simp only
      split
      · exact .setX _ _ _
      · exact .refl s
  | t8 =>
    intro e he s
    simp only [tickEvents, t8Events, List.mem_cons, List.not_mem_nil, or_false] at he
    rcases he with rfl | rfl | rfl | rfl | rfl | rfl | rfl | rfl
    all_goals first
      | exact .of_env rfl (le_refl _)
      | exact .setX _ _ _
      | exact .trans (.setX _ _ _) (.of_env rfl (le_refl _))
  | t9 =>
    intro e he s
    simp only [tickEvents, t9Events, List.mem_cons, List.not_mem_nil, or_false] at he
    subst he
    exact .of_env rfl (le_refl _)
  | t12 =>
    intro e he s
    simp only [tickEvents, t12Events, List.mem_cons, List.not_mem_nil, or_false] at he
    rcases he with rfl | rfl | rfl
    · exact .of_env rfl (Env.now_le_clockValue _)
    all_goals exact .setX _ _ _
  | t13 =>
    intro e he s
    simp only [tickEvents, t13Events, List.mem_cons, List.not_mem_nil, or_false] at he
    rcases he with rfl | rfl
    · exact .of_env rfl (Env.now_le_clockValue _)
    · simp only
      split
      · exact .of_env rfl (Env.waitUntil_now _ _).2
      · split <;> exact .of_env rfl (le_refl _)

/-- A whole tick step keeps the frame up to `phase` and `micro`. -/
theorem tickStep_frame (p : Phase) (s : State) : TickFrame s (runEvents (tickEvents p) s) :=
  runEvents_relates TickFrame.refl TickFrame.trans (tickEvents_frame p) s

/-! ### PKT -/

/-- What no event of a command changes: the configuration, all that is TICK's, and whose turn it is (R206). -/
structure PktFrame (s t : State) : Prop where
  cfg : t.cfg = s.cfg
  length : t.regs.length = s.regs.length
  bf : t.bf = s.bf
  cal : t.cal = s.cal
  origin : t.origin = s.origin
  fstate : t.fstate = s.fstate
  ap : t.ap = s.ap
  phase : t.phase = s.phase
  deadline : t.deadline = s.deadline
  lt : t.lt = s.lt
  micro : t.micro = s.micro
  loc : t.loc = s.loc
  dutyOut : t.dutyOut = s.dutyOut
  indicator : t.indicator = s.indicator
  agenda : t.agenda = s.agenda
  call : t.call = s.call
  out : s.out <+: t.out
  now : s.env.now ≤ t.env.now

theorem PktFrame.refl (s : State) : PktFrame s s :=
  ⟨rfl, rfl, rfl, rfl, rfl, rfl, rfl, rfl, rfl, rfl, rfl, rfl, rfl, rfl, rfl, rfl, List.prefix_refl _, le_refl _⟩

theorem PktFrame.trans {s t u : State} (h : PktFrame s t) (k : PktFrame t u) : PktFrame s u :=
  ⟨k.cfg.trans h.cfg, k.length.trans h.length, k.bf.trans h.bf, k.cal.trans h.cal, k.origin.trans h.origin,
    k.fstate.trans h.fstate, k.ap.trans h.ap, k.phase.trans h.phase, k.deadline.trans h.deadline, k.lt.trans h.lt,
    k.micro.trans h.micro, k.loc.trans h.loc, k.dutyOut.trans h.dutyOut, k.indicator.trans h.indicator,
    k.agenda.trans h.agenda, k.call.trans h.call, h.out.trans k.out, h.now.trans k.now⟩

/-- What an event of a command may be. -/
inductive IsPktEvent : Event → Prop
  | draw : IsPktEvent stampDraw
  | stamp : IsPktEvent stampWrite
  | drop : IsPktEvent State.drop
  | put (tx : List Byte) : IsPktEvent (putTx tx)
  | read (i : Nat) : IsPktEvent (appendSlot i)
  | write (i : Nat) (v : Word) : IsPktEvent (writeSlot i v)
  | send : IsPktEvent sendTx

theorem readEvents_kind {e : Event} : ∀ (addr k : Nat), e ∈ readEvents addr k → IsPktEvent e
  | _, 0, h => by simp [readEvents] at h
  | addr, k + 1, h => by
    rcases List.mem_cons.mp h with rfl | h
    · exact .read _
    · exact readEvents_kind (addr + 1) k h

theorem writeEvents_kind {e : Event} : ∀ (addr : Nat) (vs : List Word), e ∈ writeEvents addr vs → IsPktEvent e
  | _, [], h => by simp [writeEvents] at h
  | addr, v :: vs, h => by
    rcases List.mem_cons.mp h with rfl | h
    · exact .write _ _
    · exact writeEvents_kind (addr + 1) vs h

theorem refreshEvents_kind {e : Event} (h : e ∈ refreshEvents) : IsPktEvent e := by
  simp only [refreshEvents, List.mem_cons, List.not_mem_nil, or_false] at h
  rcases h with rfl | rfl
  · exact .draw
  · exact .stamp

theorem checkedEvents_kind {cfg : Cfg} {addr count : Nat} {es : List Event} {e : Event}
    (hes : ∀ e ∈ es, IsPktEvent e) (h : e ∈ checkedEvents cfg addr count es) : IsPktEvent e := by
  unfold checkedEvents at h
  split at h
  · exact hes e h
  · obtain rfl : e = State.drop := by simpa using h
    exact .drop

/-- The events of a command are all of these kinds. -/
theorem pktEvents_kind {cfg : Cfg} {i : Instr} {e : Event} (h : e ∈ pktEvents cfg i) : IsPktEvent e := by
  cases i with
  | rd addr =>
    rcases List.mem_append.mp h with h | h
    · exact refreshEvents_kind h
    · refine checkedEvents_kind (fun e h => ?_) h
      simp only [List.mem_cons, List.not_mem_nil, or_false] at h
      rcases h with rfl | rfl | rfl <;> constructor
  | wr addr v =>
    rcases List.mem_append.mp h with h | h
    · exact refreshEvents_kind h
    · refine checkedEvents_kind (fun e h => ?_) h
      simp only [List.mem_cons, List.not_mem_nil, or_false] at h
      subst h
      constructor
  | brd addr count =>
    rcases List.mem_append.mp h with h | h
    · exact refreshEvents_kind h
    · refine checkedEvents_kind (fun e h => ?_) h
      rcases List.mem_cons.mp h with rfl | h
      · constructor
      · rcases List.mem_append.mp h with h | h
        · exact readEvents_kind _ _ h
        · obtain rfl : e = sendTx := by simpa using h
          constructor
  | bwr addr vs =>
    rcases List.mem_append.mp h with h | h
    · exact refreshEvents_kind h
    · exact checkedEvents_kind (fun e h => writeEvents_kind _ _ h) h
  | echo bytes =>
    rcases List.mem_append.mp h with h | h
    · exact refreshEvents_kind h
    · simp only [List.mem_cons, List.not_mem_nil, or_false] at h
      rcases h with rfl | rfl <;> constructor
  | _ => simp [pktEvents] at h

theorem IsPktEvent.frame {e : Event} (h : IsPktEvent e) (s : State) : PktFrame s (e s) := by
  cases h with
  | draw => exact ⟨rfl, rfl, rfl, rfl, rfl, rfl, rfl, rfl, rfl, rfl, rfl, rfl, rfl, rfl, rfl, rfl, List.prefix_refl _, Env.now_le_clockValue _⟩
  | send => exact ⟨rfl, rfl, rfl, rfl, rfl, rfl, rfl, rfl, rfl, rfl, rfl, rfl, rfl, rfl, rfl, rfl, List.prefix_append _ _, le_refl _⟩
  | write i v => exact ⟨rfl, by simp [writeSlot], rfl, rfl, rfl, rfl, rfl, rfl, rfl, rfl, rfl, rfl, rfl, rfl, rfl, rfl, List.prefix_refl _, le_refl _⟩
  | _ => exact ⟨rfl, rfl, rfl, rfl, rfl, rfl, rfl, rfl, rfl, rfl, rfl, rfl, rfl, rfl, rfl, rfl, List.prefix_refl _, le_refl _⟩

/-- A command, or any part of one, keeps the frame. -/
theorem pktEvents_frame {cfg : Cfg} {i : Instr} {es : List Event} (h : ∀ e ∈ es, e ∈ pktEvents cfg i) (s : State) :
    PktFrame s (runEvents es s) :=
  runEvents_relates PktFrame.refl PktFrame.trans (fun e he t => (pktEvents_kind (h e he)).frame t) s

theorem PktFrame.endHandling (s : State) : PktFrame s s.endHandling :=
  ⟨rfl, rfl, rfl, rfl, rfl, rfl, rfl, rfl, rfl, rfl, rfl, rfl, rfl, rfl, rfl, rfl, List.prefix_refl _, le_refl _⟩

/-- A wire command is all of its events with the handling over. -/
theorem exec_wire {i : Instr} (h : isWireCommand i = true) (s : State) :
    exec i s = .next (runEvents (pktEvents s.cfg i) s).endHandling := by
  cases i with
  | rd _ => rfl
  | wr _ _ => rfl
  | brd _ _ => rfl
  | bwr _ _ => rfl
  | echo _ => rfl
  | _ => cases h

/-- A tick step is all of its events with the step over. -/
theorem exec_tick (p : Phase) (s : State) : exec p.instr s = .next (s.runStep p) := by
  cases p <;> rfl

end Sys2Proof.Machine
end

