-- ==== Sys2Proof/Laws/Commands.lean ====
section
/-! SUPPORT. The parts the wire commands are made of: the range check (R157), the slot reads of BRD and the slot writes of
BWR (R153, R154). -/

namespace Sys2Proof.Machine

/-! ### The commands (R151 to R155) -/

/-- The range check of R157 as a condition. -/
theorem inRange_iff (n addr count : Nat) : inRange n addr count = true ↔ addr < n ∧ addr + count ≤ n := by
  simp [inRange]

/-- The slot reads of BRD append the slots, each low byte first, ascending (R153). -/
theorem runEvents_reads (s : State) : ∀ (k addr : Nat), runEvents (readEvents addr k) s =
    { s with tx := s.tx ++ ((List.range k).map fun j => s.slot (addr + j)).flatMap fun v => [loByte v, hiByte v] }
  | 0, _ => by simp [readEvents]
  | k + 1, addr => by
    rw [readEvents, runEvents_cons, runEvents_reads _ k (addr + 1), List.range_succ_eq_map]
    have h : ∀ j, addr + 1 + j = addr + (j + 1) := by omega
    have hs : ∀ i, (appendSlot addr s).slot i = s.slot i := fun _ => rfl
    simp only [hs, h]
    simp [appendSlot, List.flatMap_map]

/-- The slot writes of BWR change the bank only. -/
theorem runEvents_writes_regs (vs : List Word) : ∀ (s : State) (addr : Nat),
    runEvents (writeEvents addr vs) s = { s with regs := (runEvents (writeEvents addr vs) s).regs } := by
  induction vs with
  | nil => intro s _; rfl
  | cons v vs ih =>
    intro s addr
    rw [writeEvents, runEvents_cons, ih]
    rfl

/-- The slot writes of BWR write the values in ascending order of the slots and no other slot (R154). -/
theorem runEvents_writes (vs : List Word) : ∀ (s : State) (addr : Nat), addr + vs.length ≤ s.regs.length →
    (runEvents (writeEvents addr vs) s).regs.length = s.regs.length ∧
    (∀ k, k < vs.length → (runEvents (writeEvents addr vs) s).regs[addr + k]? = vs[k]?) ∧
    ∀ j, j < addr ∨ addr + vs.length ≤ j → (runEvents (writeEvents addr vs) s).regs[j]? = s.regs[j]? := by
  induction vs with
  | nil => intro s addr _; exact ⟨rfl, fun k hk => by simp at hk, fun _ _ => rfl⟩
  | cons v vs ih =>
    intro s addr h
    simp only [List.length_cons] at h
    obtain ⟨h1, h2, h3⟩ := ih (writeSlot addr v s) (addr + 1) (by simp [writeSlot]; omega)
    rw [writeEvents, runEvents_cons]
    refine ⟨by rw [h1]; simp [writeSlot], fun k hk => ?_, fun j hj => ?_⟩
    · cases k with
      | zero =>
        refine (h3 addr (.inl (Nat.lt_succ_self _))).trans ?_
        simp only [writeSlot, State.setSlot_regs, List.getElem?_cons_zero]
        exact List.getElem?_set_self (by omega)
      | succ k =>
        simp only [List.length_cons, Nat.add_lt_add_iff_right] at hk
        have := h2 k hk
        rw [Nat.add_right_comm] at this
        exact this
    · simp only [List.length_cons] at hj
      rw [h3 j (by omega)]
      simp only [writeSlot, State.setSlot_regs]
      exact List.getElem?_set_ne (by omega)

/-- A range inside the bank performs its accesses. -/
theorem checkedEvents_in {cfg : Cfg} {addr count : Nat} (es : List Event) (h : addr < cfg.n ∧ addr + count ≤ cfg.n) :
    checkedEvents cfg addr count es = es := if_pos ((inRange_iff _ _ _).mpr h)

/-- A range outside the bank raises Drop before its first access (R157, R158). -/
theorem checkedEvents_out {cfg : Cfg} {addr count : Nat} (es : List Event) (h : cfg.n ≤ addr ∨ cfg.n < addr + count) :
    checkedEvents cfg addr count es = [State.drop] := if_neg (by rw [inRange_iff]; omega)

end Sys2Proof.Machine
end

