-- ==== Sys2Proof/Laws/Numbers.lean ====
section
/-! SUPPORT. The numbers of the model: saturation and clamping in the integers (R7), the three properties of the conversion
from a real to a register (R4) for both quantisers, the range of a duty (R138), and the operations of the exact NUM
(R3). -/

namespace Sys2Proof

/-! ### The exact NUM (R3) -/

@[simp] theorem Numerics.rational_add (a b : Scalar) : Numerics.rational.add a b = a + b := rfl

@[simp] theorem Numerics.rational_sub (a b : Scalar) : Numerics.rational.sub a b = a - b := rfl

@[simp] theorem Numerics.rational_mul (a b : Scalar) : Numerics.rational.mul a b = a * b := rfl

@[simp] theorem Numerics.rational_div (a b : Scalar) : Numerics.rational.div a b = a / b := rfl

@[simp] theorem Numerics.rational_ofInt (k : Int) : Numerics.rational.ofInt k = (k : Scalar) := rfl

/-- Under exact NUM the order of summation does not matter (U2). -/
@[simp] theorem Numerics.rational_sum (l : List Scalar) : Numerics.rational.sum l = l.sum :=
  (List.sum_eq_foldl).symm

/-- `ofInt` of a 16-bit integer is that integer, for every NUM (R4 (i)). -/
theorem Numerics.ofInt_eq (n : Numerics) {k : Int} (h1 : -32768 ≤ k) (h2 : k ≤ 32767) : n.ofInt k = (k : Scalar) := by
  cases n
  · rfl
  · exact if_pos ⟨h1, h2⟩

theorem Numerics.rational_keepsZero : Numerics.rational.KeepsZero :=
  ⟨fun a => ⟨zero_mul a, mul_zero a⟩, add_zero 0⟩

end Sys2Proof

namespace Sys2Proof.Machine

/-! ### Integers (R7) -/

theorem sat16_eq (k : Int) : sat16 k = max (-32768) (min k 32767) := by
  unfold sat16; split
  · omega
  · split <;> omega

theorem sat16_range (k : Int) : -32768 ≤ sat16 k ∧ sat16 k ≤ 32767 := by
  rw [sat16_eq]; omega

theorem sat16_id {k : Int} (h1 : -32768 ≤ k) (h2 : k ≤ 32767) : sat16 k = k := by
  rw [sat16_eq]; omega

theorem sat16_mono {j k : Int} (h : j ≤ k) : sat16 j ≤ sat16 k := by
  rw [sat16_eq, sat16_eq]; omega

/-- An integer in the range of a slot is the value of its pattern. -/
theorem toInt_ofInt {k : Int} (h1 : -32768 ≤ k) (h2 : k ≤ 32767) : (BitVec.ofInt 16 k).toInt = k := by
  rw [BitVec.toInt_ofInt]
  simp only [Int.bmod_def]
  omega

@[simp] theorem satWord_toInt (k : Int) : (satWord k).toInt = sat16 k :=
  toInt_ofInt (sat16_range k).1 (sat16_range k).2

theorem clampInt_eq {v a b : Int} (h : a ≤ b) : clampInt v a b = max a (min v b) := by
  unfold clampInt; split
  · omega
  · split <;> omega

theorem clampScalar_eq {v a b : Scalar} (h : a ≤ b) : clampScalar v a b = max a (min v b) := by
  unfold clampScalar
  split
  · rename_i h1
    rw [min_eq_left (le_of_lt (lt_of_lt_of_le h1 h)), max_eq_left (le_of_lt h1)]
  · rename_i h1
    split
    · rename_i h2
      rw [min_eq_right (le_of_lt h2), max_eq_right h]
    · rename_i h2
      rw [min_eq_left (not_lt.mp h2), max_eq_right (not_lt.mp h1)]

theorem ceilingOf_eq (l : Word) : ceilingOf l = max 0 (min l.toInt 1023) := clampInt_eq (by decide)

theorem ceilingOf_range (l : Word) : 0 ≤ ceilingOf l ∧ ceilingOf l ≤ 1023 := by
  rw [ceilingOf_eq]; omega

/-! ### From a real to a register (R4) -/

theorem trunc_intCast (k : Int) : trunc (k : Scalar) = k := by
  unfold trunc
  split
  · exact Rat.floor_intCast k
  · rw [← Int.cast_neg, Rat.floor_intCast, neg_neg]

theorem floor_mono {u v : Scalar} (h : u ≤ v) : u.floor ≤ v.floor := by
  have : ⌊u⌋ ≤ ⌊v⌋ := Int.floor_le_floor h
  exact this

theorem trunc_mono {u v : Scalar} (h : u ≤ v) : trunc u ≤ trunc v := by
  unfold trunc
  split <;> split
  · exact floor_mono h
  · rename_i h1 h2
    exact absurd (le_trans h1 h) h2
  · rename_i h1 h2
    have a : (0 : Int) ≤ v.floor := by
      have : (0:Int) ≤ ⌊v⌋ := Int.floor_nonneg.mpr h2
      exact this
    have b : (0 : Int) ≤ (-u).floor := by
      have : (0:Int) ≤ ⌊-u⌋ := Int.floor_nonneg.mpr (by rw [not_le] at h1; linarith)
      exact this
    omega
  · have := floor_mono (neg_le_neg h)
    omega

/-- R4 (i) for both quantisers. -/
theorem roundBy_intCast (q : Quantiser) (k : Int) : roundBy q (k : Scalar) = k := by
  cases q with
  | truncate => exact trunc_intCast k
  | other => simp [roundBy, Rat.floor_intCast]

/-- A quantiser answers one of the two neighbouring integers. -/
theorem roundBy_other_range (v : Scalar) :
    roundBy .other v = v.floor ∨ (v ≠ (v.floor : Scalar) ∧ roundBy .other v = v.floor + 1) := by
  simp only [roundBy]
  split
  · exact .inl rfl
  · split
    · exact .inl rfl
    · exact .inr ⟨‹_›, rfl⟩

/-- R4 (iii) for both quantisers. -/
theorem roundBy_mono (q : Quantiser) {u v : Scalar} (h : u ≤ v) : roundBy q u ≤ roundBy q v := by
  cases q with
  | truncate => exact trunc_mono h
  | other =>
    have hf := floor_mono h
    rcases lt_or_eq_of_le hf with hlt | heq
    · have hv : v.floor ≤ roundBy .other v := by
        rcases roundBy_other_range v with e | ⟨-, e⟩ <;> omega
      rcases roundBy_other_range u with e | ⟨-, e⟩ <;> omega
    · simp only [roundBy]
      rw [← heq]
      have hfu : ((u.floor : Int) : Scalar) ≤ u := Int.floor_le u
      split
      · split
        · exact le_refl _
        · split <;> omega
      · rename_i hu
        have hvne : v ≠ (u.floor : Scalar) := fun e => hu (le_antisymm (e ▸ h) hfu)
        rw [if_neg hvne]
        split
        · split <;> omega
        · rename_i hth
          rw [if_neg]
          rintro (hv | ⟨hv, ht⟩)
          · exact hth (.inl (lt_of_le_of_lt (by linarith) hv))
          · rcases lt_or_eq_of_le h with hl | he
            · exact hth (.inl (by linarith))
            · exact hth (.inr ⟨by rw [← hv, he], ht⟩)

theorem toRegInt_range (cfg : Cfg) (v : Scalar) : -32768 ≤ toRegInt cfg v ∧ toRegInt cfg v ≤ 32767 :=
  sat16_range _

@[simp] theorem toReg_toInt (cfg : Cfg) (v : Scalar) : (toReg cfg v).toInt = toRegInt cfg v :=
  toInt_ofInt (toRegInt_range cfg v).1 (toRegInt_range cfg v).2

theorem toRegInt_mono (cfg : Cfg) {u v : Scalar} (h : u ≤ v) : toRegInt cfg u ≤ toRegInt cfg v :=
  sat16_mono (roundBy_mono cfg.q h)

theorem toRegInt_intCast (cfg : Cfg) {k : Int} (h1 : -32768 ≤ k) (h2 : k ≤ 32767) :
    toRegInt cfg (k : Scalar) = k := by
  rw [toRegInt, roundBy_intCast, sat16_id h1 h2]

/-! ### Duties (R138) -/

/-- A duty lies between zero and the ceiling. -/
theorem dutyOf_le (cfg : Cfg) {c : Int} (h0 : 0 ≤ c) (h1 : c ≤ 1023) (m : Scalar) : (dutyOf cfg c m : Int) ≤ c := by
  have hc : (0 : Scalar) ≤ (c : Scalar) := by exact_mod_cast h0
  unfold dutyOf
  rw [clampScalar_eq hc]
  have hu : toRegInt cfg (max 0 (min m (c : Scalar))) ≤ toRegInt cfg (c : Scalar) :=
    toRegInt_mono cfg (max_le hc (min_le_right _ _))
  rw [toRegInt_intCast cfg (by omega) (by omega)] at hu
  omega

theorem dutyOf_eq (cfg : Cfg) {c : Int} (h0 : 0 ≤ c) (m : Scalar) :
    (dutyOf cfg c m : Int) = toRegInt cfg (max 0 (min m (c : Scalar))) := by
  have hc : (0 : Scalar) ≤ (c : Scalar) := by exact_mod_cast h0
  unfold dutyOf
  rw [clampScalar_eq hc]
  have hl : toRegInt cfg ((0 : Int) : Scalar) ≤ toRegInt cfg (max 0 (min m (c : Scalar))) :=
    toRegInt_mono cfg (by simp)
  rw [toRegInt_intCast cfg (by omega) (by omega)] at hl
  omega

/-- The pattern of a duty reads as the duty. -/
theorem ofNat_toInt_of_lt {d : Nat} (h : d < 32768) : (BitVec.ofNat 16 d).toInt = d := by
  rw [BitVec.toInt_eq_toNat_cond, BitVec.toNat_ofNat]
  have : d % 2 ^ 16 = d := Nat.mod_eq_of_lt (by omega)
  rw [this, if_pos (by omega)]

end Sys2Proof.Machine
end

