-- ==== Sys2Proof/Laws/PerInstr.lean ====
section
/-! SUPPORT. The statements made per instruction. Family Head: the code of every instruction begins with the byte the opcode
table gives its row: the opcode of R60 for a wire command, the label of R73 for an operation or a tick step. -/

namespace Sys2Proof.Laws.Head

/-- The first byte of a code, with whether the code is a datagram. -/
def head : Code → Bool × Option Byte
  | .datagram bytes => (true, bytes.head?)
  | .call c => (false, some c.label)

/-- A code of the given kind begins with a byte between two bounds. -/
def Begins (c : Code) (isDatagram : Bool) (lo hi : Nat) : Prop :=
  ∃ b : Byte, head c = (isDatagram, some b) ∧ lo ≤ b.toNat ∧ b.toNat ≤ hi

/-- What the code of a well-formed instruction begins with. -/
def Statement (i : Instr) : Prop :=
  ∀ rxMax : Nat, i.wellFormed rxMax = true →
    match i with
    | .rd _ => Begins (encode i) true 0x00 0x00
    | .wr _ _ => Begins (encode i) true 0x01 0x01
    | .brd _ _ => Begins (encode i) true 0x02 0x02
    | .bwr _ _ => Begins (encode i) true 0x03 0x03
    | .echo _ => Begins (encode i) true 0x04 0xFF
    | .rbRead _ => Begins (encode i) false 0x10 0x10
    | .rbWrite _ _ => Begins (encode i) false 0x11 0x11
    | .mafReset => Begins (encode i) false 0x20 0x20
    | .mafPut _ => Begins (encode i) false 0x21 0x21
    | .mafGet => Begins (encode i) false 0x22 0x22
    | .estInit => Begins (encode i) false 0x30 0x30
    | .estStartCal => Begins (encode i) false 0x31 0x31
    | .estUpdate => Begins (encode i) false 0x32 0x32
    | .apInit => Begins (encode i) false 0x40 0x40
    | .apEnter _ => Begins (encode i) false 0x41 0x41
    | .apGetThr _ _ => Begins (encode i) false 0x42 0x42
    | .apSetParam _ _ => Begins (encode i) false 0x43 0x43
    | .ctlWrap _ => Begins (encode i) false 0x50 0x50
    | .ctlRun _ _ => Begins (encode i) false 0x51 0x51
    | .mixAmp _ => Begins (encode i) false 0x60 0x60
    | .mixRun _ _ _ _ _ => Begins (encode i) false 0x61 0x61
    | .mixTest _ => Begins (encode i) false 0x62 0x62
    | .tickT1 => Begins (encode i) false 0x71 0x71
    | .tickT2 => Begins (encode i) false 0x72 0x72
    | .tickT3 => Begins (encode i) false 0x73 0x73
    | .tickT4 => Begins (encode i) false 0x74 0x74
    | .tickT5 => Begins (encode i) false 0x75 0x75
    | .tickT6 => Begins (encode i) false 0x76 0x76
    | .tickT7 => Begins (encode i) false 0x77 0x77
    | .tickT8 => Begins (encode i) false 0x78 0x78
    | .tickT9 => Begins (encode i) false 0x79 0x79
    | .tickT10 => Begins (encode i) false 0x7A 0x7A
    | .tickT11 => Begins (encode i) false 0x7B 0x7B
    | .tickT12 => Begins (encode i) false 0x7C 0x7C
    | .tickT13 => Begins (encode i) false 0x7D 0x7D

theorem rd (addr : Byte) : Statement (.rd addr) := fun _ _ => ⟨_, rfl, Nat.le_refl _, Nat.le_refl _⟩
theorem wr (addr : Byte) (value : Word) : Statement (.wr addr value) := fun _ _ => ⟨_, rfl, Nat.le_refl _, Nat.le_refl _⟩
theorem brd (addr count : Byte) : Statement (.brd addr count) := fun _ _ => ⟨_, rfl, Nat.le_refl _, Nat.le_refl _⟩
theorem bwr (addr : Byte) (values : List Word) : Statement (.bwr addr values) :=
  fun _ _ => ⟨_, rfl, Nat.le_refl _, Nat.le_refl _⟩

theorem echo (bytes : List Byte) : Statement (.echo bytes) := by
  intro rxMax h
  cases bytes with
  | nil => simp [Instr.wellFormed] at h
  | cons op rest =>
    simp only [Instr.wellFormed, Bool.and_eq_true, decide_eq_true_eq] at h
    exact ⟨op, rfl, h.1, by have := op.isLt; omega⟩

theorem rbRead (id : Int) : Statement (.rbRead id) := fun _ _ => ⟨_, rfl, Nat.le_refl _, Nat.le_refl _⟩
theorem rbWrite (id : Int) (value : Word) : Statement (.rbWrite id value) := fun _ _ => ⟨_, rfl, Nat.le_refl _, Nat.le_refl _⟩
theorem mafReset : Statement .mafReset := fun _ _ => ⟨_, rfl, Nat.le_refl _, Nat.le_refl _⟩
theorem mafPut (v : Scalar) : Statement (.mafPut v) := fun _ _ => ⟨_, rfl, Nat.le_refl _, Nat.le_refl _⟩
theorem mafGet : Statement .mafGet := fun _ _ => ⟨_, rfl, Nat.le_refl _, Nat.le_refl _⟩
theorem estInit : Statement .estInit := fun _ _ => ⟨_, rfl, Nat.le_refl _, Nat.le_refl _⟩
theorem estStartCal : Statement .estStartCal := fun _ _ => ⟨_, rfl, Nat.le_refl _, Nat.le_refl _⟩
theorem estUpdate : Statement .estUpdate := fun _ _ => ⟨_, rfl, Nat.le_refl _, Nat.le_refl _⟩
theorem apInit : Statement .apInit := fun _ _ => ⟨_, rfl, Nat.le_refl _, Nat.le_refl _⟩
theorem apEnter (t : Nat) : Statement (.apEnter t) := fun _ _ => ⟨_, rfl, Nat.le_refl _, Nat.le_refl _⟩
theorem apGetThr (now : Nat) (requested : Int) : Statement (.apGetThr now requested) :=
  fun _ _ => ⟨_, rfl, Nat.le_refl _, Nat.le_refl _⟩
theorem apSetParam (ceiling duration : Word) : Statement (.apSetParam ceiling duration) :=
  fun _ _ => ⟨_, rfl, Nat.le_refl _, Nat.le_refl _⟩
theorem ctlWrap (e : Scalar) : Statement (.ctlWrap e) := fun _ _ => ⟨_, rfl, Nat.le_refl _, Nat.le_refl _⟩
theorem ctlRun (sample : AttitudeSample) (tgt : Vec3) : Statement (.ctlRun sample tgt) :=
  fun _ _ => ⟨_, rfl, Nat.le_refl _, Nat.le_refl _⟩
theorem mixAmp (vf : Option Scalar) : Statement (.mixAmp vf) := fun _ _ => ⟨_, rfl, Nat.le_refl _, Nat.le_refl _⟩
theorem mixRun (thr : Int) (rud ele ail : Scalar) (vf : Option Scalar) : Statement (.mixRun thr rud ele ail vf) :=
  fun _ _ => ⟨_, rfl, Nat.le_refl _, Nat.le_refl _⟩
theorem mixTest (en : Word) : Statement (.mixTest en) := fun _ _ => ⟨_, rfl, Nat.le_refl _, Nat.le_refl _⟩
theorem tickT1 : Statement .tickT1 := fun _ _ => ⟨_, rfl, Nat.le_refl _, Nat.le_refl _⟩
theorem tickT2 : Statement .tickT2 := fun _ _ => ⟨_, rfl, Nat.le_refl _, Nat.le_refl _⟩
theorem tickT3 : Statement .tickT3 := fun _ _ => ⟨_, rfl, Nat.le_refl _, Nat.le_refl _⟩
theorem tickT4 : Statement .tickT4 := fun _ _ => ⟨_, rfl, Nat.le_refl _, Nat.le_refl _⟩
theorem tickT5 : Statement .tickT5 := fun _ _ => ⟨_, rfl, Nat.le_refl _, Nat.le_refl _⟩
theorem tickT6 : Statement .tickT6 := fun _ _ => ⟨_, rfl, Nat.le_refl _, Nat.le_refl _⟩
theorem tickT7 : Statement .tickT7 := fun _ _ => ⟨_, rfl, Nat.le_refl _, Nat.le_refl _⟩
theorem tickT8 : Statement .tickT8 := fun _ _ => ⟨_, rfl, Nat.le_refl _, Nat.le_refl _⟩
theorem tickT9 : Statement .tickT9 := fun _ _ => ⟨_, rfl, Nat.le_refl _, Nat.le_refl _⟩
theorem tickT10 : Statement .tickT10 := fun _ _ => ⟨_, rfl, Nat.le_refl _, Nat.le_refl _⟩
theorem tickT11 : Statement .tickT11 := fun _ _ => ⟨_, rfl, Nat.le_refl _, Nat.le_refl _⟩
theorem tickT12 : Statement .tickT12 := fun _ _ => ⟨_, rfl, Nat.le_refl _, Nat.le_refl _⟩
theorem tickT13 : Statement .tickT13 := fun _ _ => ⟨_, rfl, Nat.le_refl _, Nat.le_refl _⟩

end Sys2Proof.Laws.Head
end

