-- ==== Sys2Proof/Laws/Units.lean ====
section
/-! SUPPORT. What the shared operations of the units do, said once: the filter's invariant (R83), the calibration buffer's
(R94), and the outputs and mirrors of the mixer (R139, R140). -/

namespace Sys2Proof.Machine

/-! ### MovingAverageFilter (R80 to R83) -/

/-- R82 as a condition on the count. -/
theorem Filter.mean_eq (n : Numerics) (w : Nat) (f : Filter) :
    f.mean n w = if f.count = w then some (n.div f.sum (n.ofInt w)) else none := by
  simp [Filter.mean, Filter.isReady]

theorem Filter.put_filling {n : Numerics} {w : Nat} {f : Filter} (h : f.count < w) (v : Scalar) :
    f.put n w v = ⟨f.buf.set f.head v, (f.head + 1) % w, f.count + 1, n.add f.sum v⟩ := if_pos h

theorem Filter.put_full {n : Numerics} {w : Nat} {f : Filter} (h : w ≤ f.count) (v : Scalar) :
    f.put n w v =
      ⟨f.buf.set f.head v, (f.head + 1) % w, f.count, n.sub (n.add f.sum v) (f.buf.getD f.head 0)⟩ :=
  if_neg (Nat.not_lt.mpr h)

/-- A cleared filter is sound, whatever its buffer holds (R80). -/
theorem Filter.cleared_ok {n : Numerics} {w : Nat} {f : Filter} (hw : 1 ≤ w) (hb : f.buf.length = w) :
    FilterOk n w f.cleared :=
  ⟨hb, hw, Nat.zero_le _, fun _ => rfl, fun _ => by simp [Filter.cleared]⟩

/-- The sum of a list after one of its places is replaced. -/
theorem sum_set {l : List Scalar} {i : Nat} (h : i < l.length) (v : Scalar) :
    (l.set i v).sum = l.sum + v - l.getD i 0 := by
  induction l generalizing i with
  | nil => simp at h
  | cons a l ih =>
    cases i with
    | zero => simp; ring
    | succ i =>
      simp only [List.length_cons, Nat.add_lt_add_iff_right] at h
      simp only [List.set_cons_succ, List.sum_cons, List.getD_cons_succ, ih h]
      ring

/-- MAF.PUT keeps the invariant of R83: under exact NUM the sum is that of the values held. -/
theorem Filter.put_ok {n : Numerics} {w : Nat} {f : Filter} (h : FilterOk n w f) (v : Scalar) :
    FilterOk n w (f.put n w v) := by
  have hlt := h.head_lt
  have hlen := h.buf_length
  rcases Nat.lt_or_ge f.count w with hc | hc
  · have hh := h.filling hc
    rw [Filter.put_filling hc]
    refine ⟨by simpa using hlen, Nat.mod_lt _ (by omega), hc, fun h' => ?_, fun hn => ?_⟩
    · simp only at h' ⊢
      rw [hh, Nat.mod_eq_of_lt h']
    · simp only
      rw [hh, List.take_succ_eq_append_getElem (by simp; omega), List.take_set_of_le (le_refl _), List.sum_append,
        ← h.sum_eq hn, hn]
      simp
  · have hc' : f.count = w := le_antisymm h.count_le hc
    rw [Filter.put_full hc]
    refine ⟨by simpa using hlen, Nat.mod_lt _ (by omega), h.count_le, fun h' => absurd h' (by simp only; omega),
      fun hn => ?_⟩
    simp only
    have hs := h.sum_eq hn
    rw [hc', List.take_of_length_le (by omega)] at hs
    rw [hc', List.take_of_length_le (by simp; omega), sum_set (by omega), hs, hn]
    rfl

/-! ### AttitudeEstimator (R90 to R94) -/

/-- The divisor of the means is the thousand itself, for every NUM. -/
theorem meanOf_eq (n : Numerics) (l : List Scalar) : meanOf n l = n.div (n.sum l) 1000 := by
  unfold meanOf
  rw [n.ofInt_eq (by decide) (by decide)]
  rfl

theorem Calib.restart_ok {c : Calib} (h : CalibOk c) : CalibOk c.restart :=
  ⟨h.buf_length, Nat.zero_le _, by simp [Calib.restart, calCap]⟩

theorem Calib.take_ready {c : Calib} (h : c.ready = true) (g : Vec3) : c.take g = c := if_pos h

theorem Calib.take_collecting {c : Calib} (h : c.ready = false) (g : Vec3) :
    c.take g = ⟨c.buf.set c.count g, c.count + 1, c.count + 1 == calCap⟩ := if_neg (by simp [h])

/-- The calibration step keeps the count within the capacity (R94). -/
theorem Calib.take_ok {c : Calib} (h : CalibOk c) (g : Vec3) : CalibOk (c.take g) := by
  cases hr : c.ready with
  | true => rw [Calib.take_ready hr]; exact h
  | false =>
    have hlt : c.count ≠ calCap := by
      have := h.ready_iff
      rw [hr] at this
      simpa using this.symm
    rw [Calib.take_collecting hr]
    exact ⟨by simpa using h.buf_length, by have := h.count_le; simp only; omega, rfl⟩

/-! ### MotorMixer (R139, R140) -/

/-- Without amplification every motor's product is zero, if zeros stay zeros (R135 to R137). -/
theorem mixOf_amp_zero {cfg : Cfg} (hn : cfg.num.KeepsZero) {vf : Option Scalar} (ha : ampOf cfg vf = 0) (i : Fin 4)
    (thr : Int) (rud ele ail : Scalar) : mixOf cfg i thr rud ele ail vf = 0 := by
  simp only [mixOf, mixRow, ha, (hn.1 _).1, (hn.1 _).2, hn.2]

/-- Without corrections it depends on the throttle column only, and without throttle it is zero (R136, R137). -/
theorem mixOf_throttle {cfg : Cfg} (hn : cfg.num.KeepsZero) (i : Fin 4) (thr : Int) (vf : Option Scalar) :
    mixOf cfg i thr 0 0 0 vf =
      mixRow cfg.num ⟨(cfg.mix.get i).thr, 0, 0, 0⟩ (cfg.num.mul (ampOf cfg vf) (cfg.num.ofInt thr)) 0 0 0 := by
  simp only [mixOf, mixRow, (hn.1 _).2]

theorem mixOf_zero {cfg : Cfg} (hn : cfg.num.KeepsZero) (i : Fin 4) (vf : Option Scalar) :
    mixOf cfg i 0 0 0 0 vf = 0 := by
  rw [mixOf_throttle hn, cfg.num.ofInt_eq (by decide) (by decide), Int.cast_zero]
  simp only [mixRow, (hn.1 _).2, hn.2]

/-- The four outputs of duties, in motor order. -/
def dutyOutputs (d : Quad Nat) : List Output := [.duty 0 d.m0, .duty 1 d.m1, .duty 2 d.m2, .duty 3 d.m3]

/-- MIX.RUN is its computation, the four outputs, and the four mirrors. -/
theorem runEvents_mixRun (compute : Event) (s : State) :
    runEvents (mixRunEvents compute) s =
      (((({ compute s with
        dutyOut := (compute s).lt.duty, out := (compute s).out ++ dutyOutputs (compute s).lt.duty }.setX
          .motor0 (BitVec.ofNat 16 (compute s).lt.duty.m0)).setX
          .motor1 (BitVec.ofNat 16 (compute s).lt.duty.m1)).setX
          .motor2 (BitVec.ofNat 16 (compute s).lt.duty.m2)).setX
          .motor3 (BitVec.ofNat 16 (compute s).lt.duty.m3)) := by
  have ho : (runEvents (mixRunEvents compute) s).out = (compute s).out ++ dutyOutputs (compute s).lt.duty := by
    change ((((compute s).out ++ _) ++ _) ++ _) ++ _ = _
    simp only [List.append_assoc]
    rfl
  have h : runEvents (mixRunEvents compute) s = { runEvents (mixRunEvents compute) s with
      out := (runEvents (mixRunEvents compute) s).out } := rfl
  rw [h, ho]
  rfl

/-- One motor's raw duty, latched and output (R140). -/
def State.rawOut (s : State) (i : Fin 4) (d : Nat) : State :=
  { s with
    lt := { s.lt with duty := s.lt.duty.set i d }
    dutyOut := s.dutyOut.set i d
    out := s.out ++ [.duty i d] }

/-- The read and the output of one motor in test mode. -/
theorem rawPair (en : Word) (i : Fin 4) (s : State) (v : Word) (hv : s.x (.motor i) = v) :
    outputEvent i (rawEvent (fun _ => en) i s) = s.rawOut i (rawDuty en v) := by
  subst hv
  unfold outputEvent rawEvent State.outputDuty State.emit State.rawOut
  simp only [Quad.get_set, if_true]

theorem State.rawOut_x (s : State) (i : Fin 4) (d : Nat) (r : Reg) : (s.rawOut i d).x r = s.x r := rfl

/-- The four motors in turn. -/
theorem rawFour (s : State) (a b c d : Nat) : (((s.rawOut 0 a).rawOut 1 b).rawOut 2 c).rawOut 3 d =
  { s with lt := { s.lt with duty := ⟨a, b, c, d⟩ }, dutyOut := ⟨a, b, c, d⟩, out := s.out ++ dutyOutputs ⟨a, b, c, d⟩ } := by
  unfold State.rawOut
  simp only [List.append_assoc]
  rfl

/-- MIX.TEST is the four raw duties and their outputs (R140). -/
theorem runEvents_mixTest (en : Word) (s : State) :
    runEvents (mixTestEvents fun _ => en) s =
      let d : Quad Nat := ⟨rawDuty en (s.x .motor0), rawDuty en (s.x .motor1), rawDuty en (s.x .motor2),
        rawDuty en (s.x .motor3)⟩
      { s with lt := { s.lt with duty := d }, dutyOut := d, out := s.out ++ dutyOutputs d } := by
  unfold mixTestEvents
  rw [runEvents_cons, runEvents_cons, rawPair en 0 _ (s.x .motor0), runEvents_cons, runEvents_cons,
    rawPair en 1 _ (s.x .motor1), runEvents_cons, runEvents_cons, rawPair en 2 _ (s.x .motor2),
    runEvents_cons, runEvents_cons, rawPair en 3 _ (s.x .motor3), runEvents_nil]
  · exact rawFour s _ _ _ _
  all_goals rfl

/-- The register of each motor. -/
theorem Reg.motor_cases (P : Reg → Prop) (h0 : P .motor0) (h1 : P .motor1) (h2 : P .motor2) (h3 : P .motor3)
    (i : Fin 4) : P (.motor i) := by
  fin_cases i
  · exact h0
  · exact h1
  · exact h2
  · exact h3

/-! ### EST.UPDATE (R92) -/

/-- EST.UPDATE is what is local, then the nine telemetry writes. -/
theorem runEvents_estUpdate (s : State) :
    runEvents estUpdateEvents s =
      let u := s.sense
      let p := u.lt.sample
      let c := s.cfg
      (((((((((u.setX .attYaw (toReg c (c.num.div p.yaw c.angleUnit))).setX
        .attPitch (toReg c (c.num.div p.pitch c.angleUnit))).setX
        .attRoll (toReg c (c.num.div p.roll c.angleUnit))).setX
        .rotX (toReg c (c.num.mul p.rate.v0 c.rotRegScale))).setX
        .rotY (toReg c (c.num.mul p.rate.v1 c.rotRegScale))).setX
        .rotZ (toReg c (c.num.mul p.rate.v2 c.rotRegScale))).setX
        .accX (toReg c (c.num.mul p.acc.v0 c.accRegScale))).setX
        .accY (toReg c (c.num.mul p.acc.v1 c.accRegScale))).setX
        .accZ (toReg c (c.num.mul p.acc.v2 c.accRegScale))) := rfl

end Sys2Proof.Machine
end

