-- ==== Sys2Proof/Laws/Steps.lean ====
section
/-! SUPPORT. What a step can do, said once (`step_cases`), and the parts of the invariant each event keeps. -/

namespace Sys2Proof.Machine

/-! ### The part of the invariant that is about the units and the bank -/

/-- Soundness of everything but the agents' progress. -/
structure Sound (s : State) : Prop where
  cfg : s.cfg.Ok
  memory : Memory.wf s.cfg.n s.regs = true
  filter : FilterOk s.cfg.num s.cfg.wBatt s.bf
  calib : CalibOk s.cal
  duty : DutiesOk s.lt.duty
  dutyOut : DutiesOk s.dutyOut

theorem State.Ok.sound {s : State} (h : s.Ok) : Sound s :=
  ⟨h.cfg, h.memory, h.filter, h.calib, h.duty, h.dutyOut⟩

/-- Soundness is about these fields only. -/
theorem Sound.congr {s t : State} (h : Sound s) (hc : t.cfg = s.cfg) (hl : t.regs.length = s.regs.length)
    (hb : t.bf = s.bf) (hk : t.cal = s.cal) (hd : t.lt.duty = s.lt.duty) (ho : t.dutyOut = s.dutyOut) : Sound t := by
  obtain ⟨h1, h2, h3, h4, h5, h6⟩ := h
  refine ⟨hc ▸ h1, ?_, ?_, hk ▸ h4, hd ▸ h5, ho ▸ h6⟩
  · have := memory_length h2
    simp [Memory.wf, hc, hl, this]
  · rw [hc, hb]
    exact h3

theorem Sound.setX {s : State} (h : Sound s) (r : Reg) (v : Word) : Sound (s.setX r v) :=
  h.congr rfl (by simp) rfl rfl rfl rfl

theorem DutiesOk.set {q : Quad Nat} (h : DutiesOk q) (i : Fin 4) {d : Nat} (hd : (d : Int) ≤ dutyMax) :
    DutiesOk (q.set i d) := by
  intro j
  rw [Quad.get_set]
  split
  · exact hd
  · exact h j

theorem Sound.outputDuty {s : State} (h : Sound s) (i : Fin 4) : Sound (s.outputDuty i (s.lt.duty.get i)) :=
  ⟨h.cfg, h.memory, h.filter, h.calib, h.duty, h.dutyOut.set i (h.duty i)⟩

/-- The four duties of the mixer are duties of the port (R138, R144). -/
theorem computeDuties_ok (s : State) (thr : Int) (rud ele ail : Scalar) (vf : Option Scalar) :
    DutiesOk (s.computeDuties thr rud ele ail vf).lt.duty := by
  have hc := ceilingOf_range (s.x .limit)
  intro i
  have := fun m => dutyOf_le s.cfg hc.1 hc.2 m
  fin_cases i <;> exact le_trans (this _) hc.2

theorem rawDuty_le (en v : Word) : (rawDuty en v : Int) ≤ dutyMax := by
  unfold rawDuty
  split
  · rw [clampInt_eq (by decide)]
    simp only [dutyMax]
    omega
  · decide

/-! ### Every event keeps it -/

theorem estUpdate_sound : ∀ e ∈ estUpdateEvents, ∀ s, Sound s → Sound (e s) := by
  intro e he s h
  simp only [estUpdateEvents, List.mem_cons, List.not_mem_nil, or_false] at he
  rcases he with rfl | rfl | rfl | rfl | rfl | rfl | rfl | rfl | rfl | rfl
  · exact ⟨h.cfg, h.memory, h.filter, Calib.take_ok h.calib _, h.duty, h.dutyOut⟩
  all_goals exact h.setX _ _

theorem ctlRun_sound (f : State → AttitudeSample) (g : State → Vec3) :
    ∀ e ∈ ctlRunEvents f g, ∀ s, Sound s → Sound (e s) := by
  intro e he s h
  simp only [ctlRunEvents, List.mem_cons, List.not_mem_nil, or_false] at he
  rcases he with rfl | rfl | rfl | rfl | rfl | rfl | rfl <;> exact h.congr rfl rfl rfl rfl rfl rfl

theorem mixRun_sound (thr : State → Int) (rud ele ail : State → Scalar) (vf : State → Option Scalar) :
    ∀ e ∈ mixRunEvents (fun s => s.computeDuties (thr s) (rud s) (ele s) (ail s) (vf s)),
      ∀ s, Sound s → Sound (e s) := by
  intro e he s h
  simp only [mixRunEvents, List.mem_cons, List.not_mem_nil, or_false] at he
  rcases he with rfl | rfl | rfl | rfl | rfl | rfl | rfl | rfl | rfl
  · exact ⟨h.cfg, h.memory, h.filter, h.calib, computeDuties_ok s _ _ _ _ _, h.dutyOut⟩
  all_goals first | exact h.setX _ _ | exact h.outputDuty _

theorem mixTest_sound (en : State → Word) : ∀ e ∈ mixTestEvents en, ∀ s, Sound s → Sound (e s) := by
  intro e he s h
  simp only [mixTestEvents, List.mem_cons, List.not_mem_nil, or_false] at he
  rcases he with rfl | rfl | rfl | rfl | rfl | rfl | rfl | rfl
  all_goals first
    | exact h.outputDuty _
    | exact ⟨h.cfg, h.memory, h.filter, h.calib, h.duty.set _ (rawDuty_le _ _), h.dutyOut⟩

theorem onlyIf_sound {c : State → Bool} {es : List Event} (h : ∀ e ∈ es, ∀ s, Sound s → Sound (e s)) :
    ∀ e ∈ es.map (Event.onlyIf c), ∀ s, Sound s → Sound (e s) := by
  intro e he s hs
  obtain ⟨e', he', rfl⟩ := List.mem_map.mp he
  unfold Event.onlyIf
  split
  · exact h e' he' s hs
  · exact hs

/-- Every event of every tick step keeps soundness. -/
theorem tickEvents_sound (p : Phase) : ∀ e ∈ tickEvents p, ∀ s, Sound s → Sound (e s) := by
  cases p with
  | t6 => exact estUpdate_sound
  | t10 =>
    intro e he s h
    rcases List.mem_cons.mp he with rfl | he
    · exact h.congr rfl rfl rfl rfl rfl rfl
    · exact onlyIf_sound (ctlRun_sound _ _) e he s h
  | t11 =>
    intro e he s h
    rcases List.mem_cons.mp he with rfl | he
    · exact h.congr rfl rfl rfl rfl rfl rfl
    · rcases List.mem_append.mp he with he | he
      · exact onlyIf_sound (mixTest_sound _) e he s h
      · exact onlyIf_sound (mixRun_sound _ _ _ _ _) e he s h
  | t1 =>
    intro e he s h
    simp only [tickEvents, t1Events, List.mem_cons, List.not_mem_nil, or_false] at he
    rcases he with rfl | rfl | rfl | rfl
    · exact h.congr rfl rfl rfl rfl rfl rfl
    · exact ⟨h.cfg, h.memory, Filter.put_ok h.filter _, h.calib, h.duty, h.dutyOut⟩
    · exact h.setX _ _
    · simp only
      split
      · exact h.setX _ _
      · exact h
  | t2 =>
    intro e he s h
    simp only [tickEvents, t2Events, List.mem_cons, List.not_mem_nil, or_false] at he
    rcases he with rfl | rfl <;> exact h.congr rfl rfl rfl rfl rfl rfl
  | t3 =>
    intro e he s h
    simp only [tickEvents, t3Events, List.mem_cons, List.not_mem_nil, or_false] at he
    subst he
    simp only
    split
    · exact h.congr rfl rfl rfl rfl rfl rfl
    · exact h
  | t4 =>
    intro e he s h
    simp only [tickEvents, t4Events, List.mem_cons, List.not_mem_nil, or_false] at he
    rcases he with rfl | rfl
    · exact h.congr rfl rfl rfl rfl rfl rfl
    · exact h.setX _ _
  | t5 =>
    intro e he s h
    simp only [tickEvents, t5Events, List.mem_cons, List.not_mem_nil, or_false] at he
    rcases he with rfl | rfl | rfl
    · exact h.congr rfl rfl rfl rfl rfl rfl
    · simp only
      split
      · have h' : Sound { s with cal := s.cal.restart } :=
          ⟨h.cfg, h.memory, h.filter, Calib.restart_ok h.calib, h.duty, h.dutyOut⟩
        exact h'.setX _ _
      · split
        · exact h.setX _ _
        · exact h
    · simp only
      split
      · exact h.congr rfl rfl rfl rfl rfl rfl
      · split
        · exact h.congr rfl rfl rfl rfl rfl rfl
        · exact h
  | t7 =>
    intro e he s h
    simp only [tickEvents, t7Events, List.mem_cons, List.not_mem_nil, or_false] at he
    rcases he with rfl | rfl
    · exact h.congr rfl rfl rfl rfl rfl rfl
    · simp only
      split
      · exact h.setX _ _
      · exact h
  | t8 =>
    intro e he s h
    simp only [tickEvents, t8Events, List.mem_cons, List.not_mem_nil, or_false] at he
    rcases he with rfl | rfl | rfl | rfl | rfl | rfl | rfl | rfl
    all_goals exact h.congr rfl (by simp) rfl rfl rfl rfl
  | t9 =>
    intro e he s h
    simp only [tickEvents, t9Events, List.mem_cons, List.not_mem_nil, or_false] at he
    subst he
    exact h.congr rfl rfl rfl rfl rfl rfl
  | t12 =>
    intro e he s h
    simp only [tickEvents, t12Events, List.mem_cons, List.not_mem_nil, or_false] at he
    rcases he with rfl | rfl | rfl <;> exact h.congr rfl (by simp) rfl rfl rfl rfl
  | t13 =>
    intro e he s h
    simp only [tickEvents, t13Events, List.mem_cons, List.not_mem_nil, or_false] at he
    rcases he with rfl | rfl
    · exact h.congr rfl rfl rfl rfl rfl rfl
    · simp only
      split
      · exact h.congr rfl rfl rfl rfl rfl rfl
      · split <;> exact h.congr rfl rfl rfl rfl rfl rfl

theorem PktFrame.sound {s t : State} (h : PktFrame s t) (hs : Sound s) : Sound t :=
  hs.congr h.cfg h.length h.bf h.cal (by rw [h.lt]) h.dutyOut

/-! ### Calls by label -/

theorem ofOption_eq_ok {o : Option Instr} {i : Instr} : Decoded.ofOption o = .ok i ↔ o = some i := by
  cases o <;> simp [Decoded.ofOption]

/-- No label of R73 names a wire command (R70). -/
theorem decodeCall_not_wire {c : Call} {i : Instr} (h : decodeCall c = .ok i) : isWireCommand i = false := by
  unfold decodeCall at h
  split at h <;>
    simp only [ofOption_eq_ok, Option.map_eq_some_iff, Option.bind_eq_some_iff, Decoded.ok.injEq, reduceCtorEq] at h
  all_goals first
    | (subst h; rfl)
    | (obtain ⟨_, _, rfl⟩ := h; rfl)
    | (obtain ⟨_, _, _, _, rfl⟩ := h; rfl)

/-- An operation run on its own leaves both agents where they are (log 9). -/
theorem exec_operation {i : Instr} (hw : isWireCommand i = false) (hp : phaseOf i = none) (s : State) :
    ∃ t, exec i s = .next t ∧ TickFrame s t := by
  cases i with
  | rd _ => cases hw
  | wr _ _ => cases hw
  | brd _ _ => cases hw
  | bwr _ _ => cases hw
  | echo _ => cases hw
  | rbWrite id v =>
    refine ⟨_, rfl, ⟨rfl, ?_, rfl, rfl, rfl, rfl, rfl, rfl, rfl, rfl, rfl, rfl, List.prefix_refl _, le_refl _⟩⟩
    simp only [regWrite]
    split <;> simp
  | estUpdate => exact ⟨_, rfl, runEvents_relates TickFrame.refl TickFrame.trans estUpdate_frame s⟩
  | ctlRun p g =>
    refine ⟨_, rfl, ?_⟩
    exact .trans (runEvents_relates TickFrame.refl TickFrame.trans (ctlRun_frame (fun _ => p) (fun _ => g)) s) (.of_env rfl (le_refl _))
  | mixRun thr rud ele ail vf =>
    exact ⟨_, rfl, runEvents_relates TickFrame.refl TickFrame.trans
      (mixRun_frame (fun _ => thr) (fun _ => rud) (fun _ => ele) (fun _ => ail) (fun _ => vf)) s⟩
  | mixTest en => exact ⟨_, rfl, runEvents_relates TickFrame.refl TickFrame.trans (mixTest_frame fun _ => en) s⟩
  | tickT1 => cases hp
  | tickT2 => cases hp
  | tickT3 => cases hp
  | tickT4 => cases hp
  | tickT5 => cases hp
  | tickT6 => cases hp
  | tickT7 => cases hp
  | tickT8 => cases hp
  | tickT9 => cases hp
  | tickT10 => cases hp
  | tickT11 => cases hp
  | tickT12 => cases hp
  | tickT13 => cases hp
  | _ => exact ⟨_, rfl, .of_env rfl (le_refl _)⟩

/-- An operation run on its own keeps soundness. -/
theorem exec_operation_sound {i : Instr} (hw : isWireCommand i = false) (hp : phaseOf i = none) {s t : State}
    (h : Sound s) (ht : exec i s = .next t) : Sound t := by
  cases i with
  | rd _ => cases hw
  | wr _ _ => cases hw
  | brd _ _ => cases hw
  | bwr _ _ => cases hw
  | echo _ => cases hw
  | tickT1 => cases hp
  | tickT2 => cases hp
  | tickT3 => cases hp
  | tickT4 => cases hp
  | tickT5 => cases hp
  | tickT6 => cases hp
  | tickT7 => cases hp
  | tickT8 => cases hp
  | tickT9 => cases hp
  | tickT10 => cases hp
  | tickT11 => cases hp
  | tickT12 => cases hp
  | tickT13 => cases hp
  | rbWrite id v =>
    cases ht
    exact h.congr rfl (by simp only [regWrite]; split <;> simp) rfl rfl rfl rfl
  | mafReset =>
    cases ht
    exact ⟨h.cfg, h.memory, Filter.cleared_ok h.cfg.w_pos h.filter.buf_length, h.calib, h.duty, h.dutyOut⟩
  | mafPut v =>
    cases ht
    exact ⟨h.cfg, h.memory, Filter.put_ok h.filter v, h.calib, h.duty, h.dutyOut⟩
  | estInit =>
    cases ht
    exact ⟨h.cfg, h.memory, h.filter, Calib.restart_ok h.calib, h.duty, h.dutyOut⟩
  | estStartCal =>
    cases ht
    exact ⟨h.cfg, h.memory, h.filter, Calib.restart_ok h.calib, h.duty, h.dutyOut⟩
  | estUpdate =>
    cases ht
    exact runEvents_keeps estUpdate_sound h
  | ctlRun p g =>
    cases ht
    exact (runEvents_keeps (ctlRun_sound (fun _ => p) (fun _ => g)) h).congr rfl rfl rfl rfl rfl rfl
  | mixRun thr rud ele ail vf =>
    cases ht
    exact runEvents_keeps
      (mixRun_sound (fun _ => thr) (fun _ => rud) (fun _ => ele) (fun _ => ail) (fun _ => vf)) h
  | mixTest en =>
    cases ht
    exact runEvents_keeps (mixTest_sound fun _ => en) h
  | _ =>
    cases ht
    exact h.congr rfl rfl rfl rfl rfl rfl

/-! ### What a step can do -/

/-- A tick step placed by its label runs like the one `phase` names. -/
theorem exec_phase {i : Instr} {p : Phase} (hp : phaseOf i = some p) (s : State) : exec i s = .next (s.runStep p) := by
  cases i with
  | tickT1 => cases hp; rfl
  | tickT2 => cases hp; rfl
  | tickT3 => cases hp; rfl
  | tickT4 => cases hp; rfl
  | tickT5 => cases hp; rfl
  | tickT6 => cases hp; rfl
  | tickT7 => cases hp; rfl
  | tickT8 => cases hp; rfl
  | tickT9 => cases hp; rfl
  | tickT10 => cases hp; rfl
  | tickT11 => cases hp; rfl
  | tickT12 => cases hp; rfl
  | tickT13 => cases hp; rfl
  | _ => cases hp

/-- Every instruction completes (R200): a wire command, a tick step, or an operation on its own. -/
theorem exec_next (i : Instr) (s : State) : ∃ t, exec i s = .next t := by
  cases hw : isWireCommand i with
  | true => exact ⟨_, exec_wire hw s⟩
  | false =>
    cases hp : phaseOf i with
    | some p => exact ⟨_, exec_phase hp s⟩
    | none => exact (exec_operation hw hp s).imp fun _ h => h.1

/-- The three ways of taking a datagram up: none is there, it is in hand, it is dropped. -/
theorem takeUp_cases {s t : State} (h : s.takeUp = .next t) :
    (s.inbox = [] ∧ t = s) ∨
    (∃ d ds i, s.inbox = d :: ds ∧ decodeDatagram s.cfg.rxMax d.bytes = .ok i ∧
      t = { s with inbox := ds, rx := d, tx := [], pkt := .handling i 0 }) ∨
    (∃ d ds, s.inbox = d :: ds ∧ t = { s with inbox := ds, rx := ⟨0, []⟩, tx := [], pkt := .idle }) := by
  unfold State.takeUp at h
  split at h
  · rename_i hi
    cases h
    exact .inl ⟨hi, rfl⟩
  · rename_i d ds hi
    split at h
    · rename_i i hd
      cases h
      exact .inr (.inl ⟨d, ds, i, hi, hd, rfl⟩)
    · cases h
    all_goals
      cases h
      exact .inr (.inr ⟨d, ds, hi, rfl⟩)

/-- A datagram decodes to a wire command (R70). -/
theorem decodeDatagram_wire {n : Nat} {rx : List Byte} {i : Instr} (h : decodeDatagram n rx = .ok i) :
    isWireCommand i = true := by
  unfold decodeDatagram at h
  repeat' split at h
  all_goals first
    | (cases h; rfl)
    | cases h

/-- Each wire command has at least the two events of its timestamp refresh and one more. -/
theorem pktEvents_length {i : Instr} (h : isWireCommand i = true) (cfg : Cfg) : 0 < (pktEvents cfg i).length := by
  cases i with
  | rd _ => exact Nat.succ_pos _
  | wr _ _ => exact Nat.succ_pos _
  | brd _ _ => exact Nat.succ_pos _
  | bwr _ _ => exact Nat.succ_pos _
  | echo _ => exact Nat.succ_pos _
  | _ => cases h

/-- One event of TICK: the step goes on, or is over. -/
theorem tickOne_cases (s : State) :
    (∃ e ∈ tickEvents s.phase, s.tickOne = { e s with micro := s.micro + 1 } ∧
      s.micro + 1 < (tickEvents s.phase).length) ∨
    (∃ es, (∀ e ∈ es, e ∈ tickEvents s.phase) ∧ s.tickOne = (runEvents es s).endStep s.phase) := by
  have hmem : ∀ e ∈ (tickEvents s.phase).drop s.micro, e ∈ tickEvents s.phase := fun e => List.mem_of_mem_drop
  unfold State.tickOne
  split
  · exact .inr ⟨[], by simp, rfl⟩
  · rename_i e he
    exact .inr ⟨[e], by simpa using hmem e (by simp [he]), rfl⟩
  · rename_i e e' es he
    refine .inl ⟨e, hmem e (by simp [he]), rfl, ?_⟩
    have := congrArg List.length he
    simp only [List.length_drop, List.length_cons] at this
    omega

/-- One event of PKT: the command goes on, or is over. -/
theorem pktOne_cases (s : State) (i : Instr) (k : Nat) :
    (∃ e ∈ pktEvents s.cfg i, s.pktOne i k = { e s with pkt := .handling i (k + 1) } ∧
      k + 1 < (pktEvents s.cfg i).length) ∨
    (∃ es, (∀ e ∈ es, e ∈ pktEvents s.cfg i) ∧ s.pktOne i k = (runEvents es s).endHandling) := by
  have hmem : ∀ e ∈ (pktEvents s.cfg i).drop k, e ∈ pktEvents s.cfg i := fun e => List.mem_of_mem_drop
  unfold State.pktOne
  split
  · exact .inr ⟨[], by simp, rfl⟩
  · rename_i e he
    exact .inr ⟨[e], by simpa using hmem e (by simp [he]), rfl⟩
  · rename_i e e' es he
    refine .inl ⟨e, hmem e (by simp [he]), rfl, ?_⟩
    have := congrArg List.length he
    simp only [List.length_drop, List.length_cons] at this
    omega

/-- A turn of TICK: some events of the step `phase` names, after which the step goes on or is over. -/
theorem tickTurns_cases {s t : State} {turn : Turn} (hturn : turn = .tick ∨ turn = .tickEvent)
    (h : s.takeTurn turn = .next t) :
    ∃ es, (∀ e ∈ es, e ∈ tickEvents s.phase) ∧
      (t = (runEvents es s).endStep s.phase ∨
       (t = { runEvents es s with micro := s.micro + 1 } ∧ s.micro + 1 < (tickEvents s.phase).length)) := by
  rcases hturn with rfl | rfl
  · change s.tickTurn = _ at h
    unfold State.tickTurn at h
    split at h
    · rw [exec_tick] at h
      cases h
      exact ⟨_, fun _ he => he, .inl rfl⟩
    · cases h
      exact ⟨_, fun _ he => List.mem_of_mem_drop he, .inl rfl⟩
  · cases h
    rcases tickOne_cases s with ⟨e, he, ht, hl⟩ | ⟨es, hes, ht⟩
    · exact ⟨[e], by simpa using he, .inr ⟨ht, hl⟩⟩
    · exact ⟨es, hes, .inl ht⟩

/-- Handling the datagram in hand: events of its command, and the handling is over. -/
theorem handleInHand_cases {s t : State} (hp : PktOk s.cfg s.pkt) (h : s.handleInHand = .next t) :
    (t = s ∧ s.pkt = .idle) ∨
    (∃ i k es, s.pkt = .handling i k ∧ (∀ e ∈ es, e ∈ pktEvents s.cfg i) ∧ t = (runEvents es s).endHandling) := by
  unfold State.handleInHand at h
  split at h
  · cases h
    exact .inl ⟨rfl, ‹_›⟩
  · rename_i i hi
    rw [hi] at hp
    rw [exec_wire hp.1] at h
    cases h
    exact .inr ⟨i, 0, _, hi, fun _ he => he, rfl⟩
  · rename_i i k hi
    cases h
    exact .inr ⟨i, k + 1, _, hi, fun _ he => List.mem_of_mem_drop he, rfl⟩

/-- A turn of PKT: perhaps a datagram is taken up, then some events of the command in hand are performed, and it goes on or
is over. -/
theorem pktTurns_cases {s t : State} {turn : Turn} (hp : PktOk s.cfg s.pkt) (hturn : turn = .pkt ∨ turn = .pktEvent)
    (h : s.takeTurn turn = .next t) :
    ∃ u, (u = s ∨ (s.pkt = .idle ∧ s.takeUp = .next u)) ∧ (t = u ∨
      ∃ i k es, u.pkt = .handling i k ∧ (∀ e ∈ es, e ∈ pktEvents u.cfg i) ∧
        (t = (runEvents es u).endHandling ∨
         (t = { runEvents es u with pkt := .handling i (k + 1) } ∧ k + 1 < (pktEvents u.cfg i).length))) := by
  rcases hturn with rfl | rfl
  · change s.pktTurn = _ at h
    unfold State.pktTurn at h
    split at h
    · rcases handleInHand_cases hp h with ⟨rfl, -⟩ | ⟨i, k, es, hi, hes, ht⟩
      · exact ⟨_, .inl rfl, .inl rfl⟩
      · exact ⟨s, .inl rfl, .inr ⟨i, k, es, hi, hes, .inl ht⟩⟩
    · rename_i hidle
      split at h
      · rename_i u hu
        have hpu : PktOk u.cfg u.pkt := by
          rcases takeUp_cases hu with ⟨-, rfl⟩ | ⟨d, ds, i, -, hd, rfl⟩ | ⟨d, ds, -, rfl⟩
          · exact hp
          · exact ⟨decodeDatagram_wire hd, pktEvents_length (decodeDatagram_wire hd) _⟩
          · trivial
        rcases handleInHand_cases hpu h with ⟨rfl, -⟩ | ⟨i, k, es, hi, hes, ht⟩
        · exact ⟨_, .inr ⟨hidle, hu⟩, .inl rfl⟩
        · exact ⟨u, .inr ⟨hidle, hu⟩, .inr ⟨i, k, es, hi, hes, .inl ht⟩⟩
      · cases h
      · cases h
  · change s.pktEventTurn = _ at h
    unfold State.pktEventTurn at h
    split at h
    · exact ⟨t, .inr ⟨‹_›, h⟩, .inl rfl⟩
    · rename_i i k hi
      cases h
      rcases pktOne_cases s i k with ⟨e, he, ht, hl⟩ | ⟨es, hes, ht⟩
      · exact ⟨s, .inl rfl, .inr ⟨i, k, [e], hi, by simpa using he, .inr ⟨ht, hl⟩⟩⟩
      · exact ⟨s, .inl rfl, .inr ⟨i, k, es, hi, hes, .inl ht⟩⟩

/-- Taking a datagram up keeps the frame of PKT. -/
theorem takeUp_frame {s t : State} (h : s.takeUp = .next t) : PktFrame s t := by
  rcases takeUp_cases h with ⟨-, rfl⟩ | ⟨d, ds, i, -, -, rfl⟩ | ⟨d, ds, -, rfl⟩
  · exact .refl _
  all_goals
    exact ⟨rfl, rfl, rfl, rfl, rfl, rfl, rfl, rfl, rfl, rfl, rfl, rfl, rfl, rfl, rfl, rfl, List.prefix_refl _, le_refl _⟩

/-- A turn of PKT keeps the frame of PKT (R206). -/
theorem pktTurn_frame {s t : State} {turn : Turn} (hp : PktOk s.cfg s.pkt) (hturn : turn = .pkt ∨ turn = .pktEvent)
    (h : s.takeTurn turn = .next t) : PktFrame s t := by
  obtain ⟨u, hu, ht⟩ := pktTurns_cases hp hturn h
  have hsu : PktFrame s u := by
    rcases hu with rfl | ⟨-, hu⟩
    · exact .refl _
    · exact takeUp_frame hu
  rcases ht with rfl | ⟨i, k, es, -, hes, rfl | ⟨rfl, -⟩⟩
  · exact hsu
  · exact hsu.trans ((pktEvents_frame hes u).trans (.endHandling _))
  · refine hsu.trans ((pktEvents_frame hes u).trans ?_)
    exact ⟨rfl, rfl, rfl, rfl, rfl, rfl, rfl, rfl, rfl, rfl, rfl, rfl, rfl, rfl, rfl, rfl, List.prefix_refl _, le_refl _⟩

/-- A step: an operation placed in `call`, a turn of TICK, or a turn of PKT. -/
theorem step_cases {s t : State} (h : step s = .next t) :
    (∃ c i, s.call = some c ∧ decodeCall c = .ok i ∧ exec i { s with call := none } = .next t) ∨
    (s.call = none ∧ (s.turn = .tick ∨ s.turn = .tickEvent) ∧ s.afterTurn.takeTurn s.turn = .next t) ∨
    (s.call = none ∧ (s.turn = .pkt ∨ s.turn = .pktEvent) ∧ s.afterTurn.takeTurn s.turn = .next t) := by
  unfold step at h
  split at h
  · rename_i c hc
    unfold State.callTurn at h
    split at h
    · exact .inl ⟨c, _, hc, ‹_›, h⟩
    · cases h
  · rename_i hc
    cases ht : s.turn with
    | tick => exact .inr (.inl ⟨hc, .inl rfl, ht ▸ h⟩)
    | tickEvent => exact .inr (.inl ⟨hc, .inr rfl, ht ▸ h⟩)
    | pkt => exact .inr (.inr ⟨hc, .inl rfl, ht ▸ h⟩)
    | pktEvent => exact .inr (.inr ⟨hc, .inr rfl, ht ▸ h⟩)

/-- With nothing in `call`, a step is a turn. -/
theorem step_turn {s : State} (h : s.call = none) : step s = s.afterTurn.takeTurn s.turn := by
  unfold step
  rw [h]

theorem tickEvents_pos (p : Phase) : 0 < (tickEvents p).length := by
  cases p <;> exact Nat.succ_pos _

end Sys2Proof.Machine
end

