-- ==== Sys2Proof/Laws/Runs.lean ====
section
/-! SUPPORT. Runs of several steps: one step at a time, whole tick steps of a block nobody disturbs, and turns of one
event, with the fields of the model that no event reads. -/

namespace Sys2Proof.Machine

/-- A run begins with its first step. -/
theorem run_next {s t : State} {k : Nat} (h : core.step s = .next t) : core.run (k + 1) s = core.run k t := by
  simp only [Host.Core.run]
  rw [h]

/-! ### Whole tick steps -/

/-- A block nobody disturbs performs its next tick step whole (R170). -/
theorem step_undisturbed {s : State} (h : s.Undisturbed) (hm : s.micro = 0) :
    step s = .next (s.afterTurn.runStep s.phase) := by
  obtain ⟨hc, ha, hi, hp⟩ := h
  have ht : s.turn = .tick := by
    unfold State.turn State.pktBusy
    rw [ha, hp, hi]
    rfl
  rw [step_turn hc, ht]
  change s.afterTurn.tickTurn = _
  unfold State.tickTurn
  have hm' : s.afterTurn.micro = 0 := hm
  split
  · exact exec_tick _ _
  · omega

/-- After that step nobody disturbs it either, and the next step is the one after it. -/
theorem runStep_undisturbed {s : State} (h : s.Undisturbed) (p : Phase) :
    (s.afterTurn.runStep p).Undisturbed ∧ (s.afterTurn.runStep p).micro = 0 ∧
      (s.afterTurn.runStep p).phase = p.next := by
  obtain ⟨hc, ha, hi, hp⟩ := h
  have hf := tickStep_frame p s.afterTurn
  have hnil : s.afterTurn.agenda = [] := by
    change s.agenda.tail = []
    rw [ha]
    rfl
  exact ⟨⟨hf.call.trans hc, hf.agenda.trans hnil, hf.inbox.trans hi, hf.pkt.trans hp⟩, rfl, rfl⟩

/-- One tick step of a run. -/
theorem run_undisturbed {s : State} {p : Phase} {n : Nat} (h : s.Undisturbed) (hm : s.micro = 0) (hp : s.phase = p) :
    core.run (n + 1) s = core.run n (s.afterTurn.runStep p) := by
  have hs : core.step s = .next (s.afterTurn.runStep p) := by
    rw [← hp]
    exact step_undisturbed h hm
  exact run_next hs

/-! ### One event at a time -/

/-- TICK's turn of one event, where the agenda plans it. -/
theorem step_tickEvent {s : State} {rest : List Turn} (hc : s.call = none) (ha : s.agenda = .tickEvent :: rest) :
    step s = .next s.afterTurn.tickOne := by
  rw [step_turn hc]
  have : s.turn = .tickEvent := by
    unfold State.turn
    rw [ha]
  rw [this]
  rfl

/-- PKT's turn of one event of the command in hand, where the agenda plans it. -/
theorem step_pktEvent {s : State} {rest : List Turn} {i : Instr} {k : Nat} (hc : s.call = none)
    (ha : s.agenda = .pktEvent :: rest) (hp : s.pkt = .handling i k) : step s = .next (s.afterTurn.pktOne i k) := by
  rw [step_turn hc]
  have : s.turn = .pktEvent := by
    unfold State.turn
    rw [ha]
  rw [this]
  change s.afterTurn.pktEventTurn = _
  unfold State.pktEventTurn
  have : s.afterTurn.pkt = .handling i k := hp
  rw [this]

/-- A state with another agenda and another count of events done. -/
def State.placed (s : State) (a : List Turn) (m : Nat) : State := { s with agenda := a, micro := m }

/-- An event that neither reads nor writes those two. -/
def AgendaFree (e : Event) : Prop := ∀ s a m, e (State.placed s a m) = State.placed (e s) a m

theorem onlyIf_agendaFree {c : State → Bool} {es : List Event} (hc : ∀ s a m, c (State.placed s a m) = c s)
    (h : ∀ e ∈ es, AgendaFree e) : ∀ e ∈ es.map (Event.onlyIf c), AgendaFree e := by
  intro e he s a m
  obtain ⟨e', he', rfl⟩ := List.mem_map.mp he
  unfold Event.onlyIf
  rw [hc]
  split
  · exact h e' he' s a m
  · rfl

/-- No event of a tick step reads or writes the agenda or the count of events done. -/
theorem tickEvents_agendaFree (p : Phase) : ∀ e ∈ tickEvents p, AgendaFree e := by
  intro e he s a m
  cases p with
  | t1 =>
    simp only [tickEvents, t1Events, List.mem_cons, List.not_mem_nil, or_false] at he
    rcases he with rfl | rfl | rfl | rfl
    · rfl
    · rfl
    · rfl
    · have hv : (State.placed s a m).lt.vf = s.lt.vf := rfl
      simp only [hv]
      cases s.lt.vf <;> rfl
  | t2 =>
    simp only [tickEvents, t2Events, List.mem_cons, List.not_mem_nil, or_false] at he
    rcases he with rfl | rfl <;> rfl
  | t3 =>
    simp only [tickEvents, t3Events, List.mem_cons, List.not_mem_nil, or_false] at he
    subst he
    change (if lowBattery s.cfg s.lt.vf (s.x .battLowThreshold) then _ else _) = _
    simp only
    split <;> rfl
  | t4 =>
    simp only [tickEvents, t4Events, List.mem_cons, List.not_mem_nil, or_false] at he
    rcases he with rfl | rfl <;> rfl
  | t5 =>
    simp only [tickEvents, t5Events, List.mem_cons, List.not_mem_nil, or_false] at he
    rcases he with rfl | rfl | rfl
    · rfl
    all_goals
      change (if s.loc.calib = 1 then _ else if s.loc.calib = 2 ∧ s.cal.ready = true then _ else _) = _
      simp only
      split
      · rfl
      · split <;> rfl
  | t6 =>
    simp only [tickEvents, t6Events, estUpdateEvents, List.mem_cons, List.not_mem_nil, or_false] at he
    rcases he with rfl | rfl | rfl | rfl | rfl | rfl | rfl | rfl | rfl | rfl <;> rfl
  | t7 =>
    simp only [tickEvents, t7Events, List.mem_cons, List.not_mem_nil, or_false] at he
    rcases he with rfl | rfl
    · rfl
    · change (if commTimeout s.cfg s.lt.tStart s.loc.seenRx then _ else _) = _
      simp only
      split <;> rfl
  | t8 =>
    simp only [tickEvents, t8Events, List.mem_cons, List.not_mem_nil, or_false] at he
    rcases he with rfl | rfl | rfl | rfl | rfl | rfl | rfl | rfl <;> rfl
  | t9 =>
    simp only [tickEvents, t9Events, List.mem_cons, List.not_mem_nil, or_false] at he
    subst he; rfl
  | t10 =>
    rcases List.mem_cons.mp he with rfl | he
    · rfl
    · refine onlyIf_agendaFree ?_ ?_ e he s a m
      · intro s a m; rfl
      intro e he s a m
      simp only [ctlRunEvents, List.mem_cons, List.not_mem_nil, or_false] at he
      rcases he with rfl | rfl | rfl | rfl | rfl | rfl | rfl <;> rfl
  | t11 =>
    rcases List.mem_cons.mp he with rfl | he
    · rfl
    · rcases List.mem_append.mp he with he | he
      · refine onlyIf_agendaFree (fun s a m => rfl) ?_ e he s a m
        intro e he s a m
        simp only [mixTestEvents, List.mem_cons, List.not_mem_nil, or_false] at he
        rcases he with rfl | rfl | rfl | rfl | rfl | rfl | rfl | rfl <;> rfl
      · refine onlyIf_agendaFree (fun s a m => rfl) ?_ e he s a m
        intro e he s a m
        simp only [mixRunEvents, List.mem_cons, List.not_mem_nil, or_false] at he
        rcases he with rfl | rfl | rfl | rfl | rfl | rfl | rfl | rfl | rfl <;> rfl
  | t12 =>
    simp only [tickEvents, t12Events, List.mem_cons, List.not_mem_nil, or_false] at he
    rcases he with rfl | rfl | rfl <;> rfl
  | t13 =>
    simp only [tickEvents, t13Events, List.mem_cons, List.not_mem_nil, or_false] at he
    rcases he with rfl | rfl
    · rfl
    · change (if s.loc.now ≤ s.deadline then _ else if s.loc.now - s.deadline < s.cfg.period then _ else _) = _
      simp only
      split
      · rfl
      · split <;> rfl

/-- No event of a command reads or writes the agenda or the stage, but for ending the handling. -/
theorem IsPktEvent.agendaFree {e : Event} (h : IsPktEvent e) (s : State) (a : List Turn) (p : PktStage) :
    { e { s with agenda := a, pkt := p } with agenda := a, pkt := p } = { e s with agenda := a, pkt := p } := by
  cases h <;> rfl

/-! ### Motors at rest -/

/-- A zero in the mixer is a zero duty, whatever LIMIT holds (R138, R141). -/
theorem dutyOf_zero (cfg : Cfg) (limit : Word) : dutyOf cfg (ceilingOf limit) 0 = 0 := by
  have hc := ceilingOf_range limit
  have hd := dutyOf_eq cfg hc.1 0
  have h0 : (0 : Scalar) ≤ (ceilingOf limit : Scalar) := by exact_mod_cast hc.1
  rw [min_eq_left h0, max_self] at hd
  have h := toRegInt_intCast cfg (k := 0) (by omega) (by omega)
  rw [Int.cast_zero] at h
  omega

end Sys2Proof.Machine
end

