-- ==== Sys2Proof/Laws/Ticks.lean ====
section
/-! SUPPORT. The tick steps with a choice in them, each as one choice between whole results (R171, R173, R175, R177, R180,
R181, R183). -/

namespace Sys2Proof.Machine

/-- The local part of T1: the two draws and the filter (R171). -/
def State.measured (s : State) : State :=
  let adc := s.env.afterClock.adcValue s.cfg.adcBits
  let bf := s.bf.put s.cfg.num s.cfg.wBatt (battVolt s.cfg adc)
  { s with
    env := s.env.afterClock.afterAdc, bf := bf
    lt := { s.lt with tStart := s.env.clockValue, adc := adc, vf := bf.mean s.cfg.num s.cfg.wBatt } }

/-- T1 by whether the filter is ready (R171). -/
theorem runStep_t1 (s : State) : s.runStep .t1 =
    match s.measured.lt.vf with
    | some f => ((s.measured.setX .battRaw (toReg s.cfg (s.cfg.num.ofInt s.measured.lt.adc))).setX
        .battFiltered (toReg s.cfg (s.cfg.num.mul f s.cfg.battRegScale))).endStep .t1
    | none => (s.measured.setX .battRaw (toReg s.cfg (s.cfg.num.ofInt s.measured.lt.adc))).endStep .t1 := by
  simp only [State.runStep, tickEvents, t1Events, runEvents_cons, runEvents_nil, State.setX_lt]
  change (match s.measured.lt.vf with | some f => _ | none => _ : State).endStep .t1 = _
  cases s.measured.lt.vf <;> rfl

/-- T3 by the test of X4 (R173). -/
theorem runStep_t3 (s : State) : s.runStep .t3 =
    if lowBattery s.cfg s.lt.vf (s.x .battLowThreshold) then { s with ap := s.ap.entered s.lt.tStart }.endStep .t3
    else s.endStep .t3 := by
  simp only [State.runStep, tickEvents, t3Events, runEvents_cons, runEvents_nil]
  split <;> rfl

/-- T5 by its three branches (R175). -/
theorem runStep_t5 (s : State) : s.runStep .t5 =
    if s.x .calib = 1 then (({ s with cal := s.cal.restart }.setX .calib 2).setIndicator .calibrating).endStep .t5
    else if s.x .calib = 2 ∧ s.cal.ready = true then ((s.setX .calib 0).setIndicator .ready).endStep .t5
    else s.endStep .t5 := by
  simp only [State.runStep, tickEvents, t5Events, runEvents_cons, runEvents_nil]
  by_cases h1 : s.x .calib = 1
  · simp only [h1, if_true, State.setX_loc]
    rfl
  · by_cases h2 : s.x .calib = 2 ∧ s.cal.ready = true
    · obtain ⟨h2, h3⟩ := h2
      simp only [h2, h3, show (2 : Word) ≠ 1 by decide, if_false, true_and, if_true, State.setX_loc, State.setX_cal]
      rfl
    · simp only [if_neg h1, if_neg h2]
      rfl

/-- T7 by the test of X3 (R177). -/
theorem runStep_t7 (s : State) : s.runStep .t7 =
    if commTimeout s.cfg s.lt.tStart s.lastRx then (s.setX .enable 0).endStep .t7 else s.endStep .t7 := by
  simp only [State.runStep, tickEvents, t7Events, runEvents_cons, runEvents_nil]
  split <;> rfl

/-- The channels cleared, as T10 begins (R180). -/
def State.channelsCleared (s : State) : State := { s with lt := { s.lt with rud := 0, ele := 0, ail := 0 } }

/-- T10 by whether the vehicle is armed (R180, R184). -/
theorem runStep_t10 (s : State) : s.runStep .t10 =
    if s.armed then (runEvents (ctlRunEvents (fun _ => s.lt.sample) (fun _ => s.lt.tgt)) s.channelsCleared).endStep .t10
    else s.channelsCleared.endStep .t10 := by
  have he : tickEvents .t10 = State.channelsCleared ::
    (ctlRunEvents (fun s => s.lt.sample) (fun s => s.lt.tgt)).map (Event.onlyIf State.armed) := rfl
  rw [State.runStep, he, runEvents_cons]
  cases h : s.armed with
  | true =>
    rw [runEvents_onlyIf_true (show State.armed s.channelsCleared = true from h)]
    · rfl
    · intro e he t
      simp only [ctlRunEvents, List.mem_cons, List.not_mem_nil, or_false] at he
      rcases he with rfl | rfl | rfl | rfl | rfl | rfl | rfl <;> rfl
  | false =>
    rw [runEvents_onlyIf_false (show State.armed s.channelsCleared = false from h)]
    rfl

/-- The events of MIX.TEST and MIX.RUN leave the step's locals alone. -/
theorem mix_keeps_loc {es : List Event} {en : State → Word} {compute : Event} (hc : ∀ t, (compute t).loc = t.loc)
    (h : es = mixTestEvents en ∨ es = mixRunEvents compute) : ∀ e ∈ es, ∀ t : State, (e t).loc = t.loc := by
  rcases h with rfl | rfl
  · intro e he t
    simp only [mixTestEvents, List.mem_cons, List.not_mem_nil, or_false] at he
    rcases he with rfl | rfl | rfl | rfl | rfl | rfl | rfl | rfl <;> rfl
  · intro e he t
    simp only [mixRunEvents, List.mem_cons, List.not_mem_nil, or_false] at he
    rcases he with rfl | rfl | rfl | rfl | rfl | rfl | rfl | rfl | rfl
    · exact hc t
    all_goals rfl

/-- The mode read, as T11 begins (R181). -/
def State.modeRead (s : State) : State := { s with loc := { s.loc with mode := s.x .testMode } }

/-- T11 by the mode (R181). -/
theorem runStep_t11 (s : State) : s.runStep .t11 =
    if isTestMode (s.x .testMode) then (runEvents (mixTestEvents fun _ => s.lt.en) s).endStep .t11
    else (runEvents (mixRunEvents fun u => u.computeDuties s.lt.thr s.lt.rud s.lt.ele s.lt.ail s.lt.vf) s).endStep
      .t11 := by
  have hloc : ∀ (es : List Event) (u : State), (∀ e ∈ es, ∀ t : State, (e t).loc = t.loc) →
      (runEvents es u).loc = u.loc := fun es u h =>
    runEvents_keeps (P := fun t => t.loc = u.loc) (fun e he t ht => (h e he t).trans ht) rfl
  have hT : ∀ e ∈ (mixTestEvents fun s => s.lt.en), ∀ t : State, (e t).loc = t.loc :=
    mix_keeps_loc (compute := id) (fun _ => rfl) (.inl rfl)
  have hM : ∀ e ∈ (mixRunEvents fun s => s.computeDuties s.lt.thr s.lt.rud s.lt.ele s.lt.ail s.lt.vf),
      ∀ t : State, (e t).loc = t.loc := mix_keeps_loc (en := fun _ => 0)
      (compute := fun s => s.computeDuties s.lt.thr s.lt.rud s.lt.ele s.lt.ail s.lt.vf) (fun _ => rfl) (.inr rfl)
  have he : tickEvents .t11 = State.modeRead ::
    ((mixTestEvents fun s => s.lt.en).map (Event.onlyIf fun s => isTestMode s.loc.mode) ++
     (mixRunEvents fun s => s.computeDuties s.lt.thr s.lt.rud s.lt.ele s.lt.ail s.lt.vf).map
        (Event.onlyIf fun s => !isTestMode s.loc.mode)) := rfl
  have hm : s.modeRead.loc.mode = s.x .testMode := rfl
  rw [State.runStep, he, runEvents_cons, runEvents_append]
  cases h : isTestMode (s.x .testMode) with
  | true =>
    rw [← hm] at h
    rw [runEvents_onlyIf_true (s := s.modeRead) h (fun e he t => by rw [hT e he t]), runEvents_onlyIf_false]
    · rfl
    · rw [hloc _ _ hT, h]
      rfl
  | false =>
    rw [← hm] at h
    rw [runEvents_onlyIf_false (s := s.modeRead) h,
      runEvents_onlyIf_true (s := s.modeRead) (by rw [h]; rfl) (fun e he t => by rw [hM e he t]),
      runEvents_mixRun, runEvents_mixRun]
    rfl

/-- T13 by how late the tick is (R183). -/
theorem runStep_t13 (s : State) : s.runStep .t13 =
    if s.env.clockValue ≤ s.deadline then
      { s with env := s.env.afterClock.waitUntil s.deadline, deadline := s.deadline + s.cfg.period }.endStep .t13
    else if s.env.clockValue - s.deadline < s.cfg.period then
      { s with env := s.env.afterClock, deadline := s.deadline + s.cfg.period }.endStep .t13
    else { s with env := s.env.afterClock, deadline := s.env.clockValue + s.cfg.period }.endStep .t13 := by
  simp only [State.runStep, tickEvents, t13Events, runEvents_cons, runEvents_nil]
  split
  · rfl
  · split <;> rfl

end Sys2Proof.Machine
end

