-- ==== Sys2Proof/Tests/Slice0.lean ====
section
/-! SUPPORT. The model's own tests, whose expected results are the vectors V40-1 to V46-13 of 95 or written out by hand from
the encodings of 30 (each names its source), and for every statement with hypotheses a witness that meets them. -/

namespace Sys2Proof.Tests

open Sys2Proof.Machine

/-! ### Helpers -/

/-- The state after an instruction. -/
def after (i : Instr) (s : State) : State :=
  match exec i s with
  | .next t => t
  | .fault _ => s
  | .refused _ => s

/-- The state after several instructions. -/
def afterAll (is : List Instr) (s : State) : State := is.foldl (fun s i => after i s) s

/-- An outcome is a next state. -/
def isNext (o : Host.Outcome State Fault Refusal) : Bool :=
  match o with
  | .next _ => true
  | .fault _ => false
  | .refused _ => false

/-- A state with registers set. -/
def withRegs (s : State) (l : List (Reg × Int)) : State := l.foldl (fun s p => s.setX p.1 (BitVec.ofInt 16 p.2)) s

/-- The reset state with registers set. -/
def regs (l : List (Reg × Int)) : State := withRegs State.reset l

/-- The reset state with an empty battery filter of another window. -/
def window (w : Nat) : State :=
  { State.reset with cfg := { cfg0 with wBatt := w }, bf := ⟨List.replicate w 0, 0, 0, 0⟩ }

/-- The failsafe as V42-2 leaves it. -/
def lowBatteryState : State := { State.reset with ap := ⟨300, 5000000, true, 1000000⟩ }

/-- The reset state with a datagram delivered. -/
def delivered (bytes : List Byte) : State := { State.reset with inbox := [⟨7, bytes⟩], env := ⟨0, [900], [], [], [], 0⟩ }

/-- The state one step after that. -/
def handled (bytes : List Byte) : State :=
  match step (delivered bytes) with
  | .next t => t
  | .fault _ => State.reset
  | .refused _ => State.reset

/-- The reset state with one reading of each sensor in store and `EULER` given. -/
def sensing (g a : Vec3) (e : Euler) : State :=
  { State.reset with cfg := { cfg0 with eulerGiven := some e }, env := ⟨0, [], [], [g], [a], 0⟩ }

/-! ### Decoding: words written out from the formats of R61 to R65 and the labels of R73 -/

theorem test_decode_rd : decodeDatagram 513 [0b00000000, 0b00100010] = .ok (.rd 34) := by decide
-- R66: TRIM_YAW is 0x15, -100 is 0xFF9C, low byte first
theorem test_decode_wr : decodeDatagram 513 [0b00000001, 0b00010101, 0b10011100, 0b11111111] =
    .ok (.wr 21 (BitVec.ofInt 16 (-100))) := by decide
theorem test_decode_brd : decodeDatagram 513 [0b00000010, 0b00011110, 0b00000100] = .ok (.brd 30 4) := by decide
theorem test_decode_bwr : decodeDatagram 513 [0b00000011, 0b00100011, 0b00000010, 0x01, 0x00, 0xA5, 0x00] =
    .ok (.bwr 35 [1, 165]) := by decide
theorem test_decode_echo : decodeDatagram 513 [0b00000100] = .ok (.echo [4]) ∧
    decodeDatagram 513 [0xFF, 0x01] = .ok (.echo [255, 1]) := by decide
-- V45-9
theorem test_decode_short : ([[], [0x00], [0x01, 0x15, 0x9C], [0x02, 0x1E], [0x03, 0x1E],
    [0x03, 0x1E, 0x02, 0x64, 0x00, 0xC8]] : List (List Byte)).map (decodeDatagram 513) =
    List.replicate 6 (.reject .short) := by decide
-- V45-11: bytes beyond the format are ignored (R69)
theorem test_decode_trailing : decodeDatagram 513 [0x00, 0x22, 0x99] = .ok (.rd 34) := by decide
-- R73, one label of each family
theorem test_decode_label_rb : decodeCall ⟨0b00010001, [-1, 32767]⟩ = .ok (.rbWrite (-1) 0x7FFF) := by decide +kernel
theorem test_decode_label_maf : decodeCall ⟨0b00100000, []⟩ = .ok .mafReset := by decide +kernel
theorem test_decode_label_est : decodeCall ⟨0b00110010, []⟩ = .ok .estUpdate := by decide +kernel
theorem test_decode_label_ap : decodeCall ⟨0b01000011, [300, -1]⟩ = .ok (.apSetParam 300 0xFFFF) := by decide +kernel
theorem test_decode_label_ctl : decodeCall ⟨0b01010000, [1 / 2]⟩ = .ok (.ctlWrap (1 / 2)) := by decide +kernel
theorem test_decode_label_mix : decodeCall ⟨0b01100001, [500, 1, 2, 3, 800]⟩ = .ok (.mixRun 500 1 2 3 (some 800)) := by
  decide +kernel
theorem test_decode_label_tick : decodeCall ⟨0b01111000, []⟩ = .ok .tickT8 := by decide +kernel
theorem test_decode_no_label : decodeCall ⟨0x00, []⟩ = .reject .unknownLabel ∧
    decodeCall ⟨0x10, [1 / 2]⟩ = .reject .badOperand := by decide +kernel

/-- The mnemonic rows of the opcode table that carry a label (R73). -/
def labels : List Nat :=
  [0x10, 0x11, 0x20, 0x21, 0x22, 0x30, 0x31, 0x32, 0x40, 0x41, 0x42, 0x43, 0x50, 0x51, 0x60, 0x61, 0x62] ++
  [0x71, 0x72, 0x73, 0x74, 0x75, 0x76, 0x77, 0x78, 0x79, 0x7A, 0x7B, 0x7C, 0x7D]

/-- The instruction those rows name, with operands of zero. -/
def labelled : List Instr :=
  [.rbRead 0, .rbWrite 0 0, .mafReset, .mafPut 0, .mafGet, .estInit, .estStartCal, .estUpdate,
    .apInit, .apEnter 0, .apGetThr 0 0, .apSetParam 0 0, .ctlWrap 0,
    .ctlRun ⟨0, 0, 0, Vec3.zero, Vec3.zero⟩ Vec3.zero, .mixAmp none, .mixRun 0 0 0 0 none, .mixTest 0] ++
  [.tickT1, .tickT2, .tickT3, .tickT4, .tickT5, .tickT6, .tickT7, .tickT8, .tickT9, .tickT10, .tickT11, .tickT12,
    .tickT13]

theorem test_table_labels : labels.map (decodeTableWord 8) = labelled.map some := by decide +kernel
theorem test_table_opcodes : decodeTableWord 8 0x00 = some (.rd 0) ∧ decodeTableWord 8 0x01 = some (.wr 0 0) ∧
    decodeTableWord 8 0x02 = some (.brd 0 0) ∧ decodeTableWord 8 0x03 = some (.bwr 0 []) ∧
    decodeTableWord 8 0x04 = some (.echo [4]) ∧ decodeTableWord 8 0xFF = some (.echo [255]) := by decide +kernel
theorem test_table_word_of_32_bits : decodeTableWord 32 0xFF9C1501 = some (.wr 21 (BitVec.ofInt 16 (-100))) := by
  decide +kernel

/-! ### WellFormed: an ill-formed term for each check -/

theorem test_wellFormed_refuses_256_values : (Instr.bwr 0 (List.replicate 256 0)).wellFormed 513 = false := by
  decide +kernel
theorem test_wellFormed_refuses_empty_echo : (Instr.echo []).wellFormed 513 = false := by decide
theorem test_wellFormed_refuses_echo_of_opcode_3 : (Instr.echo [3, 0, 0]).wellFormed 513 = false := by decide
theorem test_wellFormed_refuses_long_echo : (Instr.echo (List.replicate 514 9)).wellFormed 513 = false := by
  decide +kernel

/-! ### The step -/

/-- Every byte, as a row of the table, is run from reset. -/
theorem test_step_runs_every_row_from_reset :
    (List.range 256).all (fun w => isNext (step (State.reset.withFetchWord 8 w))) = true := by decide +kernel
theorem test_step_runs_the_first_tick_step :
    step { State.reset with env := ⟨0, [5], [508], [], [], 0⟩ } =
      .next ({ State.reset with env := ⟨0, [5], [508], [], [], 0⟩ }.runStep .t1) := by rfl
theorem test_step_refuses_a_call_without_label :
    step { State.reset with call := some ⟨0x00, []⟩ } = .refused .badCall := by rfl
theorem test_step_refuses_an_overlong_datagram :
    (match step (delivered (List.replicate 514 0)) with
      | .refused .datagramTooLong => true
      | _ => false) = true := by decide +kernel
/-- R50, R242: a datagram's write of ENABLE between T7's test and T7's write is overwritten. -/
theorem test_step_interleaves :
    (match core.run 8 { State.reset with
        phase := .t7, lt := { State.reset.lt with tStart := 2000000 }, inbox := [⟨7, [0x01, 0x23, 0x01, 0x00]⟩]
        env := ⟨2000000, [2000000], [], [], [], 0⟩
        agenda := [.tickEvent, .pktEvent, .pktEvent, .pktEvent, .pktEvent, .tickEvent, .tick, .tick] } with
      | .next t => decide (t.x .enable = 0 ∧ t.lastRx = 2000000 ∧ t.phase = .t10)
      | _ => false) = true := by decide +kernel

/-! ### RegisterBank (R11, R41, R42) -/

theorem test_rbRead : (after (.rbRead 0x22) State.reset).ret = .slot (some 1023) ∧
    (after (.rbRead 40) State.reset).ret = .slot none := by decide +kernel
theorem test_rbWrite : (after (.rbWrite 0x27 (-5)) State.reset).x .loopTime = BitVec.ofInt 16 (-5) ∧
    after (.rbWrite (-1) 7) State.reset = State.reset := by decide +kernel

/-! ### MovingAverageFilter -/

-- V40-1
theorem test_mafPut : (afterAll [.mafPut 11, .mafPut 22, .mafPut 33, .mafPut 44] (window 3)).bf =
    ⟨[44, 22, 33], 1, 3, 99⟩ := by decide +kernel
-- V40-3
theorem test_mafGet : (afterAll [.mafPut 1, .mafPut 2, .mafPut 2, .mafGet] (window 3)).ret = .mean (some (5 / 3)) ∧
    (afterAll [.mafPut 1, .mafPut 2, .mafGet] (window 3)).ret = .mean none := by decide +kernel
-- V40-4
theorem test_mafPut_window_one : (afterAll [.mafPut 7, .mafPut (-3), .mafGet] (window 1)).ret = .mean (some (-3)) := by
  decide +kernel
-- V40-5
theorem test_mafReset : (afterAll [.mafPut 11, .mafPut 22, .mafPut 33, .mafPut 44, .mafReset, .mafPut 5]
    (window 3)).bf = ⟨[5, 22, 33], 1, 1, 5⟩ := by decide +kernel

/-! ### AttitudeEstimator -/

/-- A calibrated estimator. -/
def calibrated : State :=
  { State.reset with origin := ⟨3 / 2, -2, 1 / 4⟩, cal := { State.reset.cal with count := 1000, ready := true } }

-- R90
theorem test_estInit : after .estInit { calibrated with fstate := ⟨[4]⟩ } = State.reset := by decide +kernel
-- V41-6
theorem test_estStartCal : (let t := after .estStartCal calibrated
    t.cal.count = 0 ∧ t.cal.ready = false ∧ t.origin = ⟨3 / 2, -2, 1 / 4⟩) := by decide +kernel
-- V41-1
theorem test_estUpdate : (let s := sensing ⟨3 / 2, -2, 1 / 4⟩ ⟨0, 0, 1⟩ ⟨0, 0, piCfg0 / 18⟩
    let t := after .estUpdate { s with cal := { s.cal with count := 10 } }
    t.cal.buf[10]? = some ⟨3 / 2, -2, 1 / 4⟩ ∧ t.cal.count = 11 ∧
    ([.attYaw, .attPitch, .attRoll, .rotX, .rotY, .rotZ, .accX, .accY, .accZ] : List Reg).map (fun r => (t.x r).toInt) =
      [0, 0, 100, 1, -2, 0, 0, 0, 1000]) := by decide +kernel
-- V41-7: the thousandth sample, whose bias this very update subtracts
theorem test_estUpdate_fills_the_buffer : (let s := sensing ⟨1001, 0, 0⟩ ⟨0, 0, 1⟩ ⟨0, 0, 0⟩
    let t := after .estUpdate { s with cal := ⟨List.replicate 999 ⟨1, 0, 0⟩ ++ [Vec3.zero], 999, false⟩ }
    t.origin = ⟨2, 0, 0⟩ ∧ t.cal.ready = true ∧ t.lt.sample.rate = ⟨999, 0, 0⟩) := by decide +kernel
-- V41-5
theorem test_remap : remap .rational ⟨1, 0, 2, false, true, false⟩ ⟨3, 5, 7⟩ = ⟨5, -3, 7⟩ := by decide +kernel

/-! ### AutoPilotFailsafe -/

-- V42-6
theorem test_apInit : (after .apInit lowBatteryState).ap.active = false := by decide
-- V42-2, V42-5
theorem test_apEnter : (after (.apEnter 1000000) State.reset).ap = ⟨0, 0, true, 1000000⟩ ∧
    (after (.apEnter 2000000) lowBatteryState).ap.onset = 1000000 := by decide
-- V42-3
theorem test_apGetThr : (after (.apGetThr 1000000 500) lowBatteryState).ret = .throttle 300 ∧
    (after (.apGetThr 5999999 200) lowBatteryState).ret = .throttle 200 := by decide +kernel
-- V42-4, V42-1
theorem test_apGetThr_deadline : (after (.apGetThr 6000000 500) lowBatteryState).ret = .throttle 0 ∧
    (after (.apGetThr 6000000 (-7)) State.reset).ret = .throttle (-7) := by decide +kernel
-- V42-9
theorem test_apSetParam : (after (.apSetParam 300 5000) State.reset).ap = ⟨300, 5000000, false, 0⟩ ∧
    (after (.apSetParam 0 (-1)) State.reset).ap = ⟨0, -1000, false, 0⟩ := by decide +kernel

/-! ### AttitudeController -/

-- V43-2, V43-3
theorem test_ctlWrap : (after (.ctlWrap 6) State.reset).ret = .angle (6 - 2 * piCfg0) ∧
    (after (.ctlWrap piCfg0) State.reset).ret = .angle piCfg0 := by decide +kernel
-- V43-4: one correction only
theorem test_ctlWrap_once : (after (.ctlWrap (-10)) State.reset).ret = .angle (-10 + 2 * piCfg0) := by decide +kernel
-- V43-7, V43-11
theorem test_ctlRun :
    (let t := after (.ctlRun ⟨0, 2, 1 / 2, Vec3.zero, Vec3.zero⟩ ⟨0, -2, 0⟩) (regs [(.pPitch, 10), (.pRoll, -200)])
     t.lt.ele = 40 ∧ t.lt.ail = -100 ∧ t.lt.rud = 0) := by decide +kernel
-- V43-9: which component of the rate is whose (R99)
theorem test_ctlRun_rates :
    (let s := regs [(.dYaw, 1), (.dPitch, 1), (.dRoll, 1)]
     let t := after (.ctlRun ⟨0, 0, 0, ⟨90, -45, 180⟩, Vec3.zero⟩ Vec3.zero) s
     t.lt.rud = piCfg0 ∧ t.lt.ele = -(piCfg0 / 4) ∧ t.lt.ail = piCfg0 / 2) := by decide +kernel

/-! ### MotorMixer -/

-- V44-9, V44-16
theorem test_mixAmp : (after (.mixAmp (some 600)) State.reset).ret = .amp (4 / 3) ∧
    (after (.mixAmp (some 5)) State.reset).ret = .amp 0 := by decide +kernel
-- V44-2
theorem test_mixRun : (after (.mixRun 500 10 20 (-30) (some 800)) State.reset).dutyOut = ⟨500, 540, 520, 440⟩ := by
  decide +kernel
-- V44-4, V44-5
theorem test_mixRun_limits :
    (after (.mixRun 1000 100 0 0 (some 800)) (regs [(.limit, 800)])).dutyOut = ⟨800, 800, 800, 800⟩ ∧
    (let t := after (.mixRun 50 0 100 0 (some 800)) State.reset
     t.dutyOut = ⟨150, 150, 0, 0⟩ ∧ t.x .motor1 = 150 ∧
     t.out = State.reset.out ++ [.duty 0 150, .duty 1 150, .duty 2 0, .duty 3 0]) := by decide +kernel
-- V44-14, V44-15
theorem test_mixTest : (let s := regs [(.motor0, 100), (.motor1, 200), (.motor2, 300), (.motor3, 2048)]
    (after (.mixTest 1) s).dutyOut = ⟨100, 200, 300, 1023⟩ ∧ (after (.mixTest 1) s).regs = s.regs ∧
    (after (.mixTest 0) s).dutyOut = ⟨0, 0, 0, 0⟩) := by decide +kernel
theorem test_mixTest_clamps : (after (.mixTest 1) (regs [(.motor0, -5), (.motor1, 0), (.motor2, 1023),
    (.motor3, 1024)])).dutyOut = ⟨0, 0, 1023, 1023⟩ := by decide +kernel

/-! ### CommandProtocolServer -/

-- V45-1
theorem test_rd : (handled [0x00, 0x22]).out = State.reset.out ++ [.reply 7 [0x00, 0xFF, 0x03]] ∧
    (handled [0x00, 0x22]).lastRx = 900 := by decide +kernel
-- V45-5
theorem test_rd_out_of_range : (handled [0x00, 0x28]).out = State.reset.out ∧ (handled [0x00, 0x28]).lastRx = 900 := by
  decide +kernel
-- V45-2
theorem test_wr : (handled [0x01, 0x15, 0x9C, 0xFF]).x .trimYaw = BitVec.ofInt 16 (-100) ∧
    (handled [0x01, 0x15, 0x9C, 0xFF]).out = State.reset.out := by decide +kernel
-- V45-5, V45-9
theorem test_wr_dropped : (handled [0x01, 0xFF, 0x01, 0x00]).regs = State.reset.regs ∧
    (handled [0x01, 0x15, 0x9C]).regs = State.reset.regs ∧ (handled [0x01, 0x15, 0x9C]).lastRx = 0 := by decide +kernel
-- V45-4, V45-7
theorem test_brd : (handled [0x02, 0x00, 0x00]).out = State.reset.out ++ [.reply 7 [0x02, 0x00, 0x00]] ∧
    (handled [0x02, 0xF0, 0x20]).out = State.reset.out := by decide +kernel
-- V45-6, with CALIB and TIME instead of the two zero registers
theorem test_brd_values : (handled [0x02, 0x25, 0x02]).out =
    State.reset.out ++ [.reply 7 [0x02, 0x25, 0x02, 0x02, 0x00, 0x00, 0x00]] := by decide +kernel
-- V45-3
theorem test_bwr : ([.motor0, .motor1, .motor2, .motor3] : List Reg).map
    (handled [0x03, 0x1E, 0x04, 0x64, 0x00, 0xC8, 0x00, 0x2C, 0x01, 0x00, 0x08]).x = [100, 200, 300, 2048] := by
  decide +kernel
-- V45-8
theorem test_bwr_out_of_range :
    (handled [0x03, 0x26, 0x03, 0x01, 0x00, 0x02, 0x00, 0x03, 0x00]).regs = State.reset.regs := by decide +kernel
-- V45-10
theorem test_echo : (handled [0x7F, 0x01, 0x02]).out = State.reset.out ++ [.reply 7 [0x7F, 0x01, 0x02]] ∧
    (handled [0x7F, 0x01, 0x02]).regs = State.reset.regs := by decide +kernel

/-! ### ControlLoopScheduler -/

-- V46-1
theorem test_tickT1 : (let t := after .tickT1 { State.reset with
      env := ⟨0, [7], [508], [], [], 0⟩, bf := ⟨List.replicate 4 (8008331 / 10000), 0, 4, 32033324 / 10000⟩ }
    t.lt.vf = some (8008331 / 10000) ∧ t.x .battRaw = 508 ∧ t.x .battFiltered = 800 ∧ t.lt.tStart = 7 ∧ t.phase = .t2) := by
  decide +kernel
-- V46-2
theorem test_tickT1_not_ready : (let s := regs [(.battFiltered, 33)]
    let t := after .tickT1 { s with
      env := ⟨0, [7], [0], [], [], 0⟩, bf := { s.bf with head := 2, count := 2 } }
    t.lt.vf = none ∧ t.bf.count = 3 ∧ t.bf.sum = -(1470441 / 10000) ∧ t.x .battRaw = 0 ∧ t.x .battFiltered = 33) := by
  decide +kernel
-- R172
theorem test_tickT2 : (after .tickT2 (regs [(.landingCeiling, 300), (.descendDuration, 5000)])).ap =
    ⟨300, 5000000, false, 0⟩ := by decide +kernel
-- V46-3
theorem test_tickT3 : (let s := regs [(.battLowThreshold, 700)]
    (after .tickT3 { s with lt := { s.lt with vf := some 700, tStart := 9 } }).ap.active = false ∧
    (after .tickT3 { s with lt := { s.lt with vf := some (69999 / 100), tStart := 9 } }).ap = ⟨0, 0, true, 9⟩) := by
  decide +kernel
-- V46-8
theorem test_tickT4 : (let t := after .tickT4 { (regs [(.battStatus, 1)]) with ap := ⟨300, 5000, true, 9⟩ }
    t.ap = ⟨300, 5000, false, 9⟩ ∧ t.x .battStatus = 0) := by decide +kernel
-- R174: a throttle that is not zero leaves the failsafe active
theorem test_tickT4_active : (let t := after .tickT4 { (regs [(.joyThrottle, 5)]) with ap := ⟨300, 5000, true, 9⟩ }
    t.ap.active = true ∧ t.x .battStatus = 1 ∧ t.lt.joyThr = 5) := by decide +kernel
-- V46-9
theorem test_tickT5_requested : (let t := after .tickT5 { (regs [(.calib, 1)]) with
      cal := { State.reset.cal with count := 1000, ready := true }, indicator := .ready }
    t.cal.count = 0 ∧ t.cal.ready = false ∧ t.x .calib = 2 ∧ t.indicator = .calibrating) := by decide +kernel
-- V46-10
theorem test_tickT5_finished :
    (let t := after .tickT5 { State.reset with cal := { State.reset.cal with count := 1000, ready := true } }
     t.x .calib = 0 ∧ t.indicator = .ready ∧ t.out = State.reset.out ++ [.indicator .ready]) ∧
    (after .tickT5 (regs [(.calib, 7)])).x .calib = 7 := by decide +kernel
-- V41-2 through T6
theorem test_tickT6 : (let s := sensing ⟨39 / 2, -2, 1 / 4⟩ ⟨40, -40, 0⟩ ⟨0, 0, 0⟩
    let t := after .tickT6 { s with origin := ⟨3 / 2, -2, 1 / 4⟩, cal := { s.cal with count := 1000, ready := true } }
    t.x .rotX = 18 ∧ t.x .accX = 32767 ∧ t.x .accY = BitVec.ofInt 16 (-32768) ∧ t.lt.sample.acc = ⟨40, -40, 0⟩ ∧
    t.phase = .t7) := by decide +kernel
-- V46-4
theorem test_tickT7 : (let s := { (regs [(.enable, 1)]) with lastRx := 35000 }
    (after .tickT7 { s with lt := { s.lt with tStart := 1035000 } }).x .enable = 1 ∧
    (after .tickT7 { s with lt := { s.lt with tStart := 1040000 } }).x .enable = 0) := by decide +kernel
-- V46-5
theorem test_tickT7_later_datagram : (let s := { (regs [(.enable, 1)]) with lastRx := 40500 }
    (after .tickT7 { s with lt := { s.lt with tStart := 40000 } }).x .enable = 1) := by decide +kernel
-- V46-6
theorem test_tickT8 : (let t := after .tickT8 (regs [(.joyPitch, 30000), (.trimPitch, 5000), (.joyRoll, -100),
      (.trimRoll, 30), (.trimYaw, -50)])
    (t.x .targetYaw).toInt = -50 ∧ (t.x .targetPitch).toInt = 32767 ∧ (t.x .targetRoll).toInt = -70 ∧
    t.lt.tgt = ⟨-50 * (piCfg0 / 1800), 32767 * (piCfg0 / 1800), -70 * (piCfg0 / 1800)⟩) := by decide +kernel
-- V46-7
theorem test_tickT9 : (let s := { State.reset with lt := { State.reset.lt with joyThr := 500 } }
    (after .tickT9 s).lt.thr = 0 ∧ (after .tickT9 (withRegs s [(.enable, -1)])).lt.thr = 500) := by decide +kernel
-- V43-7 through T10, and V43-12
theorem test_tickT10 : (let s := regs [(.pPitch, 10)]
    let armed := { s with lt := { s.lt with
      en := 1, joyThr := 500, ele := 99, sample := ⟨0, 2, 0, Vec3.zero, Vec3.zero⟩, tgt := ⟨0, -2, 0⟩ } }
    (after .tickT10 armed).lt.ele = 40 ∧
    (after .tickT10 { armed with lt := { armed.lt with joyThr := 0 } }).lt.ele = 0) := by decide +kernel
-- V46-13
theorem test_tickT11 : (let s := regs [(.motor0, 100)]
    let s := { s with lt := { s.lt with en := 1, thr := 500, vf := some 800 } }
    (after .tickT11 (withRegs s [(.testMode, 0x00A5)])).dutyOut.m0 = 100 ∧
    (after .tickT11 (withRegs s [(.testMode, -91)])).dutyOut.m0 = 500) := by decide +kernel
-- the T11 row of P2
theorem test_tickT11_flight : (let s := State.reset
    (after .tickT11 { s with lt := { s.lt with
      en := 1, thr := 500, ail := -(31764992 / 1000000), vf := some (8008331 / 10000) } }).dutyOut =
      ⟨467, 531, 531, 467⟩) := by decide +kernel
-- V46-11
theorem test_tickT12 : (let s := State.reset
    let t := after .tickT12 { s with lt := { s.lt with tStart := 40000 }, env := ⟨40000, [41200], [], [], [], 0⟩ }
    let u := after .tickT12 { s with lt := { s.lt with tStart := 69950000 }, env := ⟨0, [70000000], [], [], [], 0⟩ }
    t.x .loopTime = 1200 ∧ t.x .time = 41 ∧ u.x .loopTime = 32767 ∧ u.x .time = 4464) := by decide +kernel
-- V46-12
theorem test_tickT13 : (let at_ := fun now : Nat => after .tickT13 { State.reset with
      deadline := 50000, env := ⟨0, [now, 50000], [], [], [], 0⟩ }
    (at_ 41200).deadline = 60000 ∧ (at_ 41200).env.now = 50000 ∧ (at_ 52000).deadline = 60000 ∧
    (at_ 52000).env.now = 52000 ∧ (at_ 75000).deadline = 85000) := by decide +kernel

/-! ### Witnesses: for each statement with hypotheses, states and operands that meet them, clause by clause -/

theorem witness_cfg0 : cfg0.Ok := by constructor <;> decide +kernel

/-- The premises some statements put on NUM (R3). -/
theorem witness_num : cfg0.num = .rational ∧ cfg0.num.KeepsZero := ⟨rfl, Numerics.rational_keepsZero⟩

/-- A configuration with another NUM is admitted too. -/
theorem witness_other_num : ({ cfg0 with num := .other } : Cfg).Ok := by constructor <;> decide +kernel

-- R4 (i): a 16-bit integer is a value of every NUM
theorem test_ofInt (n : Numerics) : n.ofInt (-32768) = -32768 ∧ n.ofInt 32767 = 32767 := by
  cases n <;> decide +kernel

/-- A sound state: the reset state. -/
theorem witness_sound : State.reset.Ok where
  cfg := witness_cfg0
  memory := by decide
  filter := ⟨rfl, by decide, by decide, fun _ => rfl, fun _ => rfl⟩
  calib := ⟨List.length_replicate, by decide, rfl⟩
  duty := fun i => by fin_cases i <;> decide
  dutyOut := fun i => by fin_cases i <;> decide
  micro := by decide
  pkt := trivial

theorem witness_DecodeOfEncodeIsIdentity :
    (Instr.bwr 0 (List.replicate 255 0)).wellFormed 513 = true ∧ (Instr.echo [4]).wellFormed 513 = true := by
  decide +kernel

/-- The byte strings of the clauses, each shortest or longest of its kind: opcode, bytes, whether it is long enough. -/
theorem witness_DecodingProcedure :
    ([[], [0], [0, 9], [1, 9, 9], [1, 9, 9, 9], [2, 9], [2, 9, 9], [3, 9], [3, 9, 1, 7], [3, 9, 0], [3, 9, 1, 7, 7],
      [4], List.replicate 513 255] : List (List Byte)).all (fun rx => decide (rx.length ≤ 513)) = true := by
  decide +kernel

theorem witness_ToRegKeepsItsThreeProperties : (-32768 : Int) ≤ -32768 ∧ (32767 : Int) ≤ 32767 ∧
    (-1 / 2 : Scalar) ≤ 1 / 2 := by decide +kernel

theorem witness_RegisterReadAndWrite : (0 : Int) ≤ 39 ∧ (39 : Int) < State.reset.cfg.n ∧
    ((-1 : Int) < 0) ∧ (State.reset.cfg.n : Int) ≤ 40 := by decide

/-- A full filter, and one that is being filled. -/
def fullFilter : State := { State.reset with bf := ⟨[1, 2, 3, 4], 0, 4, 10⟩ }

theorem witness_FilterOperations : State.reset.bf.count < State.reset.cfg.wBatt ∧
    fullFilter.cfg.wBatt ≤ fullFilter.bf.count ∧ fullFilter.bf.count = fullFilter.cfg.wBatt ∧
    State.reset.bf.count ≠ State.reset.cfg.wBatt := by decide

theorem witness_FilterHoldsTheLastWindow : State.reset.bf.buf.length = State.reset.cfg.wBatt ∧
    State.reset.cfg.wBatt ≤ [1, 2, 3, (4 : Scalar)].length ∧ [1, 2, (3 : Scalar)].length < State.reset.cfg.wBatt := by
  decide

/-- One sample short of a full calibration buffer. -/
def lastSample : State := { State.reset with cal := ⟨List.replicate 1000 Vec3.zero, 999, false⟩ }

theorem witness_EstimatorUpdate : calibrated.cal.ready = true ∧ State.reset.cal.ready = false ∧
    State.reset.cal.count + 1 ≠ 1000 ∧ lastSample.cal.ready = false ∧ lastSample.cal.count + 1 = 1000 := by decide

theorem witness_FusionUpdate : State.reset.cfg.eulerGiven = none ∧
    (sensing Vec3.zero Vec3.zero ⟨1, 2, 3⟩).cfg.eulerGiven = some ⟨1, 2, 3⟩ := by decide +kernel

theorem witness_CalibrationTakesAThousandSamples :
    CalibOk State.reset.cal ∧ (∀ n, n = 999 ∨ n = 1000 → (List.replicate n Vec3.zero).length ≤ 1000 ∧
      { State.reset with env := { State.reset.env with gyro := List.replicate n Vec3.zero ++ [] } }.env.gyro =
        List.replicate n Vec3.zero ++ []) :=
  ⟨witness_sound.calib, fun n h => ⟨by rw [List.length_replicate]; omega, rfl⟩⟩

theorem witness_FailsafeStateMachine : State.reset.ap.active = false ∧ lowBatteryState.ap.active = true := by decide

theorem witness_FailsafeThrottle : State.reset.ap.active = false ∧ lowBatteryState.ap.active = true ∧
    lowBatteryState.ap.descend ≤ (6000000 : Nat) - (lowBatteryState.ap.onset : Int) ∧
    (5999999 : Nat) - (lowBatteryState.ap.onset : Int) < lowBatteryState.ap.descend ∧
    0 ≤ State.reset.ap.ceiling ∧ 0 ≤ lowBatteryState.ap.ceiling := by decide

/-- Errors at and beyond the bounds of the clauses. -/
theorem witness_WrapTakesTheShorterArc :
    cfg0.pi < cfg0.pi + 1 ∧ -cfg0.pi - 1 ≤ cfg0.pi ∧ -cfg0.pi - 1 < cfg0.num.sub 0 cfg0.pi ∧
    cfg0.num.sub 0 cfg0.pi ≤ -cfg0.pi ∧ cfg0.num = .rational ∧ -(3 * cfg0.pi) ≤ 3 * cfg0.pi ∧
    3 * cfg0.pi < 10 ∧ -10 < -(3 * cfg0.pi) := by decide +kernel

theorem witness_BatteryCompensation : cfg0.vShutoff ≤ 600 ∧ (5999 / 10 : Scalar) < cfg0.vShutoff := by decide +kernel

/-- The same two premises, the first with `witness_num` in PureThrottleGivesEqualDuties, are those of RegisterReadAndWrite, EstimatorUpdate, PureThrottleGivesEqualDuties, the four commands
that access the bank, and the tick steps T1, T4, T5, T7, T8 and T12. -/
theorem witness_MixerRun : State.reset.cfg.Ok ∧ Memory.wf State.reset.cfg.n State.reset.regs = true :=
  ⟨witness_cfg0, by decide⟩

theorem witness_MixerDutyBounds :
    isNext (exec (.mixRun 3000 100 (-100) 5 (some 800)) State.reset) = true := by decide +kernel

/-- With `witness_num`. -/
theorem witness_CutoffSilencesTheMotors : (∀ m, (none : Option Scalar) = some m → m < cfg0.vShutoff) ∧
    (∀ m, some (5999 / 10 : Scalar) = some m → m < cfg0.vShutoff) :=
  ⟨by simp, fun m h => by cases h; decide +kernel⟩

theorem witness_TestModeOutputs : (0 : Word) = 0 ∧ (BitVec.ofInt 16 (-1)) ≠ 0 := by decide

/-- The longest datagrams the four clauses of `DropsShort` are about. -/
theorem witness_DropsShort : ([0x00] : List Byte).length < 2 ∧ ([0x01, 9, 9] : List Byte).length < 4 ∧
    ([0x02, 9] : List Byte).length < 3 ∧ ([0x03, 9] : List Byte).length < 3 ∧
    (let rx : List Byte := [0x03, 9, 2, 7, 7, 7]
     rx.length ≤ 513 ∧ rx.head? = some 0x03 ∧ rx.length < 3 + 2 * (rx.getD 2 0).toNat) := by decide

theorem witness_ReadCommand : (39#8).toNat < State.reset.cfg.n ∧ State.reset.cfg.n ≤ (40#8).toNat := by decide

theorem witness_WriteCommand : (0#8).toNat < State.reset.cfg.n ∧ State.reset.cfg.n ≤ (255#8).toNat := by decide

theorem witness_BulkReadCommand : (0#8).toNat + (40#8).toNat ≤ State.reset.cfg.n ∧
    (39#8).toNat + (1#8).toNat ≤ State.reset.cfg.n ∧ State.reset.cfg.n ≤ (40#8).toNat ∧
    State.reset.cfg.n < (39#8).toNat + (2#8).toNat := by decide

theorem witness_BulkWriteCommand : (0#8).toNat + (List.replicate 40 (7 : Word)).length ≤ State.reset.cfg.n ∧
    (39#8).toNat < State.reset.cfg.n ∧ State.reset.cfg.n < (39#8).toNat + [7, (8 : Word)].length := by decide

theorem witness_BulkWriteThenReadReturnsTheSequence : (List.replicate 40 (7 : Word)).length ≤ 255 ∧
    (0#8).toNat < State.reset.cfg.n ∧ (0#8).toNat + (List.replicate 40 (7 : Word)).length ≤ State.reset.cfg.n := by
  decide

theorem witness_UnacceptableDatagrams : (delivered [0x00]).call = none ∧ (delivered [0x00]).pkt = .idle ∧
    (delivered [0x00]).turn = .pkt ∧ decodeDatagram (delivered [0x00]).cfg.rxMax [0x00] = .reject .short ∧
    (delivered [0x00]).cfg.rxMax < (List.replicate 514 (0x00 : Byte)).length := by decide +kernel

theorem witness_PktLeavesTickAlone : (delivered [0x00, 0x22]).call = none ∧ (delivered [0x00, 0x22]).pkt = .idle ∧
    (delivered [0x00, 0x22]).turn = .pkt ∧ isNext (step (delivered [0x00, 0x22])) = true := by decide +kernel

theorem witness_TickLeavesPktAlone : State.reset.call = none ∧ State.reset.turn = .tick ∧
    isNext (step State.reset) = true ∧
    { State.reset with agenda := [.tickEvent] }.turn = .tickEvent := by decide +kernel

/-- The reset state with `BATT_LOW_THRESHOLD` 700 and a filtered battery code. -/
def sagging (vf : Option Scalar) : State :=
  let s := regs [(.battLowThreshold, 700)]
  { s with lt := { s.lt with vf := vf } }

theorem witness_TickT3 :
    ((sagging (some 699)).lt.vf = some 699 ∧
      (sagging none).cfg.num.mul 699 (sagging none).cfg.battRegScale < (((sagging none).x .battLowThreshold).toInt : Scalar)) ∧
    ((sagging (some 700)).lt.vf = some 700 ∧
      (((sagging none).x .battLowThreshold).toInt : Scalar) ≤ (sagging none).cfg.num.mul 700 (sagging none).cfg.battRegScale) ∧
    (sagging none).lt.vf = none := by decide +kernel

theorem witness_TickT5 : (regs [(.calib, 1)]).x .calib = 1 ∧ calibrated.x .calib = 2 ∧ calibrated.cal.ready = true ∧
    State.reset.x .calib ≠ 1 ∧ State.reset.cal.ready = false ∧ (regs [(.calib, 7)]).x .calib ≠ 2 := by decide

/-- The reset state at a tick that began so much later than the last datagram came. -/
def silentFor (t : Nat) : State :=
  { State.reset with phase := .t7, lt := { State.reset.lt with tStart := t }, env := { State.reset.env with now := t } }

theorem witness_TickT7 :
    ((cfg0.commTimeout : Int) < ((silentFor 1000001).lt.tStart : Int) - (silentFor 1000001).lastRx) ∧
    (((silentFor 1000000).lt.tStart : Int) - (silentFor 1000000).lastRx ≤ cfg0.commTimeout) := by decide

/-- The reset state as T9 leaves an armed vehicle. -/
def flying : State :=
  { State.reset with lt := { State.reset.lt with en := 1, joyThr := 500 } }

theorem witness_TickT10 : flying.lt.en ≠ 0 ∧ flying.lt.joyThr ≠ 0 ∧ State.reset.lt.en = 0 := by decide

/-- The reset state with deadline 50000 and the clock about to answer. -/
def finishingAt (now : Nat) : State := { State.reset with deadline := 50000, env := ⟨0, [now], [], [], [], 0⟩ }

theorem witness_TickT13 : (finishingAt 50000).env.clockValue ≤ (finishingAt 50000).deadline ∧
    (finishingAt 59999).deadline < (finishingAt 59999).env.clockValue ∧
    (finishingAt 59999).env.clockValue - 50000 < cfg0.period ∧
    cfg0.period ≤ (finishingAt 60000).env.clockValue - 50000 := by decide

theorem witness_PhaseFollowsTheFixedOrder : isNext (exec .tickT13 State.reset) = true ∧
    isNext (exec .mafGet State.reset) = true := by decide +kernel

theorem witness_UnitsHaveTheirWriters :
    (after (.mafPut 1) State.reset).bf ≠ State.reset.bf ∧
    (1 ≤ cfg0.wBatt ∧ State.reset.bf.count ≠ cfg0.wBatt ∧
      (afterAll [.mafPut 1, .mafPut 1, .mafPut 1, .mafPut 1] State.reset).bf.count = cfg0.wBatt) ∧
    (fullFilter.bf.count = cfg0.wBatt ∧ (after .mafReset fullFilter).bf.count ≠ cfg0.wBatt) ∧
    (after .estStartCal calibrated).cal ≠ calibrated.cal ∧
    ((after (.apSetParam 1 0) State.reset).ap.ceiling ≠ 0 ∧ (after (.apSetParam 0 1) State.reset).ap.descend ≠ 0) ∧
    (after (.apEnter 5) State.reset).ap.onset ≠ State.reset.ap.onset ∧
    (after .estInit { State.reset with fstate := ⟨[4]⟩ }).fstate ≠ ⟨[4]⟩ ∧
    (after .estInit calibrated).origin ≠ calibrated.origin ∧
    (after .estUpdate { lastSample with env := ⟨0, [], [], [⟨1000, 0, 0⟩], [], 0⟩ }).origin ≠ lastSample.origin ∧
    (after .estUpdate lastSample).cal.ready = true ∧ (after .estStartCal calibrated).cal.ready = false ∧
    (after (.apEnter 5) State.reset).ap.active = true ∧ (after .apInit lowBatteryState).ap.active = false ∧
    (handled [0x00, 0x22]).lastRx ≠ (delivered [0x00, 0x22]).lastRx := by decide +kernel

theorem witness_TickWritesOnlyItsRegisters : ([.t1, .t2, .t3, .t4, .t5, .t6, .t7, .t8, .t9, .t10, .t11, .t12, .t13] :
    List Phase).all (fun p => isNext (exec p.instr State.reset)) = true := by decide +kernel

theorem witness_TimeoutStopsTheMotors : (silentFor 1000001).Ok ∧ (silentFor 1000001).Undisturbed ∧
    (silentFor 1000001).phase = .t7 ∧ (silentFor 1000001).micro = 0 ∧ 0 ≤ (silentFor 1000001).ap.ceiling ∧
    (silentFor 1000001).cfg.num.KeepsZero ∧ ((silentFor 1000001).cfg.commTimeout : Int) <
      ((silentFor 1000001).lt.tStart : Int) - (silentFor 1000001).lastRx :=
  ⟨⟨witness_cfg0, by decide, witness_sound.filter, witness_sound.calib, witness_sound.duty, witness_sound.dutyOut,
    by decide, trivial⟩, ⟨rfl, rfl, rfl, rfl⟩, rfl, rfl, by decide, witness_num.2, by decide⟩

theorem witness_StepRunsTheFetchedInstruction :
    (State.reset.call = none ∧ State.reset.turn = .tick ∧ State.reset.micro = 0) ∧
    ((delivered [0x00, 0x22]).turn = .pkt ∧
      decodeDatagram (delivered [0x00, 0x22]).cfg.rxMax [0x00, 0x22] = .ok (.rd 0x22)) ∧
    decodeCall ⟨0x22, []⟩ = .ok .mafGet := by decide +kernel

theorem witness_StepIsTheSumOfItsEvents : (∀ rest : List Turn,
    let s := { State.reset with agenda := List.replicate 4 Turn.tickEvent ++ rest }
    s.call = none ∧ s.micro = 0 ∧ s.agenda = List.replicate (tickEvents s.phase).length .tickEvent ++ rest) :=
  fun _ => ⟨rfl, rfl, rfl⟩

theorem witness_CommandIsTheSumOfItsEvents : (∀ rest : List Turn,
    let s := { delivered [0x00, 0x22] with agenda := List.replicate 6 Turn.pktEvent ++ rest }
    s.call = none ∧ s.pkt = .idle ∧ s.inbox = ⟨7, [0x00, 0x22]⟩ :: [] ∧
      decodeDatagram s.cfg.rxMax [0x00, 0x22] = .ok (.rd 0x22) ∧
      s.agenda = List.replicate ((pktEvents s.cfg (.rd 0x22)).length + 1) .pktEvent ++ rest) :=
  fun _ => ⟨rfl, rfl, rfl, rfl, rfl⟩

/-- The state of P7: a BWR of the six gain registers has refreshed the timestamp, and T10 has cleared its channels. -/
def tearing : State :=
  { flying with
    phase := .t10, micro := 1, rx := ⟨7, []⟩
    pkt := .handling (.bwr 0x0F [200, 200, 200, 0, 0, 10]) 2 }

theorem witness_EveryTornPatternOfGainsCanBeRead : tearing.Ok ∧ tearing.call = none ∧ tearing.phase = .t10 ∧
    tearing.micro = 1 ∧ tearing.armed = true ∧ [200, 200, 200, 0, 0, (10 : Word)].length = 6 ∧
    tearing.pkt = .handling (.bwr 0x0F [200, 200, 200, 0, 0, 10]) 2 ∧
    (∀ k : Fin 6, (gainRegs[k.val]?).map tearing.cfg.id = some ((0x0F : Byte).toNat + k.val)) :=
  ⟨⟨witness_cfg0, by decide, witness_sound.filter, witness_sound.calib, witness_sound.duty, witness_sound.dutyOut,
    by decide, ⟨rfl, by decide⟩⟩, rfl, rfl, rfl, rfl, rfl, rfl, by decide⟩

/-- Outcome C of P7: old values for the low slots, new ones for the high ones, although the writes ascend. -/
theorem test_torn_outcome_C :
    (match core.run 12 { tearing with agenda :=
        [.tickEvent, .tickEvent] ++ List.replicate 6 .pktEvent ++ List.replicate 4 .tickEvent } with
      | .next t => decide (t.loc.gains = ⟨0, 0, 200, 0, 0, 10⟩)
      | _ => false) = true := by decide +kernel

theorem witness_StepKeepsTheInvariant : State.reset.Ok ∧ isNext (step State.reset) = true :=
  ⟨witness_sound, by decide +kernel⟩

theorem witness_StepKeepsTheOrderOfTimes : State.reset.TimesOk ∧ PktOk State.reset.cfg State.reset.pkt ∧
    isNext (step State.reset) = true :=
  ⟨⟨rfl, by decide, by decide, by decide, by decide, by decide, by decide⟩, trivial, by decide +kernel⟩

theorem witness_StepStopsOnlyOutsideTheSpec : (step { State.reset with call := some ⟨0x00, []⟩ } = .refused .badCall) ∧
    (∃ d ds, (delivered (List.replicate 514 0)).inbox = d :: ds ∧
      (delivered (List.replicate 514 0)).cfg.rxMax < d.bytes.length) :=
  ⟨rfl, _, _, rfl, by decide +kernel⟩

theorem witness_StepKeepsConfigurationAndOutputs : isNext (step State.reset) = true := by decide +kernel

end Sys2Proof.Tests
end

section
/-! Proofs. The order of times (R6, R112 (vi), R114 (iii)): which events record a time, and that every event of either agent
keeps the order. -/

namespace Sys2Proof.Machine

/-- The times TICK has recorded: the failsafe's onset, the tick's start, `last_rx` as T7 read it, and T13's draw. -/
def State.tickTimes (s : State) : Nat × Nat × Nat × Nat := (s.ap.onset, s.lt.tStart, s.loc.seenRx, s.loc.now)

/-! ### TICK -/

/-- An event of TICK leaves PKT's times alone, so only the order of its own recorded times is to be shown. -/
theorem State.TimesOk.of_tickFrame {s t : State} (hs : s.TimesOk) (hf : TickFrame s t)
    (onset : t.ap.onset ≤ t.lt.tStart) (tStart : t.lt.tStart ≤ t.env.now) (seenRx : t.loc.seenRx ≤ t.env.now)
    (waitFrom : t.loc.now ≤ t.env.now) : t.TimesOk where
  call := hf.call.trans hs.call
  onset := onset
  tStart := tStart
  lastRx := hf.lastRx ▸ le_trans hs.lastRx hf.now
  rxTime := hf.rxTime ▸ le_trans hs.rxTime hf.now
  seenRx := seenRx
  waitFrom := waitFrom

/-- An event of TICK that records no time keeps the order of times. -/
theorem State.TimesOk.of_sameTimes {s t : State} (hs : s.TimesOk) (hf : TickFrame s t)
    (h : t.tickTimes = s.tickTimes) : t.TimesOk := by
  simp only [State.tickTimes, Prod.mk.injEq] at h
  obtain ⟨ho, ht, hr, hw⟩ := h
  apply hs.of_tickFrame hf
  · rw [ho, ht]
    exact hs.onset
  · exact ht ▸ le_trans hs.tStart hf.now
  · exact hr ▸ le_trans hs.seenRx hf.now
  · exact hw ▸ le_trans hs.waitFrom hf.now

/-- `EnterLowBatteryMode(t)` records no onset after `t` where there was none (R111, R114 (iii)). -/
theorem AutoPilot.entered_onset_le {a : AutoPilot} {t : Nat} (h : a.onset ≤ t) : (a.entered t).onset ≤ t := by
  unfold AutoPilot.entered
  split
  · exact h
  · exact le_rfl

/-- Events performed under a condition record no time if the events themselves record none. -/
theorem onlyIf_tickTimes {c : State → Bool} {es : List Event} (h : ∀ e ∈ es, ∀ s, (e s).tickTimes = s.tickTimes) :
    ∀ e ∈ es.map (Event.onlyIf c), ∀ s, (e s).tickTimes = s.tickTimes := by
  intro e he s
  obtain ⟨e', he', rfl⟩ := List.mem_map.mp he
  unfold Event.onlyIf
  split
  · exact h e' he' s
  · rfl

theorem ctlRun_tickTimes (f : State → AttitudeSample) (g : State → Vec3) :
    ∀ e ∈ ctlRunEvents f g, ∀ s, (e s).tickTimes = s.tickTimes := by
  intro e he s
  simp only [ctlRunEvents, List.mem_cons, List.not_mem_nil, or_false] at he
  rcases he with rfl | rfl | rfl | rfl | rfl | rfl | rfl <;> rfl

theorem mixTest_tickTimes (en : State → Word) : ∀ e ∈ mixTestEvents en, ∀ s, (e s).tickTimes = s.tickTimes := by
  intro e he s
  simp only [mixTestEvents, List.mem_cons, List.not_mem_nil, or_false] at he
  rcases he with rfl | rfl | rfl | rfl | rfl | rfl | rfl | rfl <;> rfl

theorem mixRun_tickTimes {compute : Event} (h : ∀ s, (compute s).tickTimes = s.tickTimes) :
    ∀ e ∈ mixRunEvents compute, ∀ s, (e s).tickTimes = s.tickTimes := by
  intro e he s
  simp only [mixRunEvents, List.mem_cons, List.not_mem_nil, or_false] at he
  rcases he with rfl | rfl | rfl | rfl | rfl | rfl | rfl | rfl | rfl
  · exact h s
  all_goals rfl

/-- T1, T3, T7 and T13 record a time; the events of the other steps record none. -/
theorem tickEvents_tickTimes {p : Phase} (hp : p ≠ .t1 ∧ p ≠ .t3 ∧ p ≠ .t7 ∧ p ≠ .t13) :
    ∀ e ∈ tickEvents p, ∀ s, (e s).tickTimes = s.tickTimes := by
  intro e he s
  obtain ⟨h1, h3, h7, h13⟩ := hp
  cases p with
  | t1 => exact absurd rfl h1
  | t3 => exact absurd rfl h3
  | t7 => exact absurd rfl h7
  | t13 => exact absurd rfl h13
  | t2 =>
    simp only [tickEvents, t2Events, List.mem_cons, List.not_mem_nil, or_false] at he
    rcases he with rfl | rfl <;> rfl
  | t4 =>
    simp only [tickEvents, t4Events, List.mem_cons, List.not_mem_nil, or_false] at he
    rcases he with rfl | rfl
    · simp only [State.tickTimes]
      split <;> rfl
    · rfl
  | t5 =>
    simp only [tickEvents, t5Events, List.mem_cons, List.not_mem_nil, or_false] at he
    rcases he with rfl | rfl | rfl
    · rfl
    all_goals
      simp only
      split
      · rfl
      · split <;> rfl
  | t6 =>
    simp only [tickEvents, t6Events, estUpdateEvents, List.mem_cons, List.not_mem_nil, or_false] at he
    rcases he with rfl | rfl | rfl | rfl | rfl | rfl | rfl | rfl | rfl | rfl <;> rfl
  | t8 =>
    simp only [tickEvents, t8Events, List.mem_cons, List.not_mem_nil, or_false] at he
    rcases he with rfl | rfl | rfl | rfl | rfl | rfl | rfl | rfl <;> rfl
  | t9 =>
    simp only [tickEvents, t9Events, List.mem_cons, List.not_mem_nil, or_false] at he
    subst he
    rfl
  | t10 =>
    rcases List.mem_cons.mp he with rfl | he
    · rfl
    · exact onlyIf_tickTimes (ctlRun_tickTimes _ _) e he s
  | t11 =>
    rcases List.mem_cons.mp he with rfl | he
    · rfl
    · rcases List.mem_append.mp he with he | he
      · exact onlyIf_tickTimes (mixTest_tickTimes _) e he s
      · refine onlyIf_tickTimes (mixRun_tickTimes ?_) e he s
        exact fun _ => rfl
  | t12 =>
    simp only [tickEvents, t12Events, List.mem_cons, List.not_mem_nil, or_false] at he
    rcases he with rfl | rfl | rfl <;> rfl

/-- Every event of every tick step keeps the order of times: T1 and T13 record a draw of the clock, T3 the tick's start, and
T7 a time of PKT's. -/
theorem tickEvents_timesOk (p : Phase) : ∀ e ∈ tickEvents p, ∀ s : State, s.TimesOk → (e s).TimesOk := by
  intro e he s hs
  have hf := tickEvents_frame p e he s
  have hnow := Env.now_le_clockValue s.env
  cases p with
  | t1 =>
    simp only [tickEvents, t1Events, List.mem_cons, List.not_mem_nil, or_false] at he
    rcases he with rfl | rfl | rfl | rfl
    · exact hs.of_tickFrame hf (le_trans hs.onset (le_trans hs.tStart hnow)) le_rfl (le_trans hs.seenRx hnow)
        (le_trans hs.waitFrom hnow)
    · exact hs.of_sameTimes hf rfl
    · exact hs.of_sameTimes hf rfl
    · refine hs.of_sameTimes hf ?_
      simp only
      split <;> rfl
  | t3 =>
    simp only [tickEvents, t3Events, List.mem_cons, List.not_mem_nil, or_false] at he
    subst he
    simp only
    split
    · exact hs.of_tickFrame (.of_env rfl le_rfl) (AutoPilot.entered_onset_le hs.onset) hs.tStart hs.seenRx hs.waitFrom
    · exact hs
  | t7 =>
    simp only [tickEvents, t7Events, List.mem_cons, List.not_mem_nil, or_false] at he
    rcases he with rfl | rfl
    · exact hs.of_tickFrame hf hs.onset hs.tStart hs.lastRx hs.waitFrom
    · refine hs.of_sameTimes hf ?_
      simp only
      split <;> rfl
  | t13 =>
    simp only [tickEvents, t13Events, List.mem_cons, List.not_mem_nil, or_false] at he
    rcases he with rfl | rfl
    · exact hs.of_tickFrame hf hs.onset (le_trans hs.tStart hnow) (le_trans hs.seenRx hnow) le_rfl
    · refine hs.of_sameTimes hf ?_
      simp only
      split
      · rfl
      · split <;> rfl
  | _ => exact hs.of_sameTimes hf (tickEvents_tickTimes (by decide) e he s)

/-- A step that is over has no locals left, so no recorded time of its own. -/
theorem State.TimesOk.endStep {s : State} (hs : s.TimesOk) (p : Phase) : (s.endStep p).TimesOk :=
  { hs with seenRx := Nat.zero_le _, waitFrom := Nat.zero_le _ }

/-- A turn of TICK keeps the order of times and does not run the clock back. -/
theorem tickTurn_timesOk {s t : State} {turn : Turn} (hs : s.TimesOk) (hturn : turn = .tick ∨ turn = .tickEvent)
    (h : s.takeTurn turn = .next t) : t.TimesOk ∧ s.env.now ≤ t.env.now := by
  obtain ⟨es, hes, ht⟩ := tickTurns_cases hturn h
  have hok : (runEvents es s).TimesOk := runEvents_keeps (fun e he => tickEvents_timesOk _ e (hes e he)) hs
  have hf : TickFrame s (runEvents es s) :=
    runEvents_relates TickFrame.refl TickFrame.trans (fun e he => tickEvents_frame _ e (hes e he)) s
  rcases ht with rfl | ⟨rfl, -⟩
  · exact ⟨hok.endStep _, hf.now⟩
  · exact ⟨{ hok with }, hf.now⟩

/-! ### PKT -/

/-- What keeps PKT's frame leaves TICK's times alone, so only PKT's two are to be shown. -/
theorem State.TimesOk.of_pktFrame {s t : State} (hs : s.TimesOk) (hf : PktFrame s t) (lastRx : t.lastRx ≤ t.env.now)
    (rxTime : t.rxTime ≤ t.env.now) : t.TimesOk where
  call := hf.call.trans hs.call
  onset := by
    rw [hf.ap, hf.lt]
    exact hs.onset
  tStart := hf.lt ▸ le_trans hs.tStart hf.now
  lastRx := lastRx
  rxTime := rxTime
  seenRx := hf.loc ▸ le_trans hs.seenRx hf.now
  waitFrom := hf.loc ▸ le_trans hs.waitFrom hf.now

/-- Every event of a command keeps the order of times: one records a draw of the clock, one stores it (R156). -/
theorem IsPktEvent.timesOk {e : Event} (h : IsPktEvent e) {s : State} (hs : s.TimesOk) : (e s).TimesOk := by
  have hf := h.frame s
  cases h with
  | draw => exact hs.of_pktFrame hf (le_trans hs.lastRx hf.now) le_rfl
  | stamp => exact hs.of_pktFrame hf hs.rxTime hs.rxTime
  | _ => exact hs.of_pktFrame hf hs.lastRx hs.rxTime

theorem takeUp_timesOk {s t : State} (hs : s.TimesOk) (h : s.takeUp = .next t) : t.TimesOk := by
  have hf := takeUp_frame h
  rcases takeUp_cases h with ⟨-, rfl⟩ | ⟨d, ds, i, -, -, rfl⟩ | ⟨d, ds, -, rfl⟩
  · exact hs
  all_goals exact hs.of_pktFrame hf hs.lastRx hs.rxTime

/-- A turn of PKT keeps the order of times and does not run the clock back. -/
theorem pktTurn_timesOk {s t : State} {turn : Turn} (hs : s.TimesOk) (hp : PktOk s.cfg s.pkt)
    (hturn : turn = .pkt ∨ turn = .pktEvent) (h : s.takeTurn turn = .next t) :
    t.TimesOk ∧ s.env.now ≤ t.env.now := by
  refine ⟨?_, (pktTurn_frame hp hturn h).now⟩
  obtain ⟨u, hu, ht⟩ := pktTurns_cases hp hturn h
  have hou : u.TimesOk := by
    rcases hu with rfl | ⟨-, hu⟩
    · exact hs
    · exact takeUp_timesOk hs hu
  rcases ht with rfl | ⟨i, k, es, -, hes, ht⟩
  · exact hou
  · have hok : (runEvents es u).TimesOk :=
      runEvents_keeps (fun e he _ => (pktEvents_kind (hes e he)).timesOk) hou
    rcases ht with rfl | ⟨rfl, -⟩
    · exact { hok with }
    · exact { hok with }

/-! ### The statement -/

/-- Settles O59: a step from a state of ordered times is a turn of TICK or of PKT, and both keep the order. -/
theorem stepKeepsTheOrderOfTimes : Obligations.StepKeepsTheOrderOfTimes := by
  unfold Obligations.StepKeepsTheOrderOfTimes
  intro s t hs hp h
  have ha : s.afterTurn.TimesOk := { hs with }
  rcases step_cases h with ⟨c, i, hc, -, -⟩ | ⟨-, hturn, ht⟩ | ⟨-, hturn, ht⟩
  · exact absurd (hs.call.symm.trans hc) (Option.some_ne_none c).symm
  · exact tickTurn_timesOk (s := s.afterTurn) ha hturn ht
  · exact pktTurn_timesOk (s := s.afterTurn) ha hp hturn ht

end Sys2Proof.Machine
end

section
/-! Proofs. Truncation toward zero as floor and ceiling, and the three properties of the conversion to a register (R4). -/

namespace Sys2Proof.Machine

theorem trunc_of_nonneg {v : Scalar} (h : 0 ≤ v) : trunc v = ⌊v⌋ := if_pos h

theorem trunc_of_nonpos {v : Scalar} (h : v ≤ 0) : trunc v = ⌈v⌉ := by
  rcases lt_or_eq_of_le h with hlt | rfl
  · exact (if_neg (not_le.mpr hlt)).trans (neg_eq_iff_eq_neg.mpr (Int.floor_neg (a := v)))
  · exact (trunc_intCast 0).trans Int.ceil_zero.symm

/-- The default quantiser saturates the truncated value. -/
theorem toRegInt_truncate {cfg : Cfg} (hq : cfg.q = .truncate) (v : Scalar) :
    toRegInt cfg v = max (-32768) (min (trunc v) 32767) := by
  rw [toRegInt, hq, sat16_eq]
  rfl

/-- Settles O5 by the laws of `toRegInt`; above zero only the upper bound saturates, below zero only the lower one. -/
theorem toRegKeepsItsThreeProperties : Obligations.ToRegKeepsItsThreeProperties := by
  unfold Obligations.ToRegKeepsItsThreeProperties
  intro cfg
  simp only [toReg_toInt]
  refine ⟨fun k => toRegInt_intCast cfg, fun u v => toRegInt_mono cfg,
    fun v => ⟨(toRegInt_range cfg v).1, (toRegInt_range cfg v).2, trivial⟩, fun hq v => ⟨fun hv => ?_, fun hv => ?_⟩⟩
  · have h0 : 0 ≤ ⌊v⌋ := Int.floor_nonneg.mpr hv
    rw [toRegInt_truncate hq, trunc_of_nonneg hv]
    omega
  · have h0 : ⌈v⌉ ≤ 0 := Int.ceil_nonpos.mpr hv
    rw [toRegInt_truncate hq, trunc_of_nonpos hv]
    omega

end Sys2Proof.Machine
end

section
/-! Proofs. The reset state under every admitted configuration (R2, R10, R30). -/

namespace Sys2Proof.Machine

/-- CFG0 meets each of R2's constraints: closed facts about its numbers. -/
theorem cfg0_ok : cfg0.Ok := by constructor <;> decide +kernel

theorem dutiesOk_zero : DutiesOk ⟨0, 0, 0, 0⟩ := fun i => by fin_cases i <;> decide

/-- The empty filter with a buffer of zeros is sound. -/
theorem filterOk_empty (n : Numerics) {w : Nat} (hw : 1 ≤ w) : FilterOk n w ⟨List.replicate w 0, 0, 0, 0⟩ :=
  Filter.cleared_ok (f := ⟨List.replicate w 0, 0, 0, 0⟩) hw List.length_replicate

theorem calibOk_empty : CalibOk ⟨List.replicate calCap Vec3.zero, 0, false⟩ :=
  ⟨List.length_replicate, Nat.zero_le _, by decide⟩

theorem resetOf_ok {cfg : Cfg} (h : cfg.Ok) (t : Nat) : (State.resetOf cfg t).Ok where
  cfg := h
  memory := resetOf_memory_wf h t
  filter := filterOk_empty cfg.num h.w_pos
  calib := calibOk_empty
  duty := dutiesOk_zero
  dutyOut := dutiesOk_zero
  micro := tickEvents_pos .t1
  pkt := trivial

/-- At reset the only recorded time that is not zero is `last_rx`, the reset time itself. -/
theorem resetOf_timesOk (cfg : Cfg) (t : Nat) : (State.resetOf cfg t).TimesOk where
  call := rfl
  onset := Nat.zero_le _
  tStart := Nat.zero_le _
  lastRx := le_rfl
  rxTime := Nat.zero_le _
  seenRx := Nat.zero_le _
  waitFrom := Nat.zero_le _

/-- Settles O8: `State.reset` is the reset state of CFG0 at time 0 by definition. -/
theorem resetMeetsTheInvariant : Obligations.ResetMeetsTheInvariant := by
  unfold Obligations.ResetMeetsTheInvariant
  exact ⟨rfl, cfg0_ok, fun cfg t h => ⟨resetOf_ok h t, resetOf_timesOk cfg t⟩⟩

end Sys2Proof.Machine
end

section
/-! Proofs. Every step keeps the invariant (R10, R21, R22, R25, R27, R83, R94), the configuration (R28), and the outputs so
far (R56). -/

namespace Sys2Proof.Machine

/-! ### The invariant -/

theorem TickFrame.pktOk {s t : State} (hf : TickFrame s t) (h : PktOk s.cfg s.pkt) : PktOk t.cfg t.pkt := by
  rw [hf.cfg, hf.pkt]
  exact h

theorem TickFrame.micro_lt {s t : State} (hf : TickFrame s t) (h : s.micro < (tickEvents s.phase).length) :
    t.micro < (tickEvents t.phase).length := by
  rw [hf.micro, hf.phase]
  exact h

theorem PktFrame.micro_lt {s t : State} (hf : PktFrame s t) (h : s.micro < (tickEvents s.phase).length) :
    t.micro < (tickEvents t.phase).length := by
  rw [hf.micro, hf.phase]
  exact h

/-- Soundness of the units and the bank with the progress of both agents is the invariant. -/
theorem Sound.ok {s : State} (h : Sound s) (micro : s.micro < (tickEvents s.phase).length) (pkt : PktOk s.cfg s.pkt) :
    s.Ok :=
  ⟨h.cfg, h.memory, h.filter, h.calib, h.duty, h.dutyOut, micro, pkt⟩

/-- A tick step, or any part of one, keeps the frame. -/
theorem tickPart_frame {p : Phase} {es : List Event} (h : ∀ e ∈ es, e ∈ tickEvents p) (s : State) :
    TickFrame s (runEvents es s) :=
  runEvents_relates TickFrame.refl TickFrame.trans (fun e he => tickEvents_frame p e (h e he)) s

theorem Sound.tickPart {s : State} (hs : Sound s) {p : Phase} {es : List Event} (h : ∀ e ∈ es, e ∈ tickEvents p) :
    Sound (runEvents es s) :=
  runEvents_keeps (fun e he => tickEvents_sound p e (h e he)) hs

/-- Some events of a tick step, with the step over: TICK is at the beginning of the next one. -/
theorem State.Ok.endStep {s : State} (hs : s.Ok) {p : Phase} {es : List Event} (hes : ∀ e ∈ es, e ∈ tickEvents p) :
    ((runEvents es s).endStep p).Ok := by
  have hsound : Sound ((runEvents es s).endStep p) := (hs.sound.tickPart hes).congr rfl rfl rfl rfl rfl rfl
  exact hsound.ok (tickEvents_pos p.next) ((tickPart_frame hes s).pktOk hs.pkt)

/-- What is no wire command is a tick step performed whole, or an operation on its own. -/
theorem exec_not_wire_cases {i : Instr} (hw : isWireCommand i = false) {s t : State} (h : exec i s = .next t) :
    (∃ p, t = s.runStep p) ∨ (phaseOf i = none ∧ TickFrame s t) := by
  cases hp : phaseOf i with
  | some p =>
    rw [exec_phase hp] at h
    cases h
    exact .inl ⟨p, rfl⟩
  | none =>
    obtain ⟨u, hu, hf⟩ := exec_operation hw hp s
    obtain rfl : u = t := by simpa [hu] using h
    exact .inr ⟨rfl, hf⟩

/-- What is run from `call` is a tick step or an operation, which leaves the progress of both agents alone. -/
theorem exec_call_ok {s t : State} {i : Instr} (hs : s.Ok) (hw : isWireCommand i = false) (h : exec i s = .next t) :
    t.Ok := by
  rcases exec_not_wire_cases hw h with ⟨p, rfl⟩ | ⟨hp, hf⟩
  · exact hs.endStep fun _ he => he
  · exact (exec_operation_sound hw hp hs.sound h).ok (hf.micro_lt hs.micro) (hf.pktOk hs.pkt)

theorem tickTurn_ok {s t : State} {turn : Turn} (hs : s.Ok) (hturn : turn = .tick ∨ turn = .tickEvent)
    (h : s.takeTurn turn = .next t) : t.Ok := by
  obtain ⟨es, hes, rfl | ⟨rfl, hlt⟩⟩ := tickTurns_cases hturn h
  · exact hs.endStep hes
  · have hf := tickPart_frame hes s
    refine Sound.ok ((hs.sound.tickPart hes).congr rfl rfl rfl rfl rfl rfl) ?_ (hf.pktOk hs.pkt)
    change s.micro + 1 < (tickEvents (runEvents es s).phase).length
    rw [hf.phase]
    exact hlt

/-- A datagram taken up is decoded to a wire command, none of whose events is done (R70, R150). -/
theorem takeUp_pktOk {s t : State} (hs : PktOk s.cfg s.pkt) (h : s.takeUp = .next t) : PktOk t.cfg t.pkt := by
  rcases takeUp_cases h with ⟨-, rfl⟩ | ⟨d, ds, i, -, hd, rfl⟩ | ⟨d, ds, -, rfl⟩
  · exact hs
  · have hw := decodeDatagram_wire hd
    exact ⟨hw, pktEvents_length hw _⟩
  · trivial

theorem pktTurn_pktOk {s t : State} {turn : Turn} (hs : PktOk s.cfg s.pkt) (hturn : turn = .pkt ∨ turn = .pktEvent)
    (h : s.takeTurn turn = .next t) : PktOk t.cfg t.pkt := by
  obtain ⟨u, hu, ht⟩ := pktTurns_cases hs hturn h
  have hou : PktOk u.cfg u.pkt := by
    rcases hu with rfl | ⟨-, hu⟩
    · exact hs
    · exact takeUp_pktOk hs hu
  rcases ht with rfl | ⟨i, k, es, hi, hes, rfl | ⟨rfl, hlt⟩⟩
  · exact hou
  · trivial
  · rw [hi] at hou
    change PktOk (runEvents es u).cfg (.handling i (k + 1))
    rw [(pktEvents_frame hes u).cfg]
    exact ⟨hou.1, hlt⟩

/-- Settles O58: an operation, a turn of TICK and a turn of PKT each keep soundness and the progress of both agents. -/
theorem stepKeepsTheInvariant : Obligations.StepKeepsTheInvariant := by
  unfold Obligations.StepKeepsTheInvariant
  intro s t hs h
  have ha : s.afterTurn.Ok := { hs with }
  rcases step_cases h with ⟨c, i, -, hd, hi⟩ | ⟨-, hturn, ht⟩ | ⟨-, hturn, ht⟩
  · exact exec_call_ok (s := { s with call := none }) { hs with } (decodeCall_not_wire hd) hi
  · exact tickTurn_ok ha hturn ht
  · have hf := pktTurn_frame (s := s.afterTurn) hs.pkt hturn ht
    exact (hf.sound ha.sound).ok (hf.micro_lt ha.micro) (pktTurn_pktOk (s := s.afterTurn) hs.pkt hturn ht)

/-! ### The configuration and the outputs -/

/-- A later state of the same block: the configuration stays, and outputs are only added (R28, R56). -/
def State.Extends (s t : State) : Prop := t.cfg = s.cfg ∧ s.out <+: t.out

theorem State.Extends.refl (s : State) : s.Extends s := ⟨rfl, List.prefix_refl _⟩

theorem State.Extends.trans {s t u : State} (h : s.Extends t) (k : t.Extends u) : s.Extends u := by
  obtain ⟨hcfg, hout⟩ := h
  obtain ⟨kcfg, kout⟩ := k
  exact ⟨kcfg.trans hcfg, hout.trans kout⟩

theorem TickFrame.extends {s t : State} (h : TickFrame s t) : s.Extends t := ⟨h.cfg, h.out⟩

theorem PktFrame.extends {s t : State} (h : PktFrame s t) : s.Extends t := ⟨h.cfg, h.out⟩

/-- Every instruction extends the state: a wire command, a tick step, or an operation on its own. -/
theorem exec_extends {i : Instr} {s t : State} (h : exec i s = .next t) : s.Extends t := by
  cases hw : isWireCommand i with
  | true =>
    rw [exec_wire hw] at h
    cases h
    exact ((pktEvents_frame (fun _ he => he) s).trans (.endHandling _)).extends
  | false =>
    rcases exec_not_wire_cases hw h with ⟨p, rfl⟩ | ⟨-, hf⟩
    · exact (tickStep_frame p s).extends
    · exact hf.extends

theorem tickTurn_extends {s t : State} {turn : Turn} (hturn : turn = .tick ∨ turn = .tickEvent)
    (h : s.takeTurn turn = .next t) : s.Extends t := by
  obtain ⟨es, hes, rfl | ⟨rfl, -⟩⟩ := tickTurns_cases hturn h
  · exact (tickPart_frame hes s).extends
  · exact (tickPart_frame hes s).extends

/-- Whatever PKT has in hand, a wire command or not, handling it extends the state. -/
theorem handleInHand_extends {s t : State} (h : s.handleInHand = .next t) : s.Extends t := by
  unfold State.handleInHand at h
  split at h
  · cases h
    exact .refl s
  · exact exec_extends h
  · cases h
    exact ((pktEvents_frame (fun _ => List.mem_of_mem_drop) s).trans (.endHandling _)).extends

theorem pktTurn_extends {s t : State} {turn : Turn} (hturn : turn = .pkt ∨ turn = .pktEvent)
    (h : s.takeTurn turn = .next t) : s.Extends t := by
  rcases hturn with rfl | rfl
  · change s.pktTurn = _ at h
    unfold State.pktTurn at h
    split at h
    · exact handleInHand_extends h
    · split at h
      · next u hu => exact (takeUp_frame hu).extends.trans (handleInHand_extends h)
      · cases h
      · cases h
  · change s.pktEventTurn = _ at h
    unfold State.pktEventTurn at h
    split at h
    · exact (takeUp_frame h).extends
    · next i k hi =>
      cases h
      rcases pktOne_cases s i k with ⟨e, he, ht, -⟩ | ⟨es, hes, ht⟩
      · rw [ht]
        exact ((pktEvents_kind he).frame s).extends
      · rw [ht]
        exact ((pktEvents_frame hes s).trans (.endHandling _)).extends

/-- Settles O60: an operation, a turn of TICK and a turn of PKT each extend the state. -/
theorem stepKeepsConfigurationAndOutputs : Obligations.StepKeepsConfigurationAndOutputs := by
  unfold Obligations.StepKeepsConfigurationAndOutputs
  intro s t h
  rcases step_cases h with ⟨c, i, -, -, hi⟩ | ⟨-, hturn, ht⟩ | ⟨-, hturn, ht⟩
  · exact exec_extends (s := { s with call := none }) hi
  · exact tickTurn_extends (s := s.afterTurn) hturn ht
  · exact pktTurn_extends (s := s.afterTurn) hturn ht

end Sys2Proof.Machine
end

section
/-! Proofs. The state after reset (R30), and the instructions that can change each unit's state, each flag and the receive
timestamp (R23, R29, R211, R230). -/

namespace Sys2Proof.Machine

/-- Settles O6: `State.resetOf` lists the values R30 gives. -/
theorem resetLeavesTheListedState : Obligations.ResetLeavesTheListedState := by
  unfold Obligations.ResetLeavesTheListedState
  intro cfg t
  exact ⟨rfl, rfl, rfl, rfl, rfl, rfl, rfl, rfl, rfl, rfl, rfl, rfl, rfl, rfl, rfl, rfl⟩

/-! ### What each instruction does to the units -/

/-- The state of the five units R211 names. -/
structure UnitState where
  bf : Filter
  cal : Calib
  origin : Vec3
  fstate : FState
  ap : AutoPilot

def State.units (s : State) : UnitState := ⟨s.bf, s.cal, s.origin, s.fstate, s.ap⟩

/-- The units after an instruction: the rows that write one say what it becomes, every other leaves all five as they are. -/
def State.unitsAfter (s : State) : Instr → UnitState
  | .mafReset => { s.units with bf := s.bf.cleared }
  | .mafPut v => { s.units with bf := s.bf.put s.cfg.num s.cfg.wBatt v }
  | .tickT1 => { s.units with bf := s.measured.bf }
  | .estInit => s.estInit.units
  | .estStartCal => { s.units with cal := s.cal.restart }
  | .tickT5 => { s.units with cal := if s.x .calib = 1 then s.cal.restart else s.cal }
  | .estUpdate => s.sense.units
  | .tickT6 => s.sense.units
  | .apInit => { s.units with ap := s.ap.initialised }
  | .tickT4 => { s.units with ap := if s.x .joyThrottle = 0 then s.ap.initialised else s.ap }
  | .apEnter t => { s.units with ap := s.ap.entered t }
  | .tickT3 => { s.units with
      ap := if lowBattery s.cfg s.lt.vf (s.x .battLowThreshold) then s.ap.entered s.lt.tStart else s.ap }
  | .apSetParam c d => { s.units with ap := s.ap.withParams s.cfg c d }
  | .tickT2 => { s.units with ap := s.ap.withParams s.cfg (s.x .landingCeiling) (s.x .descendDuration) }
  | _ => s.units

@[simp] theorem State.endStep_units (s : State) (p : Phase) : (s.endStep p).units = s.units := rfl

theorem PktFrame.units {s t : State} (h : PktFrame s t) : t.units = s.units := by
  simp only [State.units, h.bf, h.cal, h.origin, h.fstate, h.ap]

theorem exec_wire_units {i : Instr} (hw : isWireCommand i = true) {s t : State} (h : exec i s = .next t) :
    t.units = s.units := by
  rw [exec_wire hw] at h
  cases h
  exact ((pktEvents_frame (fun _ he => he) s).trans (.endHandling _)).units

theorem mixTest_units (en : Word) (s : State) : (runEvents (mixTestEvents fun _ => en) s).units = s.units := by
  rw [runEvents_mixTest]
  rfl

theorem mixRun_units (thr : Int) (rud ele ail : Scalar) (vf : Option Scalar) (s : State) :
    (runEvents (mixRunEvents fun u => u.computeDuties thr rud ele ail vf) s).units = s.units := by
  rw [runEvents_mixRun]
  simp only [State.units, State.setX_bf, State.setX_cal, State.setX_origin, State.setX_fstate, State.setX_ap,
    State.computeDuties]

/-- Every instruction does to the units what `unitsAfter` says. -/
theorem exec_units {i : Instr} {s t : State} (h : exec i s = .next t) : t.units = s.unitsAfter i := by
  cases i with
  | rd _ => exact exec_wire_units rfl h
  | wr _ _ => exact exec_wire_units rfl h
  | brd _ _ => exact exec_wire_units rfl h
  | bwr _ _ => exact exec_wire_units rfl h
  | echo _ => exact exec_wire_units rfl h
  | mixRun thr rud ele ail vf =>
    cases h
    exact mixRun_units thr rud ele ail vf s
  | mixTest en =>
    cases h
    exact mixTest_units en s
  | tickT1 =>
    rw [exec_phase (p := .t1) rfl, runStep_t1] at h
    cases h
    split <;> rfl
  | tickT3 =>
    rw [exec_phase (p := .t3) rfl, runStep_t3] at h
    by_cases hlow : lowBattery s.cfg s.lt.vf (s.x .battLowThreshold)
    · rw [if_pos hlow] at h
      cases h
      exact congrArg (UnitState.mk s.bf s.cal s.origin s.fstate) (if_pos hlow).symm
    · rw [if_neg hlow] at h
      cases h
      exact congrArg (UnitState.mk s.bf s.cal s.origin s.fstate) (if_neg hlow).symm
  | tickT5 =>
    rw [exec_phase (p := .t5) rfl, runStep_t5] at h
    by_cases hreq : s.x .calib = 1
    · rw [if_pos hreq] at h
      cases h
      exact congrArg (UnitState.mk s.bf · s.origin s.fstate s.ap) (if_pos hreq).symm
    · rw [if_neg hreq] at h
      cases h
      refine Eq.trans ?_ (congrArg (UnitState.mk s.bf · s.origin s.fstate s.ap) (if_neg hreq).symm)
      split <;> rfl
  | tickT7 =>
    rw [exec_phase (p := .t7) rfl, runStep_t7] at h
    cases h
    split <;> rfl
  | tickT10 =>
    rw [exec_phase (p := .t10) rfl, runStep_t10] at h
    cases h
    split <;> rfl
  | tickT11 =>
    rw [exec_phase (p := .t11) rfl, runStep_t11] at h
    cases h
    split
    · exact (State.endStep_units _ _).trans (mixTest_units _ s)
    · exact (State.endStep_units _ _).trans (mixRun_units _ _ _ _ _ s)
  | tickT13 =>
    rw [exec_phase (p := .t13) rfl, runStep_t13] at h
    cases h
    split
    · rfl
    · split <;> rfl
  | _ =>
    cases h
    rfl

/-- What an instruction can do to the filter: clear it, put a value, or leave it. -/
theorem exec_bf_cases {i : Instr} {s t : State} (h : exec i s = .next t) :
    (i = .mafReset ∧ t.bf = s.bf.cleared) ∨
    (((∃ v, i = .mafPut v) ∨ i = .tickT1) ∧ ∃ v, t.bf = s.bf.put s.cfg.num s.cfg.wBatt v) ∨
    t.bf = s.bf := by
  have hb : t.bf = (s.unitsAfter i).bf := congrArg UnitState.bf (exec_units h)
  cases i with
  | mafReset => exact .inl ⟨rfl, hb⟩
  | mafPut v => exact .inr (.inl ⟨.inl ⟨v, rfl⟩, v, hb⟩)
  | tickT1 => exact .inr (.inl ⟨.inr rfl, _, hb⟩)
  | _ => exact .inr (.inr hb)

/-- What an instruction can do to the calibration buffer, the bias and the fusion state: initialise them, restart the
calibration, take one sample, or leave them. -/
theorem exec_estimator_cases {i : Instr} {s t : State} (h : exec i s = .next t) :
    (i = .estInit ∧ t.cal = s.cal.restart) ∨
    ((i = .estStartCal ∨ (i = .tickT5 ∧ s.x .calib = 1)) ∧
      t.cal = s.cal.restart ∧ t.origin = s.origin ∧ t.fstate = s.fstate) ∨
    ((i = .estUpdate ∨ i = .tickT6) ∧ t.cal = s.sense.cal ∧ t.origin = s.sense.origin) ∨
    (t.cal = s.cal ∧ t.origin = s.origin ∧ t.fstate = s.fstate) := by
  have hc : t.cal = (s.unitsAfter i).cal := congrArg UnitState.cal (exec_units h)
  have ho : t.origin = (s.unitsAfter i).origin := congrArg UnitState.origin (exec_units h)
  have hf : t.fstate = (s.unitsAfter i).fstate := congrArg UnitState.fstate (exec_units h)
  cases i with
  | estInit => exact .inl ⟨rfl, hc⟩
  | estStartCal => exact .inr (.inl ⟨.inl rfl, hc, ho, hf⟩)
  | tickT5 =>
    by_cases hreq : s.x .calib = 1
    · exact .inr (.inl ⟨.inr ⟨rfl, hreq⟩, hc.trans (if_pos hreq), ho, hf⟩)
    · exact .inr (.inr (.inr ⟨hc.trans (if_neg hreq), ho, hf⟩))
  | estUpdate => exact .inr (.inr (.inl ⟨.inl rfl, hc, ho⟩))
  | tickT6 => exact .inr (.inr (.inl ⟨.inr rfl, hc, ho⟩))
  | _ => exact .inr (.inr (.inr ⟨hc, ho, hf⟩))

/-- What an instruction can do to the failsafe: initialise it, enter LowBattery, reload the parameters, or leave it. -/
theorem exec_ap_cases {i : Instr} {s t : State} (h : exec i s = .next t) :
    ((i = .apInit ∨ (i = .tickT4 ∧ s.x .joyThrottle = 0)) ∧ t.ap = s.ap.initialised) ∨
    (((∃ n, i = .apEnter n) ∨ i = .tickT3) ∧ ∃ n, t.ap = s.ap.entered n) ∨
    (((∃ c d, i = .apSetParam c d) ∨ i = .tickT2) ∧ ∃ c d, t.ap = s.ap.withParams s.cfg c d) ∨
    t.ap = s.ap := by
  have ha : t.ap = (s.unitsAfter i).ap := congrArg UnitState.ap (exec_units h)
  cases i with
  | apInit => exact .inl ⟨.inl rfl, ha⟩
  | tickT4 =>
    by_cases hzero : s.x .joyThrottle = 0
    · exact .inl ⟨.inr ⟨rfl, hzero⟩, ha.trans (if_pos hzero)⟩
    · exact .inr (.inr (.inr (ha.trans (if_neg hzero))))
  | apEnter n => exact .inr (.inl ⟨.inl ⟨n, rfl⟩, n, ha⟩)
  | tickT3 =>
    by_cases hlow : lowBattery s.cfg s.lt.vf (s.x .battLowThreshold)
    · exact .inr (.inl ⟨.inr rfl, _, ha.trans (if_pos hlow)⟩)
    · exact .inr (.inr (.inr (ha.trans (if_neg hlow))))
  | apSetParam c d => exact .inr (.inr (.inl ⟨.inl ⟨c, d, rfl⟩, c, d, ha⟩))
  | tickT2 => exact .inr (.inr (.inl ⟨.inr rfl, _, _, ha⟩))
  | _ => exact .inr (.inr (.inr ha))

/-- Only a wire command changes the receive timestamp (R211). -/
theorem exec_lastRx {i : Instr} (hw : isWireCommand i = false) {s t : State} (h : exec i s = .next t) :
    t.lastRx = s.lastRx := by
  rcases exec_not_wire_cases hw h with ⟨p, rfl⟩ | ⟨-, hf⟩
  · exact (tickStep_frame p s).lastRx
  · exact hf.lastRx

/-! ### Who writes what -/

theorem Filter.put_count_of_full {n : Numerics} {w : Nat} {f : Filter} (h : f.count = w) (v : Scalar) :
    (f.put n w v).count = w := by
  rw [Filter.put_full h.ge]
  exact h

/-- The bias is new only on the sample that makes the buffer ready (R94). -/
theorem biasAfter_ne {n : Numerics} {c : Calib} {origin g : Vec3} (h : biasAfter n c origin g ≠ origin) :
    c.ready = false ∧ (c.take g).ready = true := by
  unfold biasAfter at h
  split at h
  · next hfill =>
    obtain ⟨hr, hcount⟩ : c.ready = false ∧ (c.count + 1 == calCap) = true := by simpa using hfill
    exact ⟨hr, by rw [Calib.take_collecting hr]; exact hcount⟩
  · exact absurd rfl h

/-- The writers of the filter, and of its ready flag (R29 (i)). -/
theorem filter_writers {i : Instr} {s t : State} (h : exec i s = .next t) :
    (t.bf ≠ s.bf → i = .mafReset ∨ (∃ v, i = .mafPut v) ∨ i = .tickT1) ∧
    (1 ≤ s.cfg.wBatt → s.bf.count ≠ s.cfg.wBatt → t.bf.count = s.cfg.wBatt → (∃ v, i = .mafPut v) ∨ i = .tickT1) ∧
    (s.bf.count = s.cfg.wBatt → t.bf.count ≠ s.cfg.wBatt → i = .mafReset) := by
  rcases exec_bf_cases h with ⟨hi, hb⟩ | ⟨hi, v, hb⟩ | hb
  · have hcount : t.bf.count = 0 := congrArg Filter.count hb
    exact ⟨fun _ => .inl hi, fun hw _ hfull => by omega, fun _ _ => hi⟩
  · have hfull : s.bf.count = s.cfg.wBatt → t.bf.count = s.cfg.wBatt := fun hs => hb ▸ Filter.put_count_of_full hs v
    exact ⟨fun _ => .inr hi, fun _ _ _ => hi, fun hs hne => absurd (hfull hs) hne⟩
  · simp +contextual [hb]

/-- The writers of the calibration buffer, of the fusion state, of the bias, and of the buffer's ready flag (R23, R29). -/
theorem estimator_writers {i : Instr} {s t : State} (h : exec i s = .next t) :
    (t.cal ≠ s.cal → i = .estInit ∨ i = .estStartCal ∨ (i = .tickT5 ∧ s.x .calib = 1) ∨
      ((i = .estUpdate ∨ i = .tickT6) ∧ s.cal.ready = false)) ∧
    (t.fstate ≠ s.fstate → i = .estInit ∨ i = .estUpdate ∨ i = .tickT6) ∧
    (t.origin ≠ s.origin →
      i = .estInit ∨ ((i = .estUpdate ∨ i = .tickT6) ∧ s.cal.ready = false ∧ t.cal.ready = true)) ∧
    (s.cal.ready = false → t.cal.ready = true → i = .estUpdate ∨ i = .tickT6) ∧
    (s.cal.ready = true → t.cal.ready = false →
      i = .estInit ∨ i = .estStartCal ∨ (i = .tickT5 ∧ s.x .calib = 1)) := by
  rcases exec_estimator_cases h with ⟨hi, hc⟩ | ⟨hi, hc, ho, hf⟩ | ⟨hi, hc, ho⟩ | ⟨hc, ho, hf⟩
  · have hready : t.cal.ready = false := congrArg Calib.ready hc
    exact ⟨fun _ => .inl hi, fun _ => .inl hi, fun _ => .inl hi, by simp [hready], fun _ _ => .inl hi⟩
  · have hready : t.cal.ready = false := congrArg Calib.ready hc
    exact ⟨fun _ => .inr (hi.imp_right .inl), by simp [hf], by simp [ho], by simp [hready], fun _ _ => .inr hi⟩
  · have hkept : s.cal.ready = true → t.cal = s.cal := fun hr => hc.trans (Calib.take_ready hr _)
    refine ⟨fun hne => .inr (.inr (.inr ⟨hi, ?_⟩)), fun _ => .inr hi, fun hne => .inr ⟨hi, ?_⟩, fun _ _ => hi,
      fun hr ht => ?_⟩
    · exact Bool.eq_false_iff.mpr fun hr => hne (hkept hr)
    · rw [hc]
      rw [ho] at hne
      exact biasAfter_ne hne
    · rw [hkept hr, hr] at ht
      cases ht
  · simp +contextual [hc, ho, hf]

/-- AP.ENTER leaves the parameters alone and LowBattery active (R111). -/
theorem AutoPilot.entered_frame (a : AutoPilot) (n : Nat) :
    (a.entered n).ceiling = a.ceiling ∧ (a.entered n).descend = a.descend ∧ (a.entered n).active = true := by
  unfold AutoPilot.entered
  split
  · next hactive => exact ⟨rfl, rfl, hactive⟩
  · exact ⟨rfl, rfl, rfl⟩

/-- The writers of the failsafe's parameters, of its onset, and of its flag (R29, R110 to R113). -/
theorem failsafe_writers {i : Instr} {s t : State} (h : exec i s = .next t) :
    (t.ap.ceiling ≠ s.ap.ceiling ∨ t.ap.descend ≠ s.ap.descend → (∃ c d, i = .apSetParam c d) ∨ i = .tickT2) ∧
    (t.ap.onset ≠ s.ap.onset → (∃ n, i = .apEnter n) ∨ i = .tickT3) ∧
    (s.ap.active = false → t.ap.active = true → (∃ n, i = .apEnter n) ∨ i = .tickT3) ∧
    (s.ap.active = true → t.ap.active = false → i = .apInit ∨ (i = .tickT4 ∧ s.x .joyThrottle = 0)) := by
  rcases exec_ap_cases h with ⟨hi, ha⟩ | ⟨hi, n, ha⟩ | ⟨hi, c, d, ha⟩ | ha
  · exact ⟨by simp [ha, AutoPilot.initialised], by simp [ha, AutoPilot.initialised],
      by simp [ha, AutoPilot.initialised], fun _ _ => hi⟩
  · obtain ⟨hceil, hdesc, hactive⟩ := AutoPilot.entered_frame s.ap n
    exact ⟨by simp [ha, hceil, hdesc], fun _ => hi, fun _ _ => hi, by simp [ha, hactive]⟩
  · exact ⟨fun _ => hi, by simp [ha, AutoPilot.withParams], by simp +contextual [ha, AutoPilot.withParams],
      by simp +contextual [ha, AutoPilot.withParams]⟩
  · simp +contextual [ha]

/-- Settles O49 unit by unit: the filter, the estimator, the failsafe, and PKT's timestamp. -/
theorem unitsHaveTheirWriters : Obligations.UnitsHaveTheirWriters := by
  unfold Obligations.UnitsHaveTheirWriters
  intro i s t h
  obtain ⟨hbf, hset, hclear⟩ := filter_writers h
  obtain ⟨hcal, hfstate, horigin, hready, hrestart⟩ := estimator_writers h
  obtain ⟨hparams, honset, henter, hleave⟩ := failsafe_writers h
  have hrx : t.lastRx ≠ s.lastRx → isWireCommand i = true := fun hne => by
    by_contra hw
    exact hne (exec_lastRx (Bool.eq_false_iff.mpr hw) h)
  exact ⟨hbf, hset, hclear, hcal, hfstate, horigin, hready, hrestart, hparams, honset, henter, hleave, hrx⟩

end Sys2Proof.Machine
end

section
/-! Proofs. The values of the register bank: the two bytes of a value on the wire (R44, R66), and RB.READ and RB.WRITE
inside and outside `[0, N)` (R41, R42). -/

namespace Sys2Proof.Machine

/-! ### Values on the wire -/

/-- Two wire bytes read signed: the unsigned reading, less 65536 from 32768 on (R44). -/
theorem wordOf_toInt (lo hi : Byte) : (wordOf lo hi).toInt =
    let u : Int := lo.toNat + 256 * hi.toNat
    if u < 32768 then u else u - 65536 := by
  have hu := wordOf_toNat lo hi
  simp only [BitVec.toInt_eq_toNat_cond]
  split <;> split <;> omega

/-- Settles O3: one direction is the signed reading of a word, the other the bytes taken out of it. -/
theorem valuesAreLittleEndianSigned : Obligations.ValuesAreLittleEndianSigned :=
  ⟨wordOf_toInt, fun v => ⟨loByte_toNat v, hiByte_toNat v, wordOf_lo_hi v⟩⟩

/-! ### RB.READ and RB.WRITE -/

theorem regRead_of_inRange {s : State} {id : Int} (h : 0 ≤ id ∧ id < s.cfg.n) : regRead s id = s.regs[id.toNat]? :=
  if_pos h

theorem regRead_of_outOfRange {s : State} {id : Int} (h : ¬(0 ≤ id ∧ id < s.cfg.n)) : regRead s id = none :=
  if_neg h

theorem regWrite_of_inRange {s : State} {id : Int} (h : 0 ≤ id ∧ id < s.cfg.n) (v : Word) :
    regWrite s id v = s.setSlot id.toNat v := by
  simp [regWrite, h, State.setSlot]

theorem regWrite_of_outOfRange {s : State} {id : Int} (h : ¬(0 ≤ id ∧ id < s.cfg.n)) (v : Word) :
    regWrite s id v = s := by
  simp [regWrite, h]

theorem exec_rbRead (id : Int) (s : State) : exec (.rbRead id) s = .next { s with ret := .slot (regRead s id) } := rfl

theorem exec_rbWrite (id : Int) (v : Word) (s : State) : exec (.rbWrite id v) s = .next (regWrite s id v) := rfl

/-- Settles O9: in range the slot is there to be read and set, out of range nothing is. -/
theorem registerReadAndWrite : Obligations.RegisterReadAndWrite := by
  unfold Obligations.RegisterReadAndWrite
  intro s id v _ hm
  rw [exec_rbRead, exec_rbWrite]
  constructor
  · intro hlo hhi
    have hlen : id.toNat < s.regs.length := by
      rw [memory_length hm]
      omega
    rw [regRead_of_inRange ⟨hlo, hhi⟩, regWrite_of_inRange ⟨hlo, hhi⟩]
    refine ⟨⟨_, slot_getElem? hlen, by rw [slot_getElem? hlen]⟩, _, rfl, rfl, by simp, ?_, fun j hj => ?_⟩
    · exact List.getElem?_set_self hlen
    · exact List.getElem?_set_ne hj.symm
  · intro hout
    have hnot : ¬(0 ≤ id ∧ id < s.cfg.n) := by omega
    rw [regRead_of_outOfRange hnot, regWrite_of_outOfRange hnot]
    exact ⟨rfl, rfl⟩

end Sys2Proof.Machine
end

section
/-! Proofs. Runs of single events (R50, R52): the events of a tick step, or of a command, performed one per turn with no
event of the other agent between, end where the whole instruction ends. -/

namespace Sys2Proof.Machine

/-- A run of one event per step: `Left es s t` says that the events `es` are left in `s` and end in `t`. -/
theorem run_oneByOne {Left : List Event → State → State → Prop}
    (last : ∀ {e s t}, Left [e] s t → step s = .next t)
    (more : ∀ {e e' es s t}, Left (e :: e' :: es) s t → ∃ u, step s = .next u ∧ Left (e' :: es) u t)
    {es : List Event} {s t : State} (hpos : 0 < es.length) (h : Left es s t) : core.run es.length s = .next t := by
  induction es generalizing s with
  | nil => cases hpos
  | cons e es ih =>
    cases es with
    | nil => exact run_next (last h)
    | cons e' es =>
      obtain ⟨u, hstep, hu⟩ := more h
      exact (run_next hstep).trans (ih (Nat.succ_pos _) hu)

theorem drop_succ_of_drop_eq_cons {α : Type} {l as : List α} {a : α} {n : Nat} (h : l.drop n = a :: as) :
    l.drop (n + 1) = as := by
  rw [← List.tail_drop, h, List.tail_cons]

/-! ### One event of an agent -/

theorem tickOne_last {s : State} {e : Event} (h : (tickEvents s.phase).drop s.micro = [e]) :
    s.tickOne = (e s).endStep s.phase := by
  rw [State.tickOne, h]

theorem tickOne_more {s : State} {e e' : Event} {es : List Event}
    (h : (tickEvents s.phase).drop s.micro = e :: e' :: es) : s.tickOne = { e s with micro := s.micro + 1 } := by
  rw [State.tickOne, h]

theorem pktOne_last {s : State} {i : Instr} {k : Nat} {e : Event} (h : (pktEvents s.cfg i).drop k = [e]) :
    s.pktOne i k = (e s).endHandling := by
  rw [State.pktOne, h]

theorem pktOne_more {s : State} {i : Instr} {k : Nat} {e e' : Event} {es : List Event}
    (h : (pktEvents s.cfg i).drop k = e :: e' :: es) : s.pktOne i k = { e s with pkt := .handling i (k + 1) } := by
  rw [State.pktOne, h]

/-! ### TICK -/

theorem runEvents_placed {es : List Event} (h : ∀ e ∈ es, AgendaFree e) (s : State) (a : List Turn) (m : Nat) :
    runEvents es (s.placed a m) = (runEvents es s).placed a m := by
  induction es generalizing s with
  | nil => rfl
  | cons e es ih =>
    rw [runEvents_cons, h e List.mem_cons_self]
    exact ih (fun e' he => h e' (List.mem_cons_of_mem e he)) (e s)

theorem afterTurn_eq_placed (s : State) : s.afterTurn = s.placed s.agenda.tail s.micro := rfl

/-- TICK has the events `es` of its step left and the agenda gives it each in turn, then goes on with `rest`; `t` is the
state in which they are all performed and the step is over. -/
structure TickLeft (rest : List Turn) (es : List Event) (s t : State) : Prop where
  call : s.call = none
  left : (tickEvents s.phase).drop s.micro = es
  agenda : s.agenda = List.replicate es.length .tickEvent ++ rest
  ends : t = ((runEvents es s).endStep s.phase).placed rest 0

theorem TickLeft.agendaFree {rest : List Turn} {es : List Event} {s t : State} (h : TickLeft rest es s t) :
    ∀ e ∈ es, AgendaFree e :=
  fun e he => tickEvents_agendaFree s.phase e (List.mem_of_mem_drop (h.left ▸ he))

theorem TickLeft.last {rest : List Turn} {e : Event} {s t : State} (h : TickLeft rest [e] s t) : step s = .next t := by
  have htail : s.agenda.tail = rest := by rw [h.agenda]; rfl
  rw [step_tickEvent h.call h.agenda, tickOne_last (s := s.afterTurn) h.left, afterTurn_eq_placed,
    h.agendaFree e List.mem_cons_self, htail, h.ends]
  rfl

theorem TickLeft.more {rest : List Turn} {e e' : Event} {es : List Event} {s t : State}
    (h : TickLeft rest (e :: e' :: es) s t) : ∃ u, step s = .next u ∧ TickLeft rest (e' :: es) u t := by
  have hfree := h.agendaFree
  have hframe : TickFrame s (e s) := tickEvents_frame s.phase e (List.mem_of_mem_drop (h.left ▸ List.mem_cons_self)) s
  have hone : s.afterTurn.tickOne = (e s).placed s.agenda.tail (s.micro + 1) := by
    have hplaced : e s.afterTurn = (e s).placed s.agenda.tail s.micro := hfree e List.mem_cons_self s _ _
    rw [tickOne_more (s := s.afterTurn) h.left, hplaced]
    rfl
  refine ⟨_, (step_tickEvent h.call h.agenda).trans (congrArg _ hone), ?_⟩
  constructor
  case call => exact hframe.call.trans h.call
  case left =>
    change (tickEvents (e s).phase).drop (s.micro + 1) = _
    rw [hframe.phase]
    exact drop_succ_of_drop_eq_cons h.left
  case agenda =>
    change s.agenda.tail = _
    rw [h.agenda]
    rfl
  case ends =>
    rw [runEvents_placed fun f hf => hfree f (List.mem_cons_of_mem e hf), h.ends]
    change _ = (State.endStep _ (e s).phase).placed rest 0
    rw [hframe.phase]
    rfl

/-- Settles O55: with every event of the step left, the run of its events ends in the step performed whole. -/
theorem stepIsTheSumOfItsEvents : Obligations.StepIsTheSumOfItsEvents := by
  unfold Obligations.StepIsTheSumOfItsEvents
  intro s rest hc hm ha
  have hwhole : exec s.phase.instr { s with agenda := rest } =
      .next (((runEvents (tickEvents s.phase) s).endStep s.phase).placed rest 0) := by
    change exec s.phase.instr (s.placed rest s.micro) = _
    rw [exec_tick, State.runStep, runEvents_placed (tickEvents_agendaFree s.phase)]
    rfl
  rw [hwhole]
  exact run_oneByOne (Left := TickLeft rest) TickLeft.last TickLeft.more (tickEvents_pos s.phase)
    { call := hc, left := by rw [hm, List.drop_zero], agenda := ha, ends := rfl }

/-! ### PKT -/

/-- A state with another agenda and another stage of PKT. -/
def State.handed (s : State) (a : List Turn) (p : PktStage) : State := { s with agenda := a, pkt := p }

/-- An event of a command ends alike but for the agenda and the stage, whatever those two were. -/
theorem IsPktEvent.handed {e : Event} (h : IsPktEvent e) {s t : State} {a : List Turn} {p : PktStage}
    (hst : s.handed a p = t.handed a p) : (e s).handed a p = (e t).handed a p := by
  calc (e s).handed a p = (e (s.handed a p)).handed a p := (h.agendaFree s a p).symm
    _ = (e (t.handed a p)).handed a p := by rw [hst]
    _ = (e t).handed a p := h.agendaFree t a p

theorem runEvents_handed {es : List Event} (h : ∀ e ∈ es, IsPktEvent e) {s t : State} {a : List Turn} {p : PktStage}
    (hst : s.handed a p = t.handed a p) : (runEvents es s).handed a p = (runEvents es t).handed a p := by
  induction es generalizing s t with
  | nil => exact hst
  | cons e es ih =>
    exact ih (fun e' he' => h e' (List.mem_cons_of_mem e he')) ((h e List.mem_cons_self).handed hst)

theorem endHandling_handed {s : State} {a : List Turn} (h : s.agenda = a) (p : PktStage) :
    (s.handed a p).endHandling = s.endHandling := by
  subst h
  rfl

/-- PKT has the events `es` of the command in hand left and the agenda gives it each in turn, then goes on with `rest`; `t`
is the state in which they are all performed and the handling is over. -/
structure PktLeft (i : Instr) (rest : List Turn) (es : List Event) (s t : State) : Prop where
  call : s.call = none
  left : ∃ k, s.pkt = .handling i k ∧ (pktEvents s.cfg i).drop k = es
  agenda : s.agenda = List.replicate es.length .pktEvent ++ rest
  ends : t = ((runEvents es s).handed rest .idle).endHandling

theorem PktLeft.kind {i : Instr} {rest : List Turn} {es : List Event} {s t : State} (h : PktLeft i rest es s t) :
    ∀ e ∈ es, IsPktEvent e := by
  obtain ⟨k, -, hleft⟩ := h.left
  exact fun e he => pktEvents_kind (List.mem_of_mem_drop (hleft ▸ he))

theorem PktLeft.last {i : Instr} {rest : List Turn} {e : Event} {s t : State} (h : PktLeft i rest [e] s t) :
    step s = .next t := by
  obtain ⟨k, hpkt, hleft⟩ := h.left
  have hkind := h.kind e List.mem_cons_self
  have hagenda : (e s.afterTurn).agenda = rest := by
    rw [(hkind.frame _).agenda, State.afterTurn_agenda, h.agenda]
    rfl
  have hsame : (e s.afterTurn).handed rest .idle = (e s).handed rest .idle := hkind.handed rfl
  rw [step_pktEvent h.call h.agenda hpkt, pktOne_last (s := s.afterTurn) hleft, h.ends, runEvents_cons, runEvents_nil,
    ← hsame, endHandling_handed hagenda]

theorem PktLeft.more {i : Instr} {rest : List Turn} {e e' : Event} {es : List Event} {s t : State}
    (h : PktLeft i rest (e :: e' :: es) s t) : ∃ u, step s = .next u ∧ PktLeft i rest (e' :: es) u t := by
  obtain ⟨k, hpkt, hleft⟩ := h.left
  have hkind := h.kind e List.mem_cons_self
  have hframe := hkind.frame s.afterTurn
  refine ⟨_, (step_pktEvent h.call h.agenda hpkt).trans (congrArg _ (pktOne_more (s := s.afterTurn) hleft)), ?_⟩
  constructor
  case call => exact hframe.call.trans h.call
  case left =>
    refine ⟨k + 1, rfl, ?_⟩
    change (pktEvents (e s.afterTurn).cfg i).drop (k + 1) = _
    rw [hframe.cfg]
    exact drop_succ_of_drop_eq_cons hleft
  case agenda =>
    change (e s.afterTurn).agenda = _
    rw [hframe.agenda, State.afterTurn_agenda, h.agenda]
    rfl
  case ends =>
    have hsame : (e s).handed rest .idle = (e s.afterTurn).handed rest .idle := hkind.handed rfl
    rw [h.ends, runEvents_cons]
    exact congrArg _ (runEvents_handed (fun f hf => h.kind f (List.mem_cons_of_mem e hf)) hsame)

/-- A datagram that decodes is in hand after PKT has taken it up, none of its events done (R150). -/
theorem takeUp_decoded {s : State} {d : Datagram} {ds : List Datagram} {i : Instr} (hi : s.inbox = d :: ds)
    (hd : decodeDatagram s.cfg.rxMax d.bytes = .ok i) :
    s.takeUp = .next { s with inbox := ds, rx := d, tx := [], pkt := .handling i 0 } := by
  simp only [State.takeUp, hi, hd]

/-- PKT's turn of one event with nothing in hand is taking a datagram up, where the agenda plans it. -/
theorem step_takeUp {s : State} {rest : List Turn} (hc : s.call = none) (ha : s.agenda = .pktEvent :: rest)
    (hp : s.pkt = .idle) : step s = s.afterTurn.takeUp := by
  have hturn : s.turn = .pktEvent := by rw [State.turn, ha]
  rw [step_turn hc, hturn]
  simp only [State.takeTurn, State.pktEventTurn, State.afterTurn_pkt, hp]

/-- Settles O56: the datagram is taken up with every event of its command left, and the run of those ends in the command
performed whole. -/
theorem commandIsTheSumOfItsEvents : Obligations.CommandIsTheSumOfItsEvents := by
  unfold Obligations.CommandIsTheSumOfItsEvents
  intro s d ds i rest hc hp hi hd ha
  have hw := decodeDatagram_wire hd
  have htake := (step_takeUp hc ha hp).trans (takeUp_decoded (s := s.afterTurn) hi hd)
  refine (run_next htake).trans ?_
  rw [exec_wire hw]
  refine run_oneByOne (Left := PktLeft i rest) PktLeft.last PktLeft.more (pktEvents_length hw s.cfg) ?_
  constructor
  case call => exact hc
  case left => exact ⟨0, rfl, rfl⟩
  case agenda =>
    change s.agenda.tail = _
    rw [ha]
    rfl
  case ends =>
    have hframe := pktEvents_frame (cfg := s.cfg) (i := i) (fun _ he => he)
      { s with agenda := rest, inbox := ds, rx := d, tx := [], pkt := .handling i 0 }
    change (runEvents (pktEvents s.cfg i) _).endHandling = _
    rw [← endHandling_handed hframe.agenda .idle]
    exact congrArg _ (runEvents_handed (fun _ => pktEvents_kind) rfl)

end Sys2Proof.Machine
end

section
/-! Proofs. The litmus test of the six gains (R50, R51 (iii), P7): the gain reads of T10 and the slot writes of a BWR meet
gain by gain, and which of the two comes first decides what is read. -/

namespace Sys2Proof.Machine

/-! ### One gain read, one slot write -/

/-- The six gains read, in the order of `gainRegs` (R126). -/
def Gains.values (g : Gains) : List Word := [g.pYaw, g.pPitch, g.pRoll, g.dYaw, g.dPitch, g.dRoll]

theorem gainRegs_length : gainRegs.length = 6 := rfl

/-- The event after the first `k` gain reads of an armed T10 reads the next gain, and the step goes on (R126, R180). -/
theorem tickOne_gain {s : State} {k : Nat} (hp : s.phase = .t10) (hm : s.micro = k + 1) (ha : s.armed = true)
    (hk : k < gainRegs.length) : ∃ g : Gains, g.values = s.loc.gains.values.set k (s.x gainRegs[k]) ∧
      s.tickOne = { s with micro := k + 2, loc := { s.loc with gains := g } } := by
  have hread (f : Event) : Event.onlyIf State.armed f s = f s := if_pos ha
  rw [gainRegs_length] at hk
  interval_cases k <;> exact ⟨_, rfl, by rw [tickOne_more (by rw [hp, hm]; rfl), hread, hm]⟩

theorem drop_writeEvents (vs : List Word) : ∀ addr k : Nat,
    (writeEvents addr vs).drop k = writeEvents (addr + k) (vs.drop k) := by
  induction vs with
  | nil => intro addr k; simp [writeEvents]
  | cons v vs ih =>
    intro addr k
    cases k with
    | zero => rfl
    | succ k => rw [writeEvents, List.drop_succ_cons, ih, List.drop_succ_cons, Nat.add_right_comm, Nat.add_assoc]

/-- The event after the first `k` writes of a BWR writes the next slot; the last one ends the handling (R154). -/
theorem pktOne_write {s : State} {addr : Byte} {vs : List Word} {k : Nat}
    (hin : addr.toNat < s.cfg.n ∧ addr.toNat + vs.length ≤ s.cfg.n) (hk : k < vs.length) :
    ∃ (rx : Datagram) (tx : List Byte) (p : PktStage),
      (k + 1 < vs.length → p = .handling (.bwr addr vs) (k + 3)) ∧
      s.pktOne (.bwr addr vs) (k + 2) = { s.setSlot (addr.toNat + k) vs[k] with rx := rx, tx := tx, pkt := p } := by
  have hdrop : (pktEvents s.cfg (.bwr addr vs)).drop (k + 2) =
      writeSlot (addr.toNat + k) vs[k] :: writeEvents (addr.toNat + k + 1) (vs.drop (k + 1)) := by
    change (checkedEvents s.cfg addr.toNat vs.length _).drop k = _
    rw [checkedEvents_in _ hin, drop_writeEvents, List.drop_eq_getElem_cons hk, writeEvents]
  cases hrest : vs.drop (k + 1) with
  | nil =>
    rw [hrest] at hdrop
    have hlen : vs.length ≤ k + 1 := List.drop_eq_nil_iff.mp hrest
    exact ⟨_, _, _, fun h => absurd h (Nat.not_lt.mpr hlen), pktOne_last hdrop⟩
  | cons v ws =>
    rw [hrest] at hdrop
    exact ⟨_, _, _, fun _ => rfl, pktOne_more hdrop⟩

/-! ### Reads and writes interleaved -/

/-- The values of a BWR go to the six gain registers, one to each in the order CTL.RUN reads them. -/
structure WritesGains (s : State) (addr : Byte) (vs : List Word) : Prop where
  count : vs.length = 6
  bank : s.regs.length = s.cfg.n
  range : addr.toNat + 6 ≤ s.cfg.n
  ids : ∀ k (h : k < gainRegs.length), s.cfg.id gainRegs[k] = addr.toNat + k

theorem State.Ok.writesGains {s : State} (hs : s.Ok) {addr : Byte} {vs : List Word} (hvs : vs.length = 6)
    (hid : ∀ k : Fin 6, (gainRegs[k.val]?).map s.cfg.id = some (addr.toNat + k.val)) : WritesGains s addr vs := by
  have ids : ∀ k (h : k < gainRegs.length), s.cfg.id gainRegs[k] = addr.toNat + k := fun k h => by
    simpa [h] using hid ⟨k, h⟩
  refine ⟨hvs, memory_length hs.memory, ?_, ids⟩
  have hlast := id_lt hs.cfg gainRegs[5]
  rw [ids 5 (by decide)] at hlast
  omega

/-- What gain `k` may be read as: the value of the BWR, or what its slot held in `s`. -/
def gainValue (s : State) (addr : Byte) (vs : List Word) (new : Bool) (k : Nat) : Option Word :=
  if new then vs[k]? else some (s.slot (addr.toNat + k))

/-- From `s`, T10 has read the first `reads` gains, new or old as chosen, and the BWR has written the first `writes`
slots. -/
structure Torn (s : State) (addr : Byte) (vs : List Word) (new : Fin 6 → Bool) (reads writes : Nat) (t : State) :
    Prop where
  cfg : t.cfg = s.cfg
  length : t.regs.length = s.regs.length
  call : t.call = none
  phase : t.phase = .t10
  armed : t.armed = true
  micro : t.micro = reads + 1
  pkt : writes < vs.length → t.pkt = .handling (.bwr addr vs) (writes + 2)
  slot : ∀ k : Fin 6, some (t.slot (addr.toNat + k)) = gainValue s addr vs (decide (k < writes)) k
  gains : ∀ k : Fin 6, k < reads → t.loc.gains.values[k.val]? = gainValue s addr vs (new k) k

/-- The turns in which one gain is written and read, or read and then written. -/
def tearingTurns (new : Bool) : List Turn := if new then [.pktEvent, .tickEvent] else [.tickEvent, .pktEvent]

section
variable {s t : State} {addr : Byte} {vs : List Word} {new : Fin 6 → Bool} {reads writes : Nat} {rest : List Turn}

/-- TICK's turn reads the next gain: new if its slot has been written, else old. -/
theorem Torn.read (hs : WritesGains s addr vs) (h : Torn s addr vs new reads writes t) (hr : reads < 6)
    (hnew : new ⟨reads, hr⟩ = decide (reads < writes)) (ha : t.agenda = .tickEvent :: rest) :
    ∃ u, step t = .next u ∧ u.agenda = rest ∧ Torn s addr vs new (reads + 1) writes u := by
  obtain ⟨g, hg, hone⟩ := tickOne_gain (s := t.afterTurn) h.phase h.micro h.armed hr
  have hx : some (t.x gainRegs[reads]) = gainValue s addr vs (new ⟨reads, hr⟩) reads := by
    rw [State.x, h.cfg, hs.ids reads hr, hnew]
    exact h.slot ⟨reads, hr⟩
  refine ⟨_, (step_tickEvent h.call ha).trans (congrArg _ hone), ?_, ?_⟩
  · change t.agenda.tail = rest
    rw [ha, List.tail_cons]
  · refine { h with micro := rfl, gains := fun k hk => ?_ }
    change g.values[k.val]? = _
    rw [hg]
    by_cases hkr : k.val = reads
    · obtain rfl : k = ⟨reads, hr⟩ := Fin.ext hkr
      rw [← hx]
      exact List.getElem?_set_self hr
    · rw [List.getElem?_set_ne (Ne.symm hkr)]
      exact h.gains k (by omega)

/-- PKT's turn writes the next slot. -/
theorem Torn.write (hs : WritesGains s addr vs) (h : Torn s addr vs new reads writes t) (hw : writes < 6)
    (ha : t.agenda = .pktEvent :: rest) :
    ∃ u, step t = .next u ∧ u.agenda = rest ∧ Torn s addr vs new reads (writes + 1) u := by
  have hrange := hs.range
  have hw' : writes < vs.length := hs.count ▸ hw
  have hlen : addr.toNat + writes < t.regs.length := by
    rw [h.length, hs.bank]
    omega
  have hin : addr.toNat < t.cfg.n ∧ addr.toNat + vs.length ≤ t.cfg.n := by
    rw [h.cfg, hs.count]
    omega
  obtain ⟨rx, tx, p, hp, hone⟩ := pktOne_write (s := t.afterTurn) hin hw'
  refine ⟨_, (step_pktEvent h.call ha (h.pkt hw')).trans (congrArg _ hone), ?_, ?_⟩
  · change t.agenda.tail = rest
    rw [ha, List.tail_cons]
  · refine { h with length := (List.length_set ..).trans h.length, pkt := hp, slot := fun k => ?_ }
    change some ((t.setSlot _ _).slot _) = _
    by_cases hkw : k.val = writes
    · rw [hkw, slot_setSlot_self t _ hlen]
      simp [gainValue, hw']
    · have hiff : k.val < writes + 1 ↔ k.val < writes := by omega
      rw [slot_setSlot_ne t _ (by omega), h.slot k]
      simp only [hiff]

/-- One gain more, in the order of events its choice asks for. -/
theorem Torn.pair (hs : WritesGains s addr vs) {k : Nat} (h : Torn s addr vs new k k t) (hk : k < 6)
    (ha : t.agenda = tearingTurns (new ⟨k, hk⟩) ++ rest) :
    ∃ u, core.run 2 t = .next u ∧ u.agenda = rest ∧ Torn s addr vs new (k + 1) (k + 1) u := by
  cases hnew : new ⟨k, hk⟩ with
  | true =>
    rw [hnew] at ha
    obtain ⟨u, hu, hau, hwritten⟩ := h.write hs hk ha
    obtain ⟨v, hv, hav, hread⟩ := hwritten.read hs hk (by simp [hnew]) hau
    exact ⟨v, (run_next hu).trans (run_next hv), hav, hread⟩
  | false =>
    rw [hnew] at ha
    obtain ⟨u, hu, hau, hread⟩ := h.read hs hk (by simp [hnew]) ha
    obtain ⟨v, hv, hav, hwritten⟩ := hread.write hs hk hau
    exact ⟨v, (run_next hu).trans (run_next hv), hav, hwritten⟩

end

/-- A run goes on where its first part has ended. -/
theorem run_add {s t : State} {m : Nat} (h : core.run m s = .next t) (n : Nat) :
    core.run (m + n) s = core.run n t := by
  induction m generalizing s with
  | zero =>
    cases h
    rw [Nat.zero_add]
  | succ m ih =>
    rw [Nat.add_right_comm]
    cases hstep : core.step s with
    | next u => exact (run_next hstep).trans (ih ((run_next hstep).symm.trans h))
    | fault r => simp [Host.Core.run, hstep] at h
    | refused r => simp [Host.Core.run, hstep] at h

/-- The first `n` gains are read as chosen, by an agenda that takes them one after the other. -/
theorem exists_tearing_plan {s : State} {addr : Byte} {vs : List Word} (new : Fin 6 → Bool)
    (hs : WritesGains s addr vs) (h : Torn s addr vs new 0 0 s) : ∀ n ≤ 6, ∃ plan : List Turn, ∀ rest, ∃ t,
      core.run plan.length { s with agenda := plan ++ rest } = .next t ∧ t.agenda = rest ∧ Torn s addr vs new n n t
  | 0, _ => ⟨[], fun _ => ⟨_, rfl, rfl, { h with }⟩⟩
  | n + 1, hn => by
    obtain ⟨plan, hplan⟩ := exists_tearing_plan new hs h n (by omega)
    refine ⟨plan ++ tearingTurns (new ⟨n, hn⟩), fun rest => ?_⟩
    obtain ⟨t, ht, hat, htorn⟩ := hplan (tearingTurns (new ⟨n, hn⟩) ++ rest)
    obtain ⟨u, hu, hau, hpair⟩ := htorn.pair hs hn hat
    have htwo : (tearingTurns (new ⟨n, hn⟩)).length = 2 := by
      unfold tearingTurns
      split <;> rfl
    refine ⟨u, ?_, hau, hpair⟩
    rw [List.length_append, htwo, List.append_assoc]
    exact (run_add ht 2).trans hu

/-- Settles O57: gain by gain, the write comes before the read exactly where the new value is to be read. -/
theorem everyTornPatternOfGainsCanBeRead : Obligations.EveryTornPatternOfGainsCanBeRead := by
  unfold Obligations.EveryTornPatternOfGainsCanBeRead
  intro s addr vs new hs hc hp hm ha hvs hpkt hid
  have hwrites := hs.writesGains hvs hid
  have hstart : Torn s addr vs new 0 0 s :=
    { cfg := rfl, length := rfl, call := hc, phase := hp, armed := ha, micro := hm, pkt := fun _ => hpkt
      slot := fun _ => rfl, gains := fun _ h => absurd h (Nat.not_lt_zero _) }
  obtain ⟨plan, hplan⟩ := exists_tearing_plan new hwrites hstart 6 le_rfl
  obtain ⟨t, ht, -, htorn⟩ := hplan []
  rw [List.append_nil] at ht
  refine ⟨plan, t, ht, fun k => (htorn.gains k k.isLt).trans ?_⟩
  have hold : (gainRegs[k.val]?).map s.x = some (s.slot (addr.toNat + k)) := by
    rw [← hwrites.ids k k.isLt, List.getElem?_eq_getElem]
    rfl
  rw [hold]
  rfl

end Sys2Proof.Machine
end

section
/-! Proofs. The decoding procedure of R70 opcode by opcode, with the minimum lengths of R68 and the ignored bytes of
R69, and decoding as the inverse of encoding: of the wire formats (R61 to R66) and of the labels with their operands
(R73, log 9). -/

namespace Sys2Proof

open Sys2Proof.Machine

/-! ### Datagrams below their opcode's minimum length -/

theorem decodeDatagram_nil (rxMax : Nat) : decodeDatagram rxMax [] = .reject .short :=
  if_neg (Nat.not_lt_zero rxMax)

theorem dropsShort_rd : DropsShort 0x00 (fun rx => rx.length < 2) := by
  intro rxMax rx hlen hop hshort
  match rx, hlen, hop, hshort with
  | [_], hlen, rfl, _ => exact decodeDatagram_cons hlen

theorem dropsShort_wr : DropsShort 0x01 (fun rx => rx.length < 4) := by
  intro rxMax rx hlen hop hshort
  match rx, hlen, hop, hshort with
  | [_], hlen, rfl, _ | [_, _], hlen, rfl, _ | [_, _, _], hlen, rfl, _ => exact decodeDatagram_cons hlen

theorem dropsShort_brd : DropsShort 0x02 (fun rx => rx.length < 3) := by
  intro rxMax rx hlen hop hshort
  match rx, hlen, hop, hshort with
  | [_], hlen, rfl, _ | [_, _], hlen, rfl, _ => exact decodeDatagram_cons hlen

/-- A BWR with its count present is decoded by what its payload holds (R64). -/
theorem decodeDatagram_bwr_cons {rxMax : Nat} {addr count : Byte} {payload : List Byte}
    (hlen : (0x03#8 :: addr :: count :: payload).length ≤ rxMax) :
    decodeDatagram rxMax (0x03#8 :: addr :: count :: payload) =
      ((takeValues count.toNat payload).map (.bwr addr)).elim (.reject .short) .ok := by
  cases h : takeValues count.toNat payload <;> simp [decodeDatagram_cons hlen, h]

theorem dropsShort_bwr :
    DropsShort 0x03 (fun rx => rx.length < 3 ∨ rx.length < 3 + 2 * (rx.getD 2 0).toNat) := by
  intro rxMax rx hlen hop hshort
  match rx, hlen, hop, hshort with
  | [_], hlen, rfl, _ | [_, _], hlen, rfl, _ => exact decodeDatagram_cons hlen
  | _ :: _ :: count :: payload, hlen, rfl, hshort =>
    have hpayload : payload.length < 2 * count.toNat := by
      simp only [List.length_cons, List.getD_cons_succ, List.getD_cons_zero] at hshort
      omega
    refine (decodeDatagram_bwr_cons hlen).trans ?_
    rw [takeValues_short _ _ hpayload]
    rfl

/-! ### Datagrams long enough, whatever follows the format -/

section
variable {rxMax : Nat} {rx : List Byte}

theorem decodeDatagram_rd (hlen : rx.length ≤ rxMax) (hop : rx.head? = some 0x00#8) (henough : 2 ≤ rx.length) :
    decodeDatagram rxMax rx = .ok (.rd (rx.getD 1 0)) := by
  match rx, hlen, hop, henough with
  | _ :: _ :: _, hlen, rfl, _ => exact decodeDatagram_cons hlen

theorem decodeDatagram_wr (hlen : rx.length ≤ rxMax) (hop : rx.head? = some 0x01#8) (henough : 4 ≤ rx.length) :
    decodeDatagram rxMax rx = .ok (.wr (rx.getD 1 0) (wordOf (rx.getD 2 0) (rx.getD 3 0))) := by
  match rx, hlen, hop, henough with
  | _ :: _ :: _ :: _ :: _, hlen, rfl, _ => exact decodeDatagram_cons hlen

theorem decodeDatagram_brd (hlen : rx.length ≤ rxMax) (hop : rx.head? = some 0x02#8) (henough : 3 ≤ rx.length) :
    decodeDatagram rxMax rx = .ok (.brd (rx.getD 1 0) (rx.getD 2 0)) := by
  match rx, hlen, hop, henough with
  | _ :: _ :: _ :: _, hlen, rfl, _ => exact decodeDatagram_cons hlen

theorem decodeDatagram_bwr (hlen : rx.length ≤ rxMax) (hop : rx.head? = some 0x03#8)
    (henough : 3 + 2 * (rx.getD 2 0).toNat ≤ rx.length) :
    decodeDatagram rxMax rx = .ok (.bwr (rx.getD 1 0) ((List.range (rx.getD 2 0).toNat).map fun k =>
      wordOf (rx.getD (3 + 2 * k) 0) (rx.getD (4 + 2 * k) 0))) := by
  match rx, hlen, hop, henough with
  | [_], _, _, henough | [_, _], _, _, henough => simp at henough
  | _ :: _ :: count :: payload, hlen, rfl, henough =>
    have hpayload : 2 * count.toNat ≤ payload.length := by
      simp only [List.length_cons, List.getD_cons_succ, List.getD_cons_zero] at henough
      omega
    rw [decodeDatagram_bwr_cons hlen, takeValues_enough _ _ hpayload]
    simp only [Nat.add_comm 3, Nat.add_comm 4]
    rfl

/-- Every opcode from 0x04 on is ECHO (R65, R71). -/
theorem decodeDatagram_echo (hlen : rx.length ≤ rxMax) (hne : 1 ≤ rx.length) (hop : 4 ≤ (rx.getD 0 0).toNat) :
    decodeDatagram rxMax rx = .ok (.echo rx) := by
  match rx, hlen, hne, hop with
  | op :: _, hlen, _, hop =>
    have hfixed (b : Byte) (hb : b.toNat < 4) : op ≠ b := by
      rintro rfl
      exact Nat.not_lt.mpr hop hb
    rw [decodeDatagram_cons hlen, if_neg (hfixed _ (by decide)), if_neg (hfixed _ (by decide)),
      if_neg (hfixed _ (by decide)), if_neg (hfixed _ (by decide))]

theorem head?_of_getD_toNat {op : Byte} (hne : 1 ≤ rx.length) (hop : (rx.getD 0 0).toNat = op.toNat) :
    rx.head? = some op := by
  match rx, hne, hop with
  | _ :: _, _, hop => exact congrArg some (BitVec.eq_of_toNat_eq hop)

end

/-! ### Decoding undoes encoding -/

/-- The formats of R61 to R65 fit a datagram, and the decoding procedure takes each of them apart again. -/
theorem decodeDatagram_encode {rxMax : Nat} {i : Instr} {bytes : List Byte} (hmax : 513 ≤ rxMax)
    (hwf : i.wellFormed rxMax = true) (he : encode i = .datagram bytes) : decodeDatagram rxMax bytes = .ok i := by
  cases i with
  | rd addr =>
    cases he
    exact decodeDatagram_rd (show 2 ≤ rxMax by omega) rfl (le_refl 2)
  | wr addr value =>
    cases he
    refine (decodeDatagram_wr (show 4 ≤ rxMax by omega) rfl (le_refl 4)).trans ?_
    simp
  | brd addr count =>
    cases he
    exact decodeDatagram_brd (show 3 ≤ rxMax by omega) rfl (le_refl 3)
  | bwr addr values =>
    cases he
    have hcount : values.length ≤ 255 := of_decide_eq_true hwf
    have hvalues : takeValues (BitVec.ofNat 8 values.length).toNat (valueBytes values) = some values := by
      rw [BitVec.toNat_ofNat, Nat.mod_eq_of_lt (by omega)]
      simpa using takeValues_valueBytes values []
    rw [decodeDatagram_bwr_cons (by simp only [List.length_cons, valueBytes_length]; omega), hvalues]
    rfl
  | echo bytes =>
    cases he
    match bytes, hwf with
    | op :: rest, hwf =>
      simp only [Instr.wellFormed, Bool.and_eq_true, decide_eq_true_eq] at hwf
      obtain ⟨hop, hlen⟩ := hwf
      exact decodeDatagram_echo hlen (Nat.succ_pos _) hop
  | _ => cases he

/-- Every label of R73 names its operation again, with the operands the model carries beside it (log 9). -/
theorem decodeCall_encode {i : Instr} {c : Call} (he : encode i = .call c) : decodeCall c = .ok i := by
  cases i with
  | rd _ | wr _ _ | brd _ _ | bwr _ _ | echo _ => cases he
  | rbRead _ | rbWrite _ _ | apEnter _ | apGetThr _ _ | apSetParam _ _ | mixTest _ =>
    cases he
    simp [decodeCall, Call.arg, ofOption_eq_ok]
  | mixAmp vf => cases he; cases vf <;> rfl
  | mixRun thr rud ele ail vf =>
    cases he
    cases vf <;> simp [decodeCall, Call.arg, ofOption_eq_ok]
  | _ => cases he; rfl

/-- Settles O1: a code is a datagram or a call, and each is taken apart by its own half of the decoder. -/
theorem decodeOfEncodeIsIdentity : Obligations.DecodeOfEncodeIsIdentity := by
  unfold Obligations.DecodeOfEncodeIsIdentity
  intro rxMax i hmax hwf
  cases he : encode i with
  | datagram bytes => exact decodeDatagram_encode hmax hwf he
  | call c => exact decodeCall_encode he

/-- Settles O2, opcode by opcode. -/
theorem decodingProcedure : Obligations.DecodingProcedure := by
  unfold Obligations.DecodingProcedure
  intro rxMax rx hlen
  refine ⟨fun hempty => ?_, fun hne hop => ?_, fun hne hop => ?_, fun hne hop => ?_, fun hne hop => ?_,
    decodeDatagram_echo hlen⟩
  · rw [List.length_eq_zero_iff.mp hempty]
    exact decodeDatagram_nil rxMax
  · have hrd := head?_of_getD_toNat (op := 0x00) hne hop
    exact ⟨dropsShort_rd rxMax rx hlen hrd, decodeDatagram_rd hlen hrd⟩
  · have hwr := head?_of_getD_toNat (op := 0x01) hne hop
    exact ⟨dropsShort_wr rxMax rx hlen hwr, decodeDatagram_wr hlen hwr⟩
  · have hbrd := head?_of_getD_toNat (op := 0x02) hne hop
    exact ⟨dropsShort_brd rxMax rx hlen hbrd, decodeDatagram_brd hlen hbrd⟩
  · have hbwr := head?_of_getD_toNat (op := 0x03) hne hop
    have hshort := dropsShort_bwr rxMax rx hlen hbwr
    exact ⟨fun h => hshort (.inl h), fun _ h => hshort (.inr h), decodeDatagram_bwr hlen hbwr⟩

/-! ### Words written out from the formats -/

/-- Settles O4: each word is taken apart by the decoder's branch for its opcode or label. -/
theorem writtenOutWordsDecode : Obligations.WrittenOutWordsDecode :=
  ⟨decodeDatagram_rd (by decide) rfl (by decide), decodeDatagram_wr (by decide) rfl (by decide),
    decodeDatagram_wr (by decide) rfl (by decide), decodeDatagram_brd (by decide) rfl (by decide),
    decodeDatagram_bwr (by decide) rfl (by decide), decodeDatagram_echo (by decide) (by decide) (by decide), rfl, rfl⟩

end Sys2Proof
end

section
/-! Proofs. MovingAverageFilter: the three operations (R80 to R82), and the values a filter holds as the last window of
those put since a reset (R83). -/

namespace Sys2Proof.Machine

/-! ### The operations -/

theorem exec_mafReset (s : State) : exec .mafReset s = .next { s with bf := s.bf.cleared } := rfl

theorem exec_mafPut (v : Scalar) (s : State) :
    exec (.mafPut v) s = .next { s with bf := s.bf.put s.cfg.num s.cfg.wBatt v } := rfl

theorem exec_mafGet (s : State) :
    exec .mafGet s = .next { s with ret := .mean (s.bf.mean s.cfg.num s.cfg.wBatt) } := rfl

theorem exec_mafGet_ready {s : State} (h : s.bf.count = s.cfg.wBatt) : exec .mafGet s =
    .next { s with ret := .mean (some (s.cfg.num.div s.bf.sum (s.cfg.num.ofInt s.cfg.wBatt))) } := by
  rw [exec_mafGet, Filter.mean_eq, if_pos h]

theorem exec_mafGet_not_ready {s : State} (h : s.bf.count ≠ s.cfg.wBatt) :
    exec .mafGet s = .next { s with ret := .mean none } := by
  rw [exec_mafGet, Filter.mean_eq, if_neg h]

/-- Settles O10 by the branches of MAF.PUT and MAF.GET. -/
theorem filterOperations : Obligations.FilterOperations := by
  unfold Obligations.FilterOperations
  intro s v
  refine ⟨exec_mafReset s, fun hfilling => ?_, fun hfull => ?_, exec_mafGet_ready, exec_mafGet_not_ready⟩
  · rw [exec_mafPut, Filter.put_filling hfilling]
  · rw [exec_mafPut, Filter.put_full hfull]

/-! ### Lists: the last values, and rotations -/

theorem rtake_rtake {α : Type} {k m : Nat} (h : k ≤ m) (l : List α) : (l.rtake m).rtake k = l.rtake k := by
  simp [List.rtake_eq_reverse_take_reverse, List.take_take, min_eq_left h]

/-- What fits into the window wraps around to where it was. -/
theorem rotate_length_mod {α : Type} {l : List α} {w : Nat} (h : l.length ≤ w) : l.rotate (l.length % w) = l := by
  rcases h.lt_or_eq with hlt | heq
  · rw [Nat.mod_eq_of_lt hlt, List.rotate_length]
  · rw [heq, Nat.mod_self, List.rotate_zero]

/-- Replacing the first of a rotated list's places and rotating on moves the new value to the end. -/
theorem rotate_set_succ {α : Type} {l : List α} {i : Nat} (h : i < l.length) (v : α) :
    (l.set i v).rotate (i + 1) = (l.rotate i).tail ++ [v] := by
  rw [List.rotate_eq_drop_append_take (by simpa using h), List.rotate_eq_drop_append_take h.le,
    List.drop_set_of_lt (Nat.lt_succ_self i), List.take_succ_eq_append_getElem (by simpa using h),
    List.take_set_of_le le_rfl, List.getElem_set_self, List.drop_eq_getElem_cons h, List.cons_append,
    List.tail_cons, List.append_assoc]

/-! ### The values held -/

/-- The values in the window, oldest first: the places in use, read from `head` on, where a full filter has its oldest. -/
def Filter.held (f : Filter) : List Scalar := (f.buf.take f.count).rotate f.head

theorem Filter.cleared_held (f : Filter) : f.cleared.held = [] := rfl

section
variable {n : Numerics} {w : Nat} {f : Filter}

theorem FilterOk.held_length (h : FilterOk n w f) : f.held.length = f.count := by
  rw [Filter.held, List.length_rotate, List.length_take, h.buf_length, min_eq_left h.count_le]

/-- Under exact NUM the sum is that of the values held (R83): rotation only permutes them. -/
theorem FilterOk.sum_eq_held (h : FilterOk n w f) (hn : n = .rational) : f.sum = f.held.sum :=
  (h.sum_eq hn).trans (List.rotate_perm _ _).sum_eq.symm

/-- While the filter fills, its first places are the values in the order they came. -/
theorem FilterOk.held_filling (h : FilterOk n w f) (hc : f.count < w) : f.held = f.buf.take f.count := by
  have hlen : (f.buf.take f.count).length = f.head := by
    rw [List.length_take, h.buf_length, h.filling hc, min_eq_left hc.le]
  rw [Filter.held, ← hlen, List.rotate_length]

/-- A full filter's buffer is in use throughout. -/
theorem FilterOk.held_full (h : FilterOk n w f) (hc : f.count = w) : f.held = f.buf.rotate f.head := by
  rw [Filter.held, List.take_of_length_le (by rw [h.buf_length, hc])]

theorem FilterOk.held_put_filling (h : FilterOk n w f) (hc : f.count < w) (v : Scalar) :
    (f.put n w v).held = f.held ++ [v] := by
  have hhead := h.filling hc
  have hlen : f.count < (f.buf.set f.count v).length := by
    rw [List.length_set, h.buf_length]
    exact hc
  have hplaces : (f.buf.set f.count v).take (f.count + 1) = f.held ++ [v] := by
    rw [List.take_succ_eq_append_getElem hlen, List.take_set_of_le le_rfl, List.getElem_set_self, h.held_filling hc]
  have hlength : (f.held ++ [v]).length = f.count + 1 := by
    rw [List.length_append, h.held_length, List.length_singleton]
  rw [Filter.put_filling hc, Filter.held, hhead, hplaces, ← hlength]
  exact rotate_length_mod (hlength.trans_le hc)

theorem FilterOk.held_put_full (h : FilterOk n w f) (hc : f.count = w) (v : Scalar) :
    (f.put n w v).held = f.held.tail ++ [v] := by
  have hhead : f.head < f.buf.length := by
    rw [h.buf_length]
    exact h.head_lt
  rw [(Filter.put_ok h v).held_full (Filter.put_count_of_full hc v), Filter.put_full hc.ge, h.held_full hc,
    ← rotate_set_succ hhead, ← List.rotate_mod _ (f.head + 1), List.length_set, h.buf_length]

/-- MAF.PUT appends the new value to as many of the last ones as leave it a place (R81). -/
theorem FilterOk.held_put (h : FilterOk n w f) (v : Scalar) : (f.put n w v).held = f.held.rtake (w - 1) ++ [v] := by
  rcases h.count_le.lt_or_eq with hc | hc
  · have hfits : f.held.length - (w - 1) = 0 := by
      rw [h.held_length]
      omega
    rw [h.held_put_filling hc, List.rtake, hfits, List.drop_zero]
  · have hevicts : f.held.length - (w - 1) = 1 := by
      have hhead := h.head_lt
      rw [h.held_length]
      omega
    rw [h.held_put_full hc, List.rtake, hevicts, List.drop_one]

/-! ### A list of values put one after the other -/

/-- MAF.PUT of each value in turn, on a filter of window `w` (R81). -/
def Filter.putAll (n : Numerics) (w : Nat) (f : Filter) (vs : List Scalar) : Filter := vs.foldl (Filter.put n w) f

theorem Filter.putAll_concat (n : Numerics) (w : Nat) (f : Filter) (vs : List Scalar) (v : Scalar) :
    f.putAll n w (vs ++ [v]) = (f.putAll n w vs).put n w v :=
  List.foldl_concat ..

theorem FilterOk.putAll (h : FilterOk n w f) (vs : List Scalar) : FilterOk n w (f.putAll n w vs) :=
  List.foldlRecOn vs _ h fun _ hf v _ => Filter.put_ok hf v

/-- From a cleared filter on, the values held are the last `w` of those put (R83). -/
theorem Filter.held_putAll_cleared (hw : 1 ≤ w) (hb : f.buf.length = w) (vs : List Scalar) :
    (f.cleared.putAll n w vs).held = vs.rtake w := by
  induction vs using List.reverseRecOn with
  | nil => exact f.cleared_held.trans (List.rtake_nil w).symm
  | append_singleton vs v ih =>
    have hok : FilterOk n w (f.cleared.putAll n w vs) := (Filter.cleared_ok hw hb).putAll vs
    calc (f.cleared.putAll n w (vs ++ [v])).held
      _ = (vs.rtake w).rtake (w - 1) ++ [v] := by rw [Filter.putAll_concat, hok.held_put, ih]
      _ = vs.rtake (w - 1) ++ [v] := by rw [rtake_rtake (Nat.sub_le w 1)]
      _ = (vs ++ [v]).rtake w := by rw [← List.rtake_concat_succ, Nat.sub_add_cancel hw]

/-- The count is that of the last window, for every NUM (R83). -/
theorem Filter.count_putAll_cleared (hw : 1 ≤ w) (hb : f.buf.length = w) (vs : List Scalar) :
    (f.cleared.putAll n w vs).count = min vs.length w := by
  rw [← ((Filter.cleared_ok hw hb).putAll vs).held_length, Filter.held_putAll_cleared hw hb, List.rtake, List.length_drop]
  omega

/-- Under exact NUM the sum is that of the last window (R83). -/
theorem Filter.sum_putAll_cleared (hw : 1 ≤ w) (hb : f.buf.length = w) (vs : List Scalar) (hn : n = .rational) :
    (f.cleared.putAll n w vs).sum = (vs.rtake w).sum := by
  rw [((Filter.cleared_ok hw hb).putAll vs).sum_eq_held hn, Filter.held_putAll_cleared hw hb]

end

/-- A run of MAF.PUTs changes the filter only. -/
theorem execAll_mafPuts (vs : List Scalar) (s : State) :
    execAll (vs.map .mafPut) s = .next { s with bf := s.bf.putAll s.cfg.num s.cfg.wBatt vs } := by
  induction vs generalizing s with
  | nil => rfl
  | cons v vs ih => exact ih { s with bf := s.bf.put s.cfg.num s.cfg.wBatt v }

/-- Settles O11: the filter ends up holding the last window, which fixes its count and, under exact NUM, its sum. -/
theorem filterHoldsTheLastWindow : Obligations.FilterHoldsTheLastWindow := by
  unfold Obligations.FilterHoldsTheLastWindow
  intro s vs hcfg hb
  have hcount := Filter.count_putAll_cleared (n := s.cfg.num) hcfg.w_pos hb vs
  have hsum := Filter.sum_putAll_cleared (n := s.cfg.num) hcfg.w_pos hb vs
  refine ⟨{ s with bf := s.bf.cleared.putAll s.cfg.num s.cfg.wBatt vs }, execAll_mafPuts vs { s with bf := s.bf.cleared },
    rfl, hcount, fun hfull => ?_, fun hshort => ?_, hsum⟩
  · refine ⟨_, exec_mafGet_ready (hcount.trans (min_eq_right hfull)), fun hn => ?_⟩
    simp only [hn, Numerics.rational_div, Numerics.rational_ofInt, Int.cast_natCast]
    rw [← hn, hsum hn, List.rtake]
  · exact exec_mafGet_not_ready ((hcount.trans (min_eq_left hshort.le)).trans_ne hshort.ne)

end Sys2Proof.Machine
end

section
/-! Proofs. AttitudeEstimator: EST.INIT and EST.STARTCAL (R90, R91), one update with its calibration step, its fusion
update and its telemetry (R93 to R98), and a calibration from its restart to its thousandth sample (R91, R94). -/

namespace Sys2Proof.Machine

/-! ### EST.INIT and EST.STARTCAL -/

theorem exec_estInit (s : State) : exec .estInit s = .next s.estInit := rfl

theorem exec_estStartCal (s : State) : exec .estStartCal s = .next { s with cal := s.cal.restart } := rfl

/-- Settles O12: `Calib.restart` clears the count and the flag, and EST.INIT sets the bias and the fusion state
besides. -/
theorem estimatorInitAndRestart : Obligations.EstimatorInitAndRestart := by
  unfold Obligations.EstimatorInitAndRestart
  intro s
  exact ⟨exec_estInit s, exec_estStartCal s⟩

/-! ### The mean and the bias -/

/-- Under exact NUM the mean of R94 is the plain one. -/
theorem mean_rational {n : Numerics} (hn : n = .rational) (l : List Scalar) :
    n.div (l.foldl n.add 0) 1000 = l.sum / 1000 := by
  subst hn
  exact congrArg (· / 1000) (Numerics.rational_sum l)

/-- The bias is the mean of the buffer axis by axis, summed in ascending order from zero (R94, log 2). -/
theorem biasOf_eq (n : Numerics) (buf : List Vec3) :
    let b := buf.take 1000
    let mean : List Scalar → Scalar := fun l => n.div (l.foldl n.add 0) 1000
    biasOf n buf = ⟨mean (b.map Vec3.v0), mean (b.map Vec3.v1), mean (b.map Vec3.v2)⟩ := by
  simp only [biasOf, meanOf_eq]
  rfl

section
variable {n : Numerics} {c : Calib} {origin g : Vec3}

theorem biasAfter_ready (h : c.ready = true) : biasAfter n c origin g = origin := if_neg (by simp [h])

theorem biasAfter_pending (h : c.count + 1 ≠ calCap) : biasAfter n c origin g = origin := if_neg (by simp [h])

theorem biasAfter_full (hr : c.ready = false) (h : c.count + 1 = calCap) :
    biasAfter n c origin g = biasOf n (c.take g).buf := if_pos (by simp [hr, h])

end

/-! ### One update -/

/-- The gyro reading EST.UPDATE draws, remapped (R93). -/
def State.gyroSample (s : State) : Vec3 := remap s.cfg.num s.cfg.remapG s.env.gyroValue

/-- The state after EST.UPDATE (R92). -/
def State.estUpdated (s : State) : State := runEvents estUpdateEvents s

theorem exec_estUpdate (s : State) : exec .estUpdate s = .next s.estUpdated := rfl

@[simp] theorem State.estUpdated_env (s : State) : s.estUpdated.env = s.env.afterGyro.afterAccel := rfl

@[simp] theorem State.estUpdated_cal (s : State) : s.estUpdated.cal = s.cal.take s.gyroSample := rfl

@[simp] theorem State.estUpdated_origin (s : State) :
    s.estUpdated.origin = biasAfter s.cfg.num s.cal s.origin s.gyroSample := rfl

/-- The fusion update takes the rate and the acceleration that the sample reports (R96). -/
theorem State.estUpdated_fstate (s : State) : s.estUpdated.fstate =
    Config.fuse s.fstate s.estUpdated.lt.sample.rate s.estUpdated.lt.sample.acc (samplePeriod s.cfg) := rfl

/-- The sample's angles are those of the new fusion state (R97). -/
theorem State.estUpdated_angles (s : State) :
    (⟨s.estUpdated.lt.sample.yaw, s.estUpdated.lt.sample.pitch, s.estUpdated.lt.sample.roll⟩ : Euler) =
      eulerOf s.cfg s.estUpdated.fstate := rfl

/-- Settles O14 by what EST.UPDATE leaves in the fusion state and in the sample. -/
theorem fusionUpdate : Obligations.FusionUpdate := by
  unfold Obligations.FusionUpdate
  intro s
  refine ⟨s.estUpdated, exec_estUpdate s, s.estUpdated_fstate, fun hnone => ?_, fun e hsome => ?_⟩
  · rw [s.estUpdated_angles, eulerOf, hnone]
  · rw [s.estUpdated_angles, eulerOf, hsome]

/-! ### The telemetry -/

/-- Named registers written one after the other. -/
def State.setAll (s : State) (ws : List (Reg × Word)) : State := ws.foldl (fun u w => u.setX w.1 w.2) s

theorem State.setAll_concat (s : State) (ws : List (Reg × Word)) (w : Reg × Word) :
    s.setAll (ws ++ [w]) = (s.setAll ws).setX w.1 w.2 := List.foldl_concat ..

/-- Only the bank is written. -/
theorem State.setAll_frame (s : State) (ws : List (Reg × Word)) :
    s.setAll ws = { s with regs := (s.setAll ws).regs } := by
  induction ws using List.reverseRecOn with
  | nil => rfl
  | append_singleton ws w ih =>
    rw [State.setAll_concat, ih]
    rfl

/-- Distinct registers written on the bank of `s` hold their values, and no other slot changes. -/
theorem onlyWrites_setAll {s u : State} (hc : s.cfg.Ok) (hm : Memory.wf s.cfg.n s.regs = true) (hregs : u.regs = s.regs)
    (hcfg : u.cfg = s.cfg) {ws : List (Reg × Word)} (hnodup : (ws.map Prod.fst).Nodup) :
    OnlyWrites s (u.setAll ws) ws := by
  induction ws using List.reverseRecOn with
  | nil => exact onlyWrites_nil hregs
  | append_singleton ws w ih =>
    rw [List.map_append, List.nodup_append] at hnodup
    obtain ⟨hws, -, hdisjoint⟩ := hnodup
    rw [State.setAll_concat]
    exact onlyWrites_setX hc hm (ih hws) ((congrArg State.cfg (u.setAll_frame ws)).trans hcfg) w.1 w.2
      fun v hv => hdisjoint v.1 (List.mem_map_of_mem hv) w.1 (by simp)

/-- The nine telemetry writes of a sample (R98). -/
def telemetryWrites (c : Cfg) (p : AttitudeSample) : List (Reg × Word) :=
  [(.attYaw, toReg c (c.num.div p.yaw c.angleUnit)), (.attPitch, toReg c (c.num.div p.pitch c.angleUnit)),
   (.attRoll, toReg c (c.num.div p.roll c.angleUnit)), (.rotX, toReg c (c.num.mul p.rate.v0 c.rotRegScale)),
   (.rotY, toReg c (c.num.mul p.rate.v1 c.rotRegScale)), (.rotZ, toReg c (c.num.mul p.rate.v2 c.rotRegScale)),
   (.accX, toReg c (c.num.mul p.acc.v0 c.accRegScale)), (.accY, toReg c (c.num.mul p.acc.v1 c.accRegScale)),
   (.accZ, toReg c (c.num.mul p.acc.v2 c.accRegScale))]

theorem telemetryWrites_registers (c : Cfg) (p : AttitudeSample) : (telemetryWrites c p).map Prod.fst =
    [.attYaw, .attPitch, .attRoll, .rotX, .rotY, .rotZ, .accX, .accY, .accZ] := rfl

/-- EST.UPDATE is what is local, then the nine writes. -/
theorem State.estUpdated_eq (s : State) :
    s.estUpdated = s.sense.setAll (telemetryWrites s.cfg s.sense.lt.sample) := runEvents_estUpdate s

/-- Besides the bank EST.UPDATE changes what is local to it. -/
theorem State.estUpdated_frame (s : State) : s.estUpdated = { s.sense with regs := s.estUpdated.regs } := by
  rw [s.estUpdated_eq]
  exact s.sense.setAll_frame _

/-- EST.UPDATE writes the telemetry of its own sample and nothing else of the bank (R98). -/
theorem State.estUpdated_onlyWrites {s : State} (hc : s.cfg.Ok) (hm : Memory.wf s.cfg.n s.regs = true) :
    OnlyWrites s s.estUpdated (telemetryWrites s.cfg s.estUpdated.lt.sample) := by
  have hnodup : ((telemetryWrites s.cfg s.sense.lt.sample).map Prod.fst).Nodup := by
    rw [telemetryWrites_registers]
    decide
  rw [s.estUpdated_eq]
  exact onlyWrites_setAll hc hm (show s.sense.regs = s.regs from rfl) rfl hnodup

/-- Settles O13: the calibration step by whether the buffer is ready and whether this sample fills it, and the telemetry
by `estUpdated_onlyWrites`. -/
theorem estimatorUpdate : Obligations.EstimatorUpdate := by
  unfold Obligations.EstimatorUpdate
  intro s hc hm
  refine ⟨s.estUpdated, exec_estUpdate s, fun _ _ => rfl, fun hready => ⟨?_, ?_⟩,
    fun hcollecting => ⟨?_, fun hpending => ?_, fun hfull => ⟨?_, mean_rational⟩⟩,
    rfl, rfl, State.estUpdated_onlyWrites hc hm, s.estUpdated_frame⟩
  · exact Calib.take_ready hready _
  · exact biasAfter_ready hready
  · exact Calib.take_collecting hcollecting _
  · exact biasAfter_pending hpending
  · exact (biasAfter_full hcollecting hfull).trans (biasOf_eq _ _)

/-! ### A calibration from its restart on -/

/-- The buffer and the bias `origin` once the samples `gs` were taken after a restart that met the bias `stale`: the
bias stays until the last place is filled, and is then that of the samples. -/
structure Collected (n : Numerics) (stale : Vec3) (gs : List Vec3) (c : Calib) (origin : Vec3) : Prop where
  ok : CalibOk c
  count : c.count = gs.length
  held : c.buf.take gs.length = gs
  pending : gs.length < calCap → origin = stale
  full : gs.length = calCap → origin = biasOf n gs

/-- A restart has taken no sample yet (R91). -/
theorem Collected.restart {c : Calib} (h : CalibOk c) (n : Numerics) (origin : Vec3) :
    Collected n origin [] c.restart origin :=
  ⟨Calib.restart_ok h, rfl, rfl, fun _ => rfl, fun hfull => absurd hfull (by decide)⟩

/-- The calibration step adds its sample to those taken (R94). -/
theorem Collected.take {n : Numerics} {stale origin : Vec3} {gs : List Vec3} {c : Calib}
    (h : Collected n stale gs c origin) (hroom : gs.length < calCap) (g : Vec3) :
    Collected n stale (gs ++ [g]) (c.take g) (biasAfter n c origin g) := by
  have hready : c.ready = false := by
    rw [h.ok.ready_iff, h.count]
    exact beq_false_of_ne hroom.ne
  have hplace : gs.length < c.buf.length := hroom.trans_eq h.ok.buf_length.symm
  have hbuf : (c.take g).buf.take (gs.length + 1) = gs ++ [g] := by
    rw [Calib.take_collecting hready, h.count, List.take_succ_eq_append_getElem (by simpa using hplace),
      List.take_set_of_le le_rfl, h.held, List.getElem_set_self]
  have hlen : (gs ++ [g]).length = gs.length + 1 := List.length_append
  have hcount : c.count + 1 = (gs ++ [g]).length := by rw [hlen, h.count]
  refine ⟨Calib.take_ok h.ok g, ?_, hlen ▸ hbuf, fun hmore => ?_, fun hfull => ?_⟩
  · rw [Calib.take_collecting hready, hcount]
  · rw [biasAfter_pending (hcount.trans_ne hmore.ne), h.pending hroom]
  · have hwhole : (c.take g).buf = gs ++ [g] := by
      rw [← hbuf, ← hlen, hfull, List.take_of_length_le (Calib.take_ok h.ok g).buf_length.le]
    rw [biasAfter_full hready (hcount.trans hfull), hwhole]

/-- Updates on stored readings take their remapped samples in turn, while there is room for them. -/
theorem execAll_estUpdates {n : Numerics} {m : Remap} {stale : Vec3} {later : List Vec3} (raw : List Vec3)
    {gs : List Vec3} {s : State} (hn : s.cfg.num = n) (hmap : s.cfg.remapG = m) (hgyro : s.env.gyro = raw ++ later)
    (hroom : gs.length + raw.length ≤ calCap) (h : Collected n stale gs s.cal s.origin) :
    ∃ t, execAll (List.replicate raw.length .estUpdate) s = .next t ∧
      Collected n stale (gs ++ raw.map (remap n m)) t.cal t.origin := by
  induction raw generalizing gs s with
  | nil => exact ⟨s, rfl, by simpa using h⟩
  | cons v raw ih =>
    rw [List.length_cons] at hroom
    have hsample : s.gyroSample = remap n m v := by rw [State.gyroSample, Env.gyroValue, hgyro, hn, hmap]; rfl
    have hnext : Collected n stale (gs ++ [remap n m v]) s.estUpdated.cal s.estUpdated.origin := by
      rw [s.estUpdated_cal, s.estUpdated_origin, hsample, hn]
      exact h.take (by omega) _
    obtain ⟨t, hrun, ht⟩ := ih (s := s.estUpdated) hn hmap (by simp [hgyro])
      (by rw [List.length_append, List.length_singleton]; omega) hnext
    exact ⟨t, hrun, by simpa using ht⟩

/-- Settles O15: a restart has taken nothing, and the updates after it take the remapped readings. -/
theorem calibrationTakesAThousandSamples : Obligations.CalibrationTakesAThousandSamples := by
  unfold Obligations.CalibrationTakesAThousandSamples
  intro s raw later _ hcal hlen hgyro
  obtain ⟨t, hrun, h⟩ := execAll_estUpdates (n := s.cfg.num) (m := s.cfg.remapG)
    (s := { s with cal := s.cal.restart }) raw rfl rfl hgyro
    (by simpa [calCap] using hlen) (.restart hcal s.cfg.num s.origin)
  rw [List.nil_append] at h
  have hcount : t.cal.count = raw.length := h.count.trans (List.length_map _)
  refine ⟨t, hrun, hcount, fun hmore => ⟨?_, ?_⟩, fun hfull => ⟨?_, ?_, mean_rational⟩⟩
  · rw [h.ok.ready_iff, hcount]
    exact beq_false_of_ne hmore.ne
  · exact h.pending (by rw [List.length_map]; exact hmore)
  · rw [h.ok.ready_iff, hcount, hfull]
    rfl
  · have hall : (raw.map (remap s.cfg.num s.cfg.remapG)).length = 1000 := (List.length_map _).trans hfull
    have hbias := (h.full hall).trans (biasOf_eq _ _)
    rwa [List.take_of_length_le hall.le] at hbias

end Sys2Proof.Machine
end

section
/-! Proofs. AutoPilotFailsafe: the two states and the parameters (R110, R111, R113), and the throttle the failsafe
answers (R112), which can only reduce one that is not negative (R114). -/

namespace Sys2Proof.Machine

/-! ### The operations -/

theorem exec_apInit (s : State) : exec .apInit s = .next { s with ap := s.ap.initialised } := rfl

theorem exec_apEnter (t : Nat) (s : State) : exec (.apEnter t) s = .next { s with ap := s.ap.entered t } := rfl

theorem exec_apGetThr (now : Nat) (requested : Int) (s : State) :
    exec (.apGetThr now requested) s = .next { s with ret := .throttle (s.ap.throttle now requested) } := rfl

theorem exec_apSetParam (c d : Word) (s : State) :
    exec (.apSetParam c d) s = .next { s with ap := s.ap.withParams s.cfg c d } := rfl

/-! ### The two states -/

theorem AutoPilot.entered_normal {a : AutoPilot} (h : a.active = false) (t : Nat) :
    a.entered t = { a with active := true, onset := t } := if_neg (by simp [h])

theorem AutoPilot.entered_lowBattery {a : AutoPilot} (h : a.active = true) (t : Nat) : a.entered t = a := if_pos h

/-- Settles O16: AP.ENTER by the state it is called in, the other two by what they leave in the failsafe. -/
theorem failsafeStateMachine : Obligations.FailsafeStateMachine := by
  unfold Obligations.FailsafeStateMachine
  intro s t c d
  refine ⟨exec_apInit s, fun hnormal => ?_, fun hlow => ?_, exec_apSetParam c d s⟩
  · rw [exec_apEnter, AutoPilot.entered_normal hnormal]
  · rw [exec_apEnter, AutoPilot.entered_lowBattery hlow]

/-! ### The throttle -/

section
variable {a : AutoPilot} {now : Nat} {requested : Int}

theorem AutoPilot.throttle_normal (h : a.active = false) : a.throttle now requested = requested := if_pos (by simp [h])

theorem AutoPilot.throttle_landed (h : a.active = true) (hpast : a.descend ≤ (now : Int) - a.onset) :
    a.throttle now requested = 0 := by
  simp [AutoPilot.throttle, h, hpast]

/-- Before the deadline the clamp is the smaller of the request and the ceiling (R112 (ii)). -/
theorem AutoPilot.throttle_descending (h : a.active = true) (hbefore : (now : Int) - a.onset < a.descend) :
    a.throttle now requested = min requested a.ceiling := by
  simp only [AutoPilot.throttle, h, Bool.not_true, Bool.false_eq_true, if_false, if_neg hbefore.not_ge]
  split
  · next hover => exact (min_eq_right hover.le).symm
  · next hunder => exact (min_eq_left (not_lt.mp hunder)).symm

/-- R114 (ii), in each of the failsafe's three cases. -/
theorem AutoPilot.throttle_reduces (hreq : 0 ≤ requested) (hceil : 0 ≤ a.ceiling) :
    0 ≤ a.throttle now requested ∧ a.throttle now requested ≤ requested := by
  cases hactive : a.active with
  | false =>
    rw [AutoPilot.throttle_normal hactive]
    exact ⟨hreq, le_rfl⟩
  | true =>
    rcases le_or_gt a.descend ((now : Int) - a.onset) with hpast | hbefore
    · rw [AutoPilot.throttle_landed hactive hpast]
      exact ⟨le_rfl, hreq⟩
    · rw [AutoPilot.throttle_descending hactive hbefore]
      exact ⟨le_min hreq hceil, min_le_left _ _⟩

end

/-- Settles O17: the answer is `AutoPilot.throttle`, in its three cases. -/
theorem failsafeThrottle : Obligations.FailsafeThrottle := by
  unfold Obligations.FailsafeThrottle
  intro s now requested
  exact ⟨s.ap.throttle now requested, exec_apGetThr now requested s, AutoPilot.throttle_normal,
    AutoPilot.throttle_landed, AutoPilot.throttle_descending, AutoPilot.throttle_reduces⟩

end Sys2Proof.Machine
end

section
/-! Proofs. AttitudeController: the wrap by its three cases, with where its answer lies under exact NUM (R121), and the
law on the gains CTL.RUN reads (R122 to R126). -/

namespace Sys2Proof.Machine

/-! ### CTL.WRAP -/

theorem exec_ctlWrap (e : Scalar) (s : State) :
    exec (.ctlWrap e) s = .next { s with ret := .angle (wrapAngle s.cfg e) } := rfl

section
variable {cfg : Cfg} {e : Scalar}

theorem wrapAngle_above (h : cfg.pi < e) : wrapAngle cfg e = cfg.num.sub e (cfg.num.mul 2 cfg.pi) := if_pos h

theorem wrapAngle_below (hle : e ≤ cfg.pi) (h : e < cfg.num.sub 0 cfg.pi) :
    wrapAngle cfg e = cfg.num.add e (cfg.num.mul 2 cfg.pi) := (if_neg hle.not_gt).trans (if_pos h)

theorem wrapAngle_within (hlow : cfg.num.sub 0 cfg.pi ≤ e) (hhigh : e ≤ cfg.pi) : wrapAngle cfg e = e :=
  (if_neg hhigh.not_gt).trans (if_neg hlow.not_gt)

theorem pi_pos_of_ok (h : cfg.Ok) : 0 < cfg.pi := lt_trans (by norm_num) h.pi_low

/-! Under exact NUM the three cases lie on the line of rationals, π being positive. -/

theorem zero_sub_pi_rational (hn : cfg.num = .rational) : cfg.num.sub 0 cfg.pi = -cfg.pi := by
  rw [hn, Numerics.rational_sub, zero_sub]

theorem wrapAngle_above_rational (hn : cfg.num = .rational) (h : cfg.pi < e) :
    wrapAngle cfg e = e - 2 * cfg.pi := by
  rw [wrapAngle_above h, hn, Numerics.rational_sub, Numerics.rational_mul]

theorem wrapAngle_below_rational (hn : cfg.num = .rational) (hpi : 0 < cfg.pi) (h : e < -cfg.pi) :
    wrapAngle cfg e = e + 2 * cfg.pi := by
  rw [wrapAngle_below (by linarith) (by rwa [zero_sub_pi_rational hn]), hn, Numerics.rational_add,
    Numerics.rational_mul]

/-- One correction brings an angle within three half turns into the half turn either side of zero. -/
theorem wrapAngle_mem_Icc (hn : cfg.num = .rational) (hpi : 0 < cfg.pi) (hlow : -(3 * cfg.pi) ≤ e)
    (hhigh : e ≤ 3 * cfg.pi) : -cfg.pi ≤ wrapAngle cfg e ∧ wrapAngle cfg e ≤ cfg.pi := by
  rcases lt_or_ge cfg.pi e with habove | hle
  · rw [wrapAngle_above_rational hn habove]
    constructor <;> linarith
  · rcases lt_or_ge e (-cfg.pi) with hbelow | hge
    · rw [wrapAngle_below_rational hn hpi hbelow]
      constructor <;> linarith
    · rw [wrapAngle_within (by rwa [zero_sub_pi_rational hn]) hle]
      exact ⟨hge, hle⟩

theorem pi_lt_wrapAngle (hn : cfg.num = .rational) (hpi : 0 < cfg.pi) (h : 3 * cfg.pi < e) :
    cfg.pi < wrapAngle cfg e := by
  rw [wrapAngle_above_rational hn (by linarith)]
  linarith

theorem wrapAngle_lt_neg_pi (hn : cfg.num = .rational) (hpi : 0 < cfg.pi) (h : e < -(3 * cfg.pi)) :
    wrapAngle cfg e < -cfg.pi := by
  rw [wrapAngle_below_rational hn hpi (by linarith)]
  linarith

end

/-- Settles O18: the three cases of `wrapAngle`, and under exact NUM where each of them lies. -/
theorem wrapTakesTheShorterArc : Obligations.WrapTakesTheShorterArc := by
  unfold Obligations.WrapTakesTheShorterArc
  intro s e hc
  have hpi := pi_pos_of_ok hc
  exact ⟨wrapAngle s.cfg e, exec_ctlWrap e s, wrapAngle_above, wrapAngle_below, wrapAngle_within, fun hn =>
    ⟨zero_sub_pi_rational hn, wrapAngle_mem_Icc hn hpi, pi_lt_wrapAngle hn hpi, wrapAngle_lt_neg_pi hn hpi⟩⟩

/-! ### CTL.RUN -/

/-- The gains the bank holds, which CTL.RUN reads one by one (R126). -/
def State.gainsNow (s : State) : Gains := ⟨s.x .pYaw, s.x .pPitch, s.x .pRoll, s.x .dYaw, s.x .dPitch, s.x .dRoll⟩

/-- CTL.RUN is its six reads, then the law on what they read. -/
theorem runEvents_ctlRun (sample : AttitudeSample) (tgt : Vec3) (s : State) :
    runEvents (ctlRunEvents (fun _ => sample) (fun _ => tgt)) s =
      { s with loc := { s.loc with gains := s.gainsNow } }.addCorrections sample tgt := rfl

/-- Called on its own, CTL.RUN changes the three channels alone. -/
theorem exec_ctlRun (sample : AttitudeSample) (tgt : Vec3) (s : State) :
    exec (.ctlRun sample tgt) s = .next { s with lt := { s.lt with
      rud := s.cfg.num.add s.lt.rud (yawTerm s.cfg s.gainsNow sample tgt)
      ele := s.cfg.num.add s.lt.ele (pitchTerm s.cfg s.gainsNow sample tgt)
      ail := s.cfg.num.add s.lt.ail (rollTerm s.cfg s.gainsNow sample tgt) } } := by
  change execCtlRun sample tgt s = _
  rw [execCtlRun, runEvents_ctlRun]
  rfl

/-- Settles O19: each axis's correction is the law on the gains the bank holds. -/
theorem controllerRun : Obligations.ControllerRun := by
  unfold Obligations.ControllerRun
  intro s sample tgt
  exact exec_ctlRun sample tgt s

end Sys2Proof.Machine
end

section
/-! Proofs. MotorMixer: the battery compensation (R135, R143), the duties with their outputs and their mirrors (R136 to
R139, R141), test mode (R140), and what holds of the duties in normal mode (R142, R144). -/

namespace Sys2Proof.Machine

/-! ### MIX.AMP -/

theorem exec_mixAmp (vf : Option Scalar) (s : State) :
    exec (.mixAmp vf) s = .next { s with ret := .amp (ampOf s.cfg vf) } := rfl

section
variable {cfg : Cfg} {m : Scalar}

theorem ampOf_none : ampOf cfg none = 0 := rfl

theorem ampOf_compensating (h : cfg.vShutoff ≤ m) : ampOf cfg (some m) = cfg.num.div cfg.vBase m := if_pos h

theorem ampOf_cutoff (h : m < cfg.vShutoff) : ampOf cfg (some m) = 0 := if_neg h.not_ge

theorem ampOf_eq_zero {vf : Option Scalar} (h : ∀ m, vf = some m → m < cfg.vShutoff) : ampOf cfg vf = 0 := by
  cases vf with
  | none => exact ampOf_none
  | some m => exact ampOf_cutoff (h m rfl)

end

/-- Settles O20: the three branches of `ampOf`. -/
theorem batteryCompensation : Obligations.BatteryCompensation := by
  unfold Obligations.BatteryCompensation
  intro s m
  refine ⟨?_, fun h => ?_, fun h => ?_⟩
  · rw [exec_mixAmp, ampOf_none]
  · rw [exec_mixAmp, ampOf_compensating h]
  · rw [exec_mixAmp, ampOf_cutoff h]

/-! ### What MIX.RUN and MIX.TEST share -/

/-- Four duties latched and output in motor order. -/
def State.withDuties (s : State) (d : Quad Nat) : State :=
  { s with dutyOut := d, lt := { s.lt with duty := d }, out := s.out ++ dutyOutputs d }

/-! ### MIX.TEST -/

/-- The four raw duties (R140). -/
def State.rawDuties (s : State) (en : Word) : Quad Nat :=
  ⟨rawDuty en (s.x .motor0), rawDuty en (s.x .motor1), rawDuty en (s.x .motor2), rawDuty en (s.x .motor3)⟩

theorem State.rawDuties_get (s : State) (en : Word) (i : Fin 4) :
    (s.rawDuties en).get i = rawDuty en (s.x (.motor i)) := by
  fin_cases i <;> rfl

theorem rawDuty_enabled {en : Word} (h : en ≠ 0) (v : Word) : (rawDuty en v : Int) = max 0 (min v.toInt 1023) := by
  rw [rawDuty, if_pos (by simpa using h), clampInt_eq (by decide), dutyMax]
  omega

/-- In test mode the raw duties are output and no register is written. -/
theorem exec_mixTest (en : Word) (s : State) : exec (.mixTest en) s = .next (s.withDuties (s.rawDuties en)) :=
  congrArg Host.Outcome.next (runEvents_mixTest en s)

/-- Settles O25: the raw duties by whether the motors are enabled. -/
theorem testModeOutputs : Obligations.TestModeOutputs := by
  unfold Obligations.TestModeOutputs
  intro s en
  refine ⟨s.rawDuties en, fun hdisabled => ?_, fun henabled i => ?_, exec_mixTest en s⟩
  · subst hdisabled
    rfl
  · rw [s.rawDuties_get]
    exact rawDuty_enabled henabled _

/-! ### MIX.RUN -/

/-- The mirrors of four duties in the motors' own registers (R139). -/
def mirrorWrites (d : Quad Nat) : List (Reg × Word) :=
  [(.motor0, BitVec.ofNat 16 d.m0), (.motor1, BitVec.ofNat 16 d.m1), (.motor2, BitVec.ofNat 16 d.m2),
   (.motor3, BitVec.ofNat 16 d.m3)]

theorem mirrorWrites_registers (d : Quad Nat) :
    (mirrorWrites d).map Prod.fst = [.motor0, .motor1, .motor2, .motor3] := rfl

theorem mirror_mem_mirrorWrites (d : Quad Nat) (i : Fin 4) :
    (Reg.motor i, BitVec.ofNat 16 (d.get i)) ∈ mirrorWrites d := by
  fin_cases i <;> simp [mirrorWrites, Reg.motor, Quad.get]

/-- Four duties latched, output in motor order, and mirrored (R139). -/
def State.driveMotors (s : State) (d : Quad Nat) : State := (s.withDuties d).setAll (mirrorWrites d)

/-- Besides the bank the latch, the port and the outputs change. -/
theorem State.driveMotors_frame (s : State) (d : Quad Nat) :
    s.driveMotors d = { s.withDuties d with regs := (s.driveMotors d).regs } :=
  (s.withDuties d).setAll_frame (mirrorWrites d)

@[simp] theorem State.driveMotors_dutyOut (s : State) (d : Quad Nat) : (s.driveMotors d).dutyOut = d := rfl

theorem State.driveMotors_onlyWrites {s : State} (hc : s.cfg.Ok) (hm : Memory.wf s.cfg.n s.regs = true) (d : Quad Nat) :
    OnlyWrites s (s.driveMotors d) (mirrorWrites d) := by
  have hnodup : ((mirrorWrites d).map Prod.fst).Nodup := by
    rw [mirrorWrites_registers]
    decide
  exact onlyWrites_setAll hc hm (show (s.withDuties d).regs = s.regs from rfl) rfl hnodup

section
variable (s : State) (thr : Int) (rud ele ail : Scalar) (vf : Option Scalar)

/-- The four duties of MIX.RUN (R136 to R138). -/
def State.mixDuties : Quad Nat := (s.computeDuties thr rud ele ail vf).lt.duty

theorem State.mixDuties_get (i : Fin 4) : (s.mixDuties thr rud ele ail vf).get i =
    dutyOf s.cfg (ceilingOf (s.x .limit)) (mixOf s.cfg i thr rud ele ail vf) := by
  fin_cases i <;> rfl

/-- Clamping is to the effective ceiling, and conversion keeps what is clamped (R138, R141). -/
theorem State.mixDuties_get_eq (i : Fin 4) : ((s.mixDuties thr rud ele ail vf).get i : Int) =
    toRegInt s.cfg (max 0 (min (mixOf s.cfg i thr rud ele ail vf) ((max 0 (min (s.x .limit).toInt 1023) : Int)))) := by
  rw [s.mixDuties_get, dutyOf_eq s.cfg (ceilingOf_range _).1, ceilingOf_eq]

theorem State.mixDuties_get_le_ceiling (i : Fin 4) :
    ((s.mixDuties thr rud ele ail vf).get i : Int) ≤ ceilingOf (s.x .limit) := by
  obtain ⟨hlow, hhigh⟩ := ceilingOf_range (s.x .limit)
  rw [s.mixDuties_get]
  exact dutyOf_le s.cfg hlow hhigh _

theorem exec_mixRun :
    exec (.mixRun thr rud ele ail vf) s = .next (s.driveMotors (s.mixDuties thr rud ele ail vf)) :=
  congrArg Host.Outcome.next (runEvents_mixRun (fun u => u.computeDuties thr rud ele ail vf) s)

end

/-- Settles O21: MIX.RUN drives the motors with its four duties. -/
theorem mixerRun : Obligations.MixerRun := by
  unfold Obligations.MixerRun
  intro s thr rud ele ail vf hc hm
  exact ⟨s.driveMotors (s.mixDuties thr rud ele ail vf), ampOf s.cfg vf, exec_mixAmp vf s,
    exec_mixRun s thr rud ele ail vf, s.mixDuties_get_eq thr rud ele ail vf,
    State.driveMotors_onlyWrites hc hm _, s.driveMotors_frame _⟩

/-- Settles O22: a mirror holds its duty, which is at most the effective ceiling and so fits a register. -/
theorem mixerDutyBounds : Obligations.MixerDutyBounds := by
  unfold Obligations.MixerDutyBounds
  intro s t thr rud ele ail vf hc hm ht i
  rw [exec_mixRun, Host.Outcome.next.injEq] at ht
  subst ht
  have hle := s.mixDuties_get_le_ceiling thr rud ele ail vf i
  have hceiling := (ceilingOf_range (s.x .limit)).2
  obtain ⟨-, hmirrors, -⟩ := State.driveMotors_onlyWrites hc hm (s.mixDuties thr rud ele ail vf)
  have hmirror := hmirrors _ (mirror_mem_mirrorWrites _ i)
  rw [hmirror, ofNat_toInt_of_lt (by omega), State.driveMotors_dutyOut]
  exact ⟨Int.natCast_nonneg _, rfl, ceilingOf_eq _ ▸ hle⟩

/-! ### The duties in normal mode -/

/-- Every motor takes the throttle alike (R142 (i)). -/
theorem mix_thr_eq {c : Cfg} (h : c.Ok) (i : Fin 4) : (c.mix.get i).thr = (c.mix.get 0).thr := by
  obtain ⟨h1, h2, h3⟩ := h.mix_throttle
  fin_cases i
  · rfl
  · exact h1
  · exact h2
  · exact h3

/-- Settles O23: without corrections a duty depends on its throttle column alone, and that is the same for all motors. -/
theorem pureThrottleGivesEqualDuties : Obligations.PureThrottleGivesEqualDuties := by
  unfold Obligations.PureThrottleGivesEqualDuties
  intro s thr vf hc hzero
  refine ⟨_, exec_mixRun s thr 0 0 0 vf, fun i => ?_⟩
  rw [State.driveMotors_dutyOut, s.mixDuties_get, s.mixDuties_get, mixOf_throttle hzero i, mixOf_throttle hzero 0,
    mix_thr_eq hc i]

/-- Settles O24: without amplification every motor's product is zero. -/
theorem cutoffSilencesTheMotors : Obligations.CutoffSilencesTheMotors := by
  unfold Obligations.CutoffSilencesTheMotors
  intro s thr rud ele ail vf hzero hcutoff
  refine ⟨_, exec_mixRun s thr rud ele ail vf, Quad.ext_get fun i => ?_⟩
  rw [State.driveMotors_dutyOut, s.mixDuties_get, mixOf_amp_zero hzero (ampOf_eq_zero hcutoff), dutyOf_zero]
  fin_cases i <;> rfl

end Sys2Proof.Machine
end

section
/-! Proofs. CommandProtocolServer: the five wire commands in and out of range and too short (R151 to R157), and the
sequence a bulk read returns after a bulk write (R160). -/

namespace Sys2Proof.Machine

/-! ### What the commands share -/

/-- The state after the timestamp refresh alone (R156), the datagram still in hand. -/
def State.refreshed (s : State) : State :=
  { s with rxTime := s.env.clockValue, env := s.env.afterClock, lastRx := s.env.clockValue }

theorem runEvents_refreshEvents (s : State) : runEvents refreshEvents s = s.refreshed := rfl

section
variable {i : Instr} {s : State} {addr count : Nat} {accesses : List Event}

/-- A command with its range inside the bank refreshes the timestamp and performs its accesses. -/
theorem exec_checked_in (hi : isWireCommand i = true)
    (he : pktEvents s.cfg i = refreshEvents ++ checkedEvents s.cfg addr count accesses)
    (h : addr < s.cfg.n ∧ addr + count ≤ s.cfg.n) :
    exec i s = .next (runEvents accesses s.refreshed).endHandling := by
  rw [exec_wire hi, he, runEvents_append, runEvents_refreshEvents, checkedEvents_in accesses h]

/-- A command with its range outside the bank refreshes the timestamp only (R157, R158). -/
theorem exec_checked_out (hi : isWireCommand i = true)
    (he : pktEvents s.cfg i = refreshEvents ++ checkedEvents s.cfg addr count accesses)
    (h : s.cfg.n ≤ addr ∨ s.cfg.n < addr + count) : exec i s = .next s.stamped := by
  rw [exec_wire hi, he, runEvents_append, runEvents_refreshEvents, checkedEvents_out accesses h]
  rfl

end

/-! ### Reads -/

/-- The values of `k` consecutive slots. -/
def State.slots (s : State) (addr k : Nat) : List Word := (List.range k).map fun j => s.slot (addr + j)

@[simp] theorem State.slots_length (s : State) (addr k : Nat) : (s.slots addr k).length = k := by simp [State.slots]

/-- Inside the bank they are the bank's own entries. -/
theorem slots_getElem? {s : State} {addr k j : Nat} (hin : addr + k ≤ s.regs.length) (hj : j < k) :
    (s.slots addr k)[j]? = s.regs[addr + j]? := by
  rw [slot_getElem? (by omega)]
  simp [State.slots, hj]

/-- What RD and BRD do in range: the header and the slots, low byte first and ascending, are sent. -/
theorem runEvents_readReply (s : State) (header : List Byte) (addr k : Nat) :
    (runEvents (putTx header :: (readEvents addr k ++ [sendTx])) s.refreshed).endHandling =
      { s.stamped with
        out := s.out ++ [.reply s.rx.sender (header ++ (s.slots addr k).flatMap fun v => [loByte v, hiByte v])] } := by
  rw [runEvents_cons, runEvents_append, runEvents_reads]
  rfl

theorem exec_rd_in {s : State} {addr : Byte} (h : addr.toNat < s.cfg.n) :
    exec (.rd addr) s = .next { s.stamped with
      out := s.out ++ [.reply s.rx.sender [0x00, loByte (s.slot addr.toNat), hiByte (s.slot addr.toNat)]] } :=
  (exec_checked_in rfl rfl ⟨h, h⟩).trans (congrArg _ (runEvents_readReply s [0x00] addr.toNat 1))

theorem exec_rd_out {s : State} {addr : Byte} (h : s.cfg.n ≤ addr.toNat) : exec (.rd addr) s = .next s.stamped :=
  exec_checked_out rfl rfl (.inl h)

theorem exec_brd_in {s : State} {addr count : Byte} (h : addr.toNat < s.cfg.n ∧ addr.toNat + count.toNat ≤ s.cfg.n) :
    exec (.brd addr count) s = .next { s.stamped with
      out := s.out ++ [.reply s.rx.sender
        (0x02 :: addr :: count :: (s.slots addr.toNat count.toNat).flatMap fun v => [loByte v, hiByte v])] } :=
  (exec_checked_in rfl rfl h).trans (congrArg _ (runEvents_readReply s [0x02, addr, count] addr.toNat count.toNat))

theorem exec_brd_out {s : State} {addr count : Byte}
    (h : s.cfg.n ≤ addr.toNat ∨ s.cfg.n < addr.toNat + count.toNat) : exec (.brd addr count) s = .next s.stamped :=
  exec_checked_out rfl rfl h

/-- Settles O26: in range the slot is there and its two bytes are sent. -/
theorem readCommand : Obligations.ReadCommand := by
  unfold Obligations.ReadCommand
  refine ⟨dropsShort_rd, fun s addr hm => ⟨fun hin => ?_, exec_rd_out⟩⟩
  have hlen : addr.toNat < s.regs.length := by rwa [memory_length hm]
  exact ⟨s.slot addr.toNat, slot_getElem? hlen, exec_rd_in hin⟩

/-- Settles O28: in range the slots are the bank's entries and their bytes follow the header. -/
theorem bulkReadCommand : Obligations.BulkReadCommand := by
  unfold Obligations.BulkReadCommand
  refine ⟨dropsShort_brd, fun s addr count hm => ⟨fun haddr hend => ?_, exec_brd_out⟩⟩
  have hlen : addr.toNat + count.toNat ≤ s.regs.length := by rwa [memory_length hm]
  exact ⟨s.slots addr.toNat count.toNat, s.slots_length _ _, fun _ => slots_getElem? hlen, exec_brd_in ⟨haddr, hend⟩⟩

/-! ### Writes -/

theorem exec_bwr_in {s : State} {addr : Byte} {vs : List Word}
    (h : addr.toNat < s.cfg.n ∧ addr.toNat + vs.length ≤ s.cfg.n) :
    exec (.bwr addr vs) s = .next { s.stamped with
      regs := (runEvents (writeEvents addr.toNat vs) s.refreshed).regs } := by
  rw [exec_checked_in rfl rfl h, runEvents_writes_regs]
  rfl

theorem exec_bwr_out {s : State} {addr : Byte} {vs : List Word}
    (h : s.cfg.n ≤ addr.toNat ∨ s.cfg.n < addr.toNat + vs.length) : exec (.bwr addr vs) s = .next s.stamped :=
  exec_checked_out rfl rfl h

/-- Settles O29: in range the writes are those of `runEvents_writes` on the refreshed state, whose bank is that of `s`. -/
theorem bulkWriteCommand : Obligations.BulkWriteCommand := by
  unfold Obligations.BulkWriteCommand
  refine ⟨dropsShort_bwr, fun s addr vs hm => ⟨fun haddr hend => ?_, exec_bwr_out⟩⟩
  have hlen : addr.toNat + vs.length ≤ s.refreshed.regs.length := hend.trans (memory_length hm).ge
  exact ⟨_, exec_bwr_in ⟨haddr, hend⟩, rfl, runEvents_writes vs s.refreshed addr.toNat hlen⟩

/-- WR is a BWR of one value but for its format (R152, R154). -/
theorem exec_wr (addr : Byte) (v : Word) (s : State) : exec (.wr addr v) s = exec (.bwr addr [v]) s := rfl

/-- Settles O27, as O29 for a single value. -/
theorem writeCommand : Obligations.WriteCommand := by
  unfold Obligations.WriteCommand
  obtain ⟨-, hbwr⟩ := bulkWriteCommand
  refine ⟨dropsShort_wr, fun s addr v hm => ?_⟩
  obtain ⟨hin, hout⟩ := hbwr s addr [v] hm
  rw [exec_wr]
  refine ⟨fun h => ?_, fun h => hout (.inl h)⟩
  obtain ⟨t, ht, hframe, hlen, hvalues, hothers⟩ := hin h h
  refine ⟨t, ht, hframe, hlen, hvalues 0 Nat.one_pos, fun j hj => hothers j ?_⟩
  rw [List.length_singleton]
  omega

/-! ### A bulk read after a bulk write -/

/-- Settles O31: the slots BRD reads (O28) are, one by one, the values BWR has written (O29). -/
theorem bulkWriteThenReadReturnsTheSequence : Obligations.BulkWriteThenReadReturnsTheSequence := by
  unfold Obligations.BulkWriteThenReadReturnsTheSequence
  intro s addr vs hm hcount haddr hend
  obtain ⟨-, hbwr⟩ := bulkWriteCommand
  obtain ⟨-, hbrd⟩ := bulkReadCommand
  obtain ⟨hwrite, -⟩ := hbwr s addr vs hm
  obtain ⟨u, hu, hframe, hlen, hwritten, -⟩ := hwrite haddr hend
  refine ⟨u, hu, fun d => ?_⟩
  have hcfg : u.cfg = s.cfg := by rw [hframe]; rfl
  have hout : u.out = s.out := by rw [hframe]; rfl
  have hk : (BitVec.ofNat 8 vs.length).toNat = vs.length := by
    rw [BitVec.toNat_ofNat, Nat.mod_eq_of_lt (by omega)]
  have hmu : Memory.wf u.cfg.n u.regs = true := by
    rw [hcfg]
    simpa [Memory.wf, hlen] using hm
  obtain ⟨hreply, -⟩ := hbrd { u with rx := d } addr (BitVec.ofNat 8 vs.length) hmu
  obtain ⟨read, hreadLen, hread, ht⟩ := hreply (by rwa [hcfg]) (by rwa [hk, hcfg])
  rw [hk] at hreadLen hread
  have hsame : read = vs := by
    refine List.ext_getElem? fun k => ?_
    rcases lt_or_ge k vs.length with hlt | hge
    · exact (hread k hlt).trans (hwritten k hlt)
    · rw [List.getElem?_eq_none (hreadLen.trans_le hge), List.getElem?_eq_none hge]
  exact ⟨_, ht, by rw [hsame, hout]⟩

/-! ### ECHO -/

/-- Settles O30: the timestamp refresh, then the request as it is. -/
theorem echoCommand : Obligations.EchoCommand := by
  unfold Obligations.EchoCommand
  intro s bytes
  have hevents : pktEvents s.cfg (.echo bytes) = refreshEvents ++ [putTx bytes, sendTx] := rfl
  rw [exec_wire rfl, hevents, runEvents_append, runEvents_refreshEvents]
  rfl

end Sys2Proof.Machine
end

section
/-! Proofs. What an agent fetches (R150, R170): the step `phase` names, the oldest datagram delivered, which may be too
short or too long for a command (R156, R158, R201, U6), or an operation placed in `call` (log 9). -/

namespace Sys2Proof.Machine

/-! ### TICK -/

theorem tickTurn_begin {s : State} (hm : s.micro = 0) : s.tickTurn = exec s.phase.instr s := by
  rw [State.tickTurn, hm]

/-- The labels of the tick steps are 0x71 to 0x7D, in the order of the phases (R73). -/
theorem encode_phase (p : Phase) : encode p.instr = .call ⟨0x70#8 + p.code.setWidth 8, []⟩ := by
  cases p <;> rfl

/-! ### PKT -/

section
variable {s t : State} {d : Datagram} {ds : List Datagram}

theorem pktTurn_of_takeUp_next (hp : s.pkt = .idle) (h : s.takeUp = .next t) : s.pktTurn = t.handleInHand := by
  simp only [State.pktTurn, hp, h]

theorem pktTurn_of_takeUp_refused {r : Refusal} (hp : s.pkt = .idle) (h : s.takeUp = .refused r) :
    s.pktTurn = .refused r := by
  simp only [State.pktTurn, hp, h]

theorem pktEventTurn_idle (hp : s.pkt = .idle) : s.pktEventTurn = s.takeUp := by
  rw [State.pktEventTurn, hp]

theorem handleInHand_idle (hp : s.pkt = .idle) : s.handleInHand = .next s := by
  rw [State.handleInHand, hp]

/-- A datagram below its opcode's minimum length is gone once taken up (R158). -/
theorem takeUp_short (hi : s.inbox = d :: ds) (hd : decodeDatagram s.cfg.rxMax d.bytes = .reject .short) :
    s.takeUp = .next { s with inbox := ds, rx := d }.drop := by
  simp only [State.takeUp, hi, hd]

theorem decodeDatagram_tooLong {rxMax : Nat} {rx : List Byte} (h : rxMax < rx.length) :
    decodeDatagram rxMax rx = .reject .tooLong := if_pos h

theorem takeUp_tooLong (hi : s.inbox = d :: ds) (h : s.cfg.rxMax < d.bytes.length) :
    s.takeUp = .refused .datagramTooLong := by
  simp only [State.takeUp, hi, decodeDatagram_tooLong h]

/-- Where nothing is left in hand, PKT's turn with nothing in hand before is taking a datagram up, be the turn whole or of
one event. -/
theorem takeTurn_pkt_of_takeUp_idle {turn : Turn} (hturn : turn = .pkt ∨ turn = .pktEvent) (hp : s.pkt = .idle)
    (h : s.takeUp = .next t) (ht : t.pkt = .idle) : s.takeTurn turn = .next t := by
  rcases hturn with rfl | rfl
  · exact (pktTurn_of_takeUp_next hp h).trans (handleInHand_idle ht)
  · exact (pktEventTurn_idle hp).trans h

theorem takeTurn_pkt_of_takeUp_refused {turn : Turn} {r : Refusal} (hturn : turn = .pkt ∨ turn = .pktEvent)
    (hp : s.pkt = .idle) (h : s.takeUp = .refused r) : s.takeTurn turn = .refused r := by
  rcases hturn with rfl | rfl
  · exact pktTurn_of_takeUp_refused hp h
  · exact (pktEventTurn_idle hp).trans h

end

/-- Settles O32: a short datagram leaves PKT idle once taken up, one over RX_MAX cannot be taken up. -/
theorem unacceptableDatagrams : Obligations.UnacceptableDatagrams := by
  unfold Obligations.UnacceptableDatagrams
  intro s d ds hc hp hi hturn
  rw [step_turn hc]
  refine ⟨fun hshort => ?_, fun hlong => ?_⟩
  · rw [takeTurn_pkt_of_takeUp_idle (s := s.afterTurn) hturn hp (takeUp_short hi hshort) rfl, hp]
    rfl
  · exact takeTurn_pkt_of_takeUp_refused (s := s.afterTurn) hturn hp (takeUp_tooLong hi hlong)

/-! ### A call -/

theorem step_call {s : State} {c : Call} {i : Instr} (hc : s.call = some c) (hd : decodeCall c = .ok i) :
    step s = exec i { s with call := none } := by
  simp only [step, hc, State.callTurn, hd]

/-- Settles O53: each agent's turn, then a call. -/
theorem stepRunsTheFetchedInstruction : Obligations.StepRunsTheFetchedInstruction := by
  unfold Obligations.StepRunsTheFetchedInstruction
  intro s
  refine ⟨fun hc hturn hm => ?_, fun d ds i hc hturn hp hi hd => ?_, fun _ _ => step_call⟩
  · refine ⟨?_, decodeCall_encode (encode_phase s.phase)⟩
    rw [step_turn hc, hturn]
    exact tickTurn_begin (s := s.afterTurn) hm
  · rw [step_turn hc, hturn]
    exact pktTurn_of_takeUp_next (s := s.afterTurn) hp (takeUp_decoded hi hd)

end Sys2Proof.Machine
end

section
/-! Proofs. The registers each tick step writes and the values it writes there (R186), with what every step therefore
leaves alone in the bank. -/

namespace Sys2Proof.Machine

/-! ### The registers and the writes of each step -/

/-- The registers R186 lists for each step. -/
def Phase.registers : Phase → List Reg
  | .t1 => [.battRaw, .battFiltered]
  | .t4 => [.battStatus]
  | .t5 => [.calib]
  | .t6 => [.attYaw, .attPitch, .attRoll, .rotX, .rotY, .rotZ, .accX, .accY, .accZ]
  | .t7 => [.enable]
  | .t8 => [.targetYaw, .targetPitch, .targetRoll]
  | .t11 => [.motor0, .motor1, .motor2, .motor3]
  | .t12 => [.loopTime, .time]
  | .t2 | .t3 | .t9 | .t10 | .t13 => []

/-- The pitch target T8 forms (R178). -/
def State.pitchTarget (s : State) : Word := trimmed (s.x .joyPitch) (s.x .trimPitch)

/-- The roll target T8 forms (R178). -/
def State.rollTarget (s : State) : Word := trimmed (s.x .joyRoll) (s.x .trimRoll)

/-- The failsafe once T4 has read the throttle command (R174). -/
def State.apReleased (s : State) : AutoPilot := if s.x .joyThrottle = 0 then s.ap.initialised else s.ap

/-- The writes of BATT_FILTERED by a filter's answer (R171). -/
def filteredWrites (c : Cfg) : Option Scalar → List (Reg × Word)
  | some f => [(.battFiltered, toReg c (c.num.mul f c.battRegScale))]
  | none => []

/-- The writes of a tick step performed whole, in their order. -/
def State.tickWrites (s : State) : Phase → List (Reg × Word)
  | .t1 => (.battRaw, toReg s.cfg (s.cfg.num.ofInt s.measured.lt.adc)) :: filteredWrites s.cfg s.measured.lt.vf
  | .t4 => [(.battStatus, statusWord s.apReleased.active)]
  | .t5 =>
    if s.x .calib = 1 then [(.calib, 2)]
    else if s.x .calib = 2 ∧ s.cal.ready = true then [(.calib, 0)]
    else []
  | .t6 => telemetryWrites s.cfg s.sense.lt.sample
  | .t7 => if commTimeout s.cfg s.lt.tStart s.lastRx then [(.enable, 0)] else []
  | .t8 => [(.targetYaw, s.x .trimYaw), (.targetPitch, s.pitchTarget), (.targetRoll, s.rollTarget)]
  | .t11 =>
    if s.x .testMode = 0x00A5 then []
    else mirrorWrites (s.mixDuties s.lt.thr s.lt.rud s.lt.ele s.lt.ail s.lt.vf)
  | .t12 => [(.loopTime, loopReg s.cfg s.lt.tStart s.env.clockValue), (.time, timeReg s.cfg s.env.clockValue)]
  | .t2 | .t3 | .t9 | .t10 | .t13 => []

/-! ### Lists of writes -/

@[simp] theorem State.setAll_cfg (s : State) (ws : List (Reg × Word)) : (s.setAll ws).cfg = s.cfg := by
  rw [s.setAll_frame ws]

/-- What is written depends on the bank and the configuration alone. -/
theorem State.setAll_regs_congr {s u : State} (hregs : u.regs = s.regs) (hcfg : u.cfg = s.cfg)
    (ws : List (Reg × Word)) : (u.setAll ws).regs = (s.setAll ws).regs := by
  induction ws using List.reverseRecOn with
  | nil => exact hregs
  | append_singleton ws w ih =>
    simp only [State.setAll_concat, State.setX_regs, State.setAll_cfg, hcfg, ih]

/-- A slot none of the written registers has keeps its place. -/
theorem setAll_getElem?_ne (s : State) (ws : List (Reg × Word)) {j : Nat} (hj : ∀ w ∈ ws, j ≠ s.cfg.id w.1) :
    (s.setAll ws).regs[j]? = s.regs[j]? := by
  induction ws using List.reverseRecOn with
  | nil => rfl
  | append_singleton ws w ih =>
    rw [State.setAll_concat, State.setX_regs, State.setAll_cfg, List.getElem?_set_ne (hj w (by simp)).symm]
    exact ih fun v hv => hj v (by simp [hv])

/-! ### The bank after a step -/

/-- T6 writes the telemetry of its own sample (R176). -/
theorem runStep_t6_regs (s : State) : (s.runStep .t6).regs = (s.setAll (s.tickWrites .t6)).regs := by
  change s.estUpdated.regs = _
  rw [s.estUpdated_eq]
  exact State.setAll_regs_congr (show s.sense.regs = s.regs from rfl) rfl _

/-- T8 is its three writes and the targets in radians (R178). -/
theorem runStep_t8 (s : State) : s.runStep .t8 =
    { ((s.setX .targetYaw (s.x .trimYaw)).setX .targetPitch s.pitchTarget).setX .targetRoll s.rollTarget with
      lt := { s.lt with tgt :=
        ⟨angleOf s.cfg (s.x .trimYaw), angleOf s.cfg s.pitchTarget, angleOf s.cfg s.rollTarget⟩ } }.endStep .t8 := rfl

theorem isTestMode_iff {mode : Word} : isTestMode mode = true ↔ mode = 0x00A5 := beq_iff_eq

/-- T11 in test mode (R181). -/
theorem runStep_t11_test {s : State} (h : s.x .testMode = 0x00A5) :
    s.runStep .t11 = (s.withDuties (s.rawDuties s.lt.en)).endStep .t11 := by
  rw [runStep_t11, if_pos (isTestMode_iff.mpr h), runEvents_mixTest]
  rfl

/-- T11 in normal mode (R181). -/
theorem runStep_t11_normal {s : State} (h : s.x .testMode ≠ 0x00A5) :
    s.runStep .t11 =
      (s.driveMotors (s.mixDuties s.lt.thr s.lt.rud s.lt.ele s.lt.ail s.lt.vf)).endStep .t11 := by
  rw [runStep_t11, if_neg fun hm => h (isTestMode_iff.mp hm), runEvents_mixRun]
  rfl

/-- T11 writes the mirrors of its duties, in normal mode only (R181). -/
theorem runStep_t11_regs (s : State) : (s.runStep .t11).regs = (s.setAll (s.tickWrites .t11)).regs := by
  rw [State.tickWrites]
  by_cases h : s.x .testMode = 0x00A5
  · rw [runStep_t11_test h, if_pos h]
    rfl
  · rw [runStep_t11_normal h, if_neg h]
    exact State.setAll_regs_congr (u := s.withDuties _) rfl rfl _

/-- The bank after a tick step is the bank with the step's writes. -/
theorem runStep_regs (p : Phase) (s : State) : (s.runStep p).regs = (s.setAll (s.tickWrites p)).regs := by
  cases p with
  | t1 =>
    rw [runStep_t1, State.tickWrites]
    cases s.measured.lt.vf <;> rfl
  | t3 =>
    rw [runStep_t3]
    split <;> rfl
  | t5 =>
    rw [runStep_t5, State.tickWrites]
    split
    · rfl
    · split <;> rfl
  | t7 =>
    rw [runStep_t7, State.tickWrites]
    split <;> rfl
  | t10 =>
    rw [runStep_t10]
    split <;> rfl
  | t11 => exact runStep_t11_regs s
  | t13 =>
    rw [runStep_t13]
    split
    · rfl
    · split <;> rfl
  | t2 => rfl
  | t4 => rfl
  | t6 => exact runStep_t6_regs s
  | t8 =>
    rw [runStep_t8]
    rfl
  | t9 => rfl
  | t12 => rfl

/-- A step writes registers R186 lists for it, each at most once and in the list's order. -/
theorem tickWrites_registers (p : Phase) (s : State) : ((s.tickWrites p).map Prod.fst).Sublist p.registers := by
  cases p with
  | t1 =>
    rw [State.tickWrites]
    cases s.measured.lt.vf with
    | some f => exact .refl _
    | none => exact .cons_cons _ (List.nil_sublist _)
  | t5 =>
    rw [State.tickWrites]
    split
    · exact .refl _
    · split
      · exact .refl _
      · exact List.nil_sublist _
  | t7 =>
    rw [State.tickWrites]
    split
    · exact .refl _
    · exact List.nil_sublist _
  | t11 =>
    rw [State.tickWrites]
    split
    · exact List.nil_sublist _
    · exact .refl _
  | _ => exact .refl _

theorem Phase.registers_nodup (p : Phase) : p.registers.Nodup := by
  cases p <;> decide

theorem runStep_getElem?_ne {p : Phase} {s : State} {j : Nat} (hj : ∀ r ∈ p.registers, j ≠ s.cfg.id r) :
    (s.runStep p).regs[j]? = s.regs[j]? := by
  rw [runStep_regs]
  exact setAll_getElem?_ne s _ fun w hw => hj w.1 ((tickWrites_registers p s).subset (List.mem_map_of_mem hw))

/-- Settles O50: a step's writes go to the registers R186 lists for it. -/
theorem tickWritesOnlyItsRegisters : Obligations.TickWritesOnlyItsRegisters := by
  unfold Obligations.TickWritesOnlyItsRegisters
  intro p s t j h hj
  rw [exec_tick, Host.Outcome.next.injEq] at h
  subst h
  have hreg : ∀ r ∈ p.registers, j ≠ s.cfg.id r := by
    cases p <;> exact hj
  exact runStep_getElem?_ne hreg

theorem runStep_cfg (p : Phase) (s : State) : (s.runStep p).cfg = s.cfg := (tickStep_frame p s).cfg

/-- A tick step performs its writes and changes no other slot. -/
theorem runStep_onlyWrites {s : State} (hc : s.cfg.Ok) (hm : Memory.wf s.cfg.n s.regs = true) (p : Phase) :
    OnlyWrites s (s.runStep p) (s.tickWrites p) := by
  have hnodup : ((s.tickWrites p).map Prod.fst).Nodup := p.registers_nodup.sublist (tickWrites_registers p s)
  exact onlyWrites_congr (onlyWrites_setAll hc hm rfl rfl hnodup) (runStep_regs p s)
    ((runStep_cfg p s).trans (s.setAll_cfg _).symm)

end Sys2Proof.Machine
end

section
/-! Proofs. The thirteen steps of a tick one by one (R171 to R183): the writes by `runStep_onlyWrites`, the rest by the
equation of each step. -/

namespace Sys2Proof.Machine

/-! ### T1 to T3: the battery -/

/-- Besides the bank T1 changes what is local to it (R171). -/
theorem runStep_t1_frame (s : State) :
    s.runStep .t1 = { s.measured with regs := (s.runStep .t1).regs }.endStep .t1 := by
  rw [runStep_t1]
  cases s.measured.lt.vf <;> rfl

theorem runStep_t1_vf (s : State) : (s.runStep .t1).lt.vf = s.measured.lt.vf := by
  rw [runStep_t1_frame]
  rfl

/-- Settles O35: T1 measures, then writes what it measured. -/
theorem tickT1 : Obligations.TickT1 := by
  unfold Obligations.TickT1
  intro s hc hm
  refine ⟨s.runStep .t1, _, exec_tick .t1 s, rfl, ?_, ?_, ?_⟩
  · rw [runStep_t1_vf]
    rfl
  · rw [runStep_t1_vf]
    exact runStep_onlyWrites hc hm .t1
  · rw [runStep_t1_vf]
    exact runStep_t1_frame s

/-- Settles O36: T2 is its two reads, then AP.SETPARAM. -/
theorem tickT2 : Obligations.TickT2 := by
  unfold Obligations.TickT2
  intro s
  exact ⟨_, exec_apSetParam _ _ s, exec_tick .t2 s⟩

theorem lowBattery_some {c : Cfg} {f : Scalar} {threshold : Word} :
    lowBattery c (some f) threshold = true ↔ c.num.mul f c.battRegScale < (threshold.toInt : Scalar) :=
  decide_eq_true_iff

/-- Settles O37: T3 by the test of X4. -/
theorem tickT3 : Obligations.TickT3 := by
  unfold Obligations.TickT3
  intro s
  rw [exec_phase (i := .tickT3) (p := .t3) rfl, runStep_t3]
  refine ⟨fun ⟨f, hf, hlow⟩ => ⟨_, exec_apEnter _ s, ?_⟩, fun hhigh => ?_⟩
  · rw [hf, if_pos (lowBattery_some.mpr hlow)]
    rfl
  · have hno : lowBattery s.cfg s.lt.vf (s.x .battLowThreshold) ≠ true := by
      cases hf : s.lt.vf with
      | none => exact Bool.false_ne_true
      | some f => exact fun hlow => (hhigh f hf).not_gt (lowBattery_some.mp hlow)
    rw [if_neg hno]
    rfl

/-! ### T4 to T7: the throttle command, the calibration, the estimator, the timeout -/

/-- LowBattery is left exactly on a zero throttle command (R174). -/
theorem State.apReleased_eq (s : State) :
    s.apReleased = { s.ap with active := s.ap.active && (s.x .joyThrottle != 0) } := by
  unfold State.apReleased
  split
  · next hzero => simp [hzero, AutoPilot.initialised]
  · next hthr =>
    rw [bne_iff_ne.mpr hthr, Bool.and_true]

/-- Settles O38: T4 is the read with the failsafe, then one write. -/
theorem tickT4 : Obligations.TickT4 := by
  unfold Obligations.TickT4
  intro s hc hm
  exact ⟨s.runStep .t4, exec_tick .t4 s, s.apReleased_eq, runStep_onlyWrites hc hm .t4, rfl⟩

/-- Settles O39: T5 by its three branches. -/
theorem tickT5 : Obligations.TickT5 := by
  unfold Obligations.TickT5
  intro s hc hm
  have hw := runStep_onlyWrites hc hm .t5
  rw [State.tickWrites] at hw
  rw [exec_phase (i := .tickT5) (p := .t5) rfl]
  refine ⟨fun hreq => ?_, fun hpending hready => ?_, fun hreq hidle => ?_⟩
  · rw [if_pos hreq] at hw
    refine ⟨_, _, exec_estStartCal s, rfl, hw, ?_⟩
    rw [runStep_t5, if_pos hreq]
    rfl
  · have hreq : s.x .calib ≠ 1 := by rw [hpending]; decide
    rw [if_neg hreq, if_pos ⟨hpending, hready⟩] at hw
    refine ⟨_, rfl, hw, ?_⟩
    rw [runStep_t5, if_neg hreq, if_pos ⟨hpending, hready⟩]
    rfl
  · have hnot : ¬(s.x .calib = 2 ∧ s.cal.ready = true) := fun ⟨hpending, hready⟩ =>
      hidle.elim (fun h => h hpending) fun h => Bool.false_ne_true (h.symm.trans hready)
    rw [runStep_t5, if_neg hreq, if_neg hnot]
    rfl

/-- Settles O40: T6 is the events of EST.UPDATE. -/
theorem tickT6 : Obligations.TickT6 := by
  unfold Obligations.TickT6
  intro s
  exact ⟨_, exec_estUpdate s, exec_tick .t6 s⟩

theorem commTimeout_iff {c : Cfg} {tStart lastRx : Nat} :
    commTimeout c tStart lastRx = true ↔ (c.commTimeout : Int) < (tStart : Int) - lastRx := decide_eq_true_iff

/-- Settles O41: T7 by the test of X3. -/
theorem tickT7 : Obligations.TickT7 := by
  unfold Obligations.TickT7
  intro s hc hm
  have hw := runStep_onlyWrites hc hm .t7
  rw [State.tickWrites] at hw
  rw [exec_phase (i := .tickT7) (p := .t7) rfl]
  refine ⟨fun hlate => ?_, fun hfresh => ?_⟩
  · have hlate := commTimeout_iff.mpr hlate
    rw [if_pos hlate] at hw
    refine ⟨_, rfl, hw, ?_⟩
    rw [runStep_t7, if_pos hlate]
    rfl
  · rw [runStep_t7, if_neg fun hlate => hfresh.not_gt (commTimeout_iff.mp hlate)]
    rfl

/-! ### T8 to T11: targets, throttle, stabilisation, motors -/

theorem trimmed_toInt (joy trim : Word) :
    (trimmed joy trim).toInt = max (-32768) (min (joy.toInt + trim.toInt) 32767) :=
  (satWord_toInt _).trans (sat16_eq _)

/-- Settles O42: the targets are saturated integer sums, and the latch is theirs in radians. -/
theorem tickT8 : Obligations.TickT8 := by
  unfold Obligations.TickT8
  intro s hc hm
  refine ⟨s.runStep .t8, s.pitchTarget, s.rollTarget, exec_tick .t8 s, trimmed_toInt _ _, trimmed_toInt _ _,
    runStep_onlyWrites hc hm .t8, ?_⟩
  rw [runStep_t8]
  rfl

/-- The throttle T9 requests (R179). -/
def State.requested (s : State) : Int := if s.x .enable = 0 then 0 else s.lt.joyThr.toInt

theorem runStep_t9 (s : State) : s.runStep .t9 =
    { s with lt := { s.lt with
      en := s.x .enable, thr := s.ap.throttle s.lt.tStart s.requested } }.endStep .t9 := by
  have hreq : s.requested = if s.x .enable != 0 then s.lt.joyThr.toInt else 0 := by
    unfold State.requested
    by_cases h : s.x .enable = 0 <;> simp [h]
  rw [hreq]
  rfl

/-- Settles O43: T9 takes what AP.GETTHR answers to its request. -/
theorem tickT9 : Obligations.TickT9 := by
  unfold Obligations.TickT9
  intro s
  refine ⟨_, exec_apGetThr _ s.requested s, ?_⟩
  rw [exec_phase (i := .tickT9) (p := .t9) rfl, runStep_t9]
  rfl

theorem State.armed_iff (s : State) : s.armed = true ↔ s.lt.en ≠ 0 ∧ s.lt.joyThr ≠ 0 := by
  simp [State.armed]

/-- T10 of a vehicle that is not armed clears the channels only (R180, R184). -/
theorem runStep_t10_disarmed {s : State} (h : s.lt.en = 0 ∨ s.lt.joyThr = 0) :
    s.runStep .t10 = s.channelsCleared.endStep .t10 := by
  rw [runStep_t10, if_neg]
  rw [s.armed_iff]
  tauto

/-- Settles O44: T10 by whether the vehicle is armed. -/
theorem tickT10 : Obligations.TickT10 := by
  unfold Obligations.TickT10
  intro s
  rw [exec_phase (i := .tickT10) (p := .t10) rfl]
  refine ⟨fun hen hjoy => ⟨_, rfl, ?_⟩, fun hdisarmed => ?_⟩
  · rw [runStep_t10, if_pos (s.armed_iff.mpr ⟨hen, hjoy⟩)]
    rfl
  · rw [runStep_t10_disarmed hdisarmed]
    rfl

/-- Settles O45: T11 by the mode. -/
theorem tickT11 : Obligations.TickT11 := by
  unfold Obligations.TickT11
  intro s
  rw [exec_phase (i := .tickT11) (p := .t11) rfl]
  by_cases h : s.x .testMode = 0x00A5
  · rw [if_pos h, runStep_t11_test h]
    exact ⟨_, exec_mixTest _ s, rfl⟩
  · rw [if_neg h, runStep_t11_normal h]
    exact ⟨_, exec_mixRun s _ _ _ _ _, rfl⟩

/-! ### T12 and T13: the end of the tick -/

theorem loopReg_toInt (c : Cfg) (tStart tEnd : Nat) : (loopReg c tStart tEnd).toInt =
    max (-32768) (min ⌊(((tEnd : Int) - (tStart : Int) : Int) : Scalar) / c.loopTimeUnit⌋ 32767) :=
  (satWord_toInt _).trans (sat16_eq _)

/-- `wrap16` keeps an integer modulo 65536 (R7). -/
theorem wrap16_toInt_modEq (k : Int) : (wrap16 k).toInt ≡ k [ZMOD 65536] := by
  rw [wrap16, BitVec.toInt_ofInt]
  exact Int.bmod_emod

/-- Settles O46: the two registers by what saturation and wrapping keep of the quotients. -/
theorem tickT12 : Obligations.TickT12 := by
  unfold Obligations.TickT12
  intro s hc hm
  obtain ⟨-, hval, -⟩ := runStep_onlyWrites hc hm .t12
  have hloop : (s.runStep .t12).x .loopTime = loopReg s.cfg s.lt.tStart s.env.clockValue :=
    hval (.loopTime, _) List.mem_cons_self
  have htime : (s.runStep .t12).x .time = timeReg s.cfg s.env.clockValue :=
    hval (.time, _) (List.mem_cons_of_mem _ List.mem_cons_self)
  refine ⟨s.runStep .t12, exec_tick .t12 s, ?_⟩
  rw [hloop, htime]
  exact ⟨loopReg_toInt _ _ _, wrap16_toInt_modEq _, runStep_onlyWrites hc hm .t12, rfl⟩

/-- Settles O47: T13 by how late the tick is. -/
theorem tickT13 : Obligations.TickT13 := by
  unfold Obligations.TickT13
  intro s
  refine ⟨s.runStep .t13, exec_tick .t13 s, ?_⟩
  rw [runStep_t13]
  rcases le_or_gt s.env.clockValue s.deadline with hearly | hlate
  · rw [if_pos hearly]
    have hwait := (s.env.afterClock.waitUntil_now s.deadline).1
    exact ⟨fun _ => ⟨rfl, hwait⟩, fun h => absurd hearly h.not_ge, fun h => absurd hearly h.not_ge, rfl⟩
  · rw [if_neg hlate.not_ge]
    rcases lt_or_ge (s.env.clockValue - s.deadline) s.cfg.period with hless | hmore
    · rw [if_pos hless]
      exact ⟨fun h => absurd hlate h.not_gt, fun _ _ => ⟨rfl, rfl⟩, fun _ h => absurd hless h.not_gt, rfl⟩
    · rw [if_neg hmore.not_gt]
      exact ⟨fun h => absurd hlate h.not_gt, fun _ h => absurd hmore h.not_ge, fun _ _ => ⟨rfl, rfl⟩, rfl⟩

end Sys2Proof.Machine
end

section
/-! Proofs. The order of the steps (R170): a tick step hands over to the next one, nothing else moves `phase`. -/

namespace Sys2Proof.Machine

theorem phaseOf_instr (p : Phase) : phaseOf p.instr = some p := by
  cases p <;> rfl

/-- Only a tick step moves `phase`. -/
theorem exec_phase_of_none {i : Instr} (hp : phaseOf i = none) {s t : State} (h : exec i s = .next t) :
    t.phase = s.phase := by
  cases hw : isWireCommand i with
  | true =>
    rw [exec_wire hw, Host.Outcome.next.injEq] at h
    subst h
    exact (pktEvents_frame (fun _ he => he) s).phase
  | false =>
    obtain ⟨u, hu, hf⟩ := exec_operation hw hp s
    cases hu.symm.trans h
    exact hf.phase

/-- Settles O48 by whether the instruction is a tick step. -/
theorem phaseFollowsTheFixedOrder : Obligations.PhaseFollowsTheFixedOrder := by
  unfold Obligations.PhaseFollowsTheFixedOrder
  refine ⟨fun i s t h => ?_, fun p => ⟨phaseOf_instr p, ?_⟩⟩
  · cases hp : phaseOf i with
    | some p =>
      rw [exec_phase hp, Host.Outcome.next.injEq] at h
      exact h ▸ rfl
    | none => exact exec_phase_of_none hp h
  · cases p <;> rfl

end Sys2Proof.Machine
end

section
/-! Proofs. A communication timeout stops the motors (R177, R205): ENABLE cleared at T7 leaves no throttle at T9, no
corrections at T10, and so no duty at T11, in either mode. -/

namespace Sys2Proof.Machine

/-- A register a step does not list keeps its value through the step. -/
theorem runStep_x_of_not_mem {s : State} (hc : s.cfg.Ok) {p : Phase} {r : Reg} (hr : r ∉ p.registers) :
    (s.runStep p).x r = s.x r := by
  have hslot := runStep_getElem?_ne (p := p) (s := s) (j := s.cfg.id r) fun q hq hid => hr (id_injective hc hid ▸ hq)
  simp only [State.x, State.slot, runStep_cfg, List.getD_eq_getElem?_getD, hslot]

/-- T7 clears ENABLE on a timeout (R177). -/
theorem runStep_t7_enable {s : State} (hc : s.cfg.Ok) (hm : Memory.wf s.cfg.n s.regs = true)
    (hlate : (s.cfg.commTimeout : Int) < (s.lt.tStart : Int) - s.lastRx) : (s.runStep .t7).x .enable = 0 := by
  rw [runStep_t7, if_pos (commTimeout_iff.mpr hlate)]
  exact (x_setX hc hm .enable .enable 0).trans (if_pos rfl)

/-- T9 of a disabled vehicle answers no throttle, with a ceiling not negative (R114, R179). -/
theorem runStep_t9_thr {s : State} (hen : s.x .enable = 0) (hceil : 0 ≤ s.ap.ceiling) : (s.runStep .t9).lt.thr = 0 := by
  have hreq : s.requested = 0 := if_pos hen
  obtain ⟨hlow, hhigh⟩ := s.ap.throttle_reduces (now := s.lt.tStart) (le_refl 0) hceil
  rw [runStep_t9, hreq]
  exact le_antisymm hhigh hlow

/-- T11 outputs nothing for a disabled vehicle without throttle and corrections, in either mode (R139, R140, R181). -/
theorem runStep_t11_dutyOut {s : State} (hz : s.cfg.num.KeepsZero) (hen : s.lt.en = 0) (hthr : s.lt.thr = 0)
    (hrud : s.lt.rud = 0) (hele : s.lt.ele = 0) (hail : s.lt.ail = 0) : (s.runStep .t11).dutyOut = ⟨0, 0, 0, 0⟩ := by
  by_cases h : s.x .testMode = 0x00A5
  · rw [runStep_t11_test h, hen]
    rfl
  · rw [runStep_t11_normal h, hthr, hrud, hele, hail]
    change s.mixDuties 0 0 0 0 s.lt.vf = _
    refine Quad.ext_get fun i => ?_
    rw [s.mixDuties_get, mixOf_zero hz, dutyOf_zero]
    fin_cases i <;> rfl

/-- Only T2 to T4 change the failsafe's state. -/
theorem runStep_ap {p : Phase} (hp : p ≠ .t2 ∧ p ≠ .t3 ∧ p ≠ .t4) (s : State) : (s.runStep p).ap = s.ap := by
  obtain ⟨h2, h3, h4⟩ := hp
  have hap : (s.runStep p).ap = (s.unitsAfter p.instr).ap := congrArg UnitState.ap (exec_units (exec_tick p s))
  cases p with
  | t2 => exact absurd rfl h2
  | t3 => exact absurd rfl h3
  | t4 => exact absurd rfl h4
  | _ => exact hap

/-- A disabled vehicle whose failsafe cannot answer a negative throttle, under a NUM with zeros that stay zeros. -/
structure State.Disabled (s : State) : Prop where
  cfg : s.cfg.Ok
  keepsZero : s.cfg.num.KeepsZero
  enable : s.x .enable = 0
  ceiling : 0 ≤ s.ap.ceiling

/-- It stays disabled through a step that writes neither ENABLE nor the failsafe's state. -/
theorem State.Disabled.runStep {s : State} (h : s.Disabled) {p : Phase} (hp : .enable ∉ p.registers)
    (hap : p ≠ .t2 ∧ p ≠ .t3 ∧ p ≠ .t4) : (s.runStep p).Disabled where
  cfg := (runStep_cfg p s).symm ▸ h.cfg
  keepsZero := (runStep_cfg p s).symm ▸ h.keepsZero
  enable := (runStep_x_of_not_mem h.cfg hp).trans h.enable
  ceiling := (runStep_ap hap s).symm ▸ h.ceiling

/-- A timeout at T7 disables the vehicle (R177). -/
theorem runStep_t7_disabled {s : State} (hs : s.Ok) (hceil : 0 ≤ s.ap.ceiling) (hz : s.cfg.num.KeepsZero)
    (hlate : (s.cfg.commTimeout : Int) < (s.lt.tStart : Int) - s.lastRx) : (s.runStep .t7).Disabled where
  cfg := (runStep_cfg .t7 s).symm ▸ hs.cfg
  keepsZero := (runStep_cfg .t7 s).symm ▸ hz
  enable := runStep_t7_enable hs.cfg hs.memory hlate
  ceiling := (runStep_ap (p := .t7) (by decide) s).symm ▸ hceil

/-- T9 to T11 of a disabled vehicle output four zeros (R179 to R181). -/
theorem State.Disabled.dutyOut {s : State} (h : s.Disabled) :
    (((s.runStep .t9).runStep .t10).runStep .t11).dutyOut = ⟨0, 0, 0, 0⟩ := by
  have hen : (s.runStep .t9).lt.en = 0 := h.enable
  have hthr : (s.runStep .t9).lt.thr = 0 := runStep_t9_thr h.enable h.ceiling
  have hz : ((s.runStep .t9).runStep .t10).cfg.num.KeepsZero := by
    rw [runStep_cfg, runStep_cfg]
    exact h.keepsZero
  rw [runStep_t10_disarmed (.inl hen)] at hz ⊢
  exact runStep_t11_dutyOut hz hen hthr rfl rfl rfl

/-- Where nobody disturbs the block there is no planned turn to take. -/
theorem State.Undisturbed.afterTurn_eq {s : State} (h : s.Undisturbed) : s.afterTurn = s := by
  obtain ⟨-, hagenda, -, -⟩ := h
  cases s
  cases hagenda
  rfl

/-- A step of a block nobody disturbs, and the block after it. -/
theorem run_runStep {s : State} {p : Phase} (h : s.Undisturbed) (hm : s.micro = 0) (hp : s.phase = p) (n : Nat) :
    core.run (n + 1) s = core.run n (s.runStep p) ∧
      (s.runStep p).Undisturbed ∧ (s.runStep p).micro = 0 ∧ (s.runStep p).phase = p.next := by
  have hrun := run_undisturbed (n := n) h hm hp
  have hnext := runStep_undisturbed h p
  rw [h.afterTurn_eq] at hrun hnext
  exact ⟨hrun, hnext⟩

/-- Settles O51: the five steps one after the other, the vehicle disabled from T7 on. -/
theorem timeoutStopsTheMotors : Obligations.TimeoutStopsTheMotors := by
  unfold Obligations.TimeoutStopsTheMotors
  intro s hs hu hp hm hceil hz hlate
  obtain ⟨h7, hu, hm, hp⟩ := run_runStep hu hm hp 4
  obtain ⟨h8, hu, hm, hp⟩ := run_runStep hu hm hp 3
  obtain ⟨h9, hu, hm, hp⟩ := run_runStep hu hm hp 2
  obtain ⟨h10, hu, hm, hp⟩ := run_runStep hu hm hp 1
  obtain ⟨h11, -, -, hp⟩ := run_runStep hu hm hp 0
  have hd8 := (runStep_t7_disabled hs hceil hz hlate).runStep (p := .t8) (by decide) (by decide)
  have hd9 := hd8.runStep (p := .t9) (by decide) (by decide)
  have hd10 := hd9.runStep (p := .t10) (by decide) (by decide)
  have hd11 := hd10.runStep (p := .t11) (by decide) (by decide)
  exact ⟨_, h7.trans (h8.trans (h9.trans (h10.trans h11))), hp, hd11.enable, hd8.dutyOut⟩

end Sys2Proof.Machine
end

section
/-! Proofs. What a turn of one agent leaves of the other's (R206, R211), and when a step has no next state (R200). -/

namespace Sys2Proof.Machine

/-! ### What an agent leaves alone -/

/-- Settles O33: a turn of PKT keeps PKT's frame. -/
theorem pktLeavesTickAlone : Obligations.PktLeavesTickAlone := by
  unfold Obligations.PktLeavesTickAlone
  intro s t hc hp hturn h
  rw [step_turn hc] at h
  have hf := pktTurn_frame (s := s.afterTurn) hp hturn h
  exact ⟨hf.bf, hf.cal, hf.origin, hf.fstate, hf.ap, hf.phase, hf.deadline, hf.lt, hf.micro, hf.loc, hf.dutyOut,
    hf.indicator⟩

/-- The state of the protocol server: the timestamp and its draw, the request, the response, what PKT has in hand, and the
deliveries (R26, R150). -/
def State.server (s : State) : Nat × Nat × Datagram × List Byte × PktStage × List Datagram :=
  (s.lastRx, s.rxTime, s.rx, s.tx, s.pkt, s.inbox)

theorem TickFrame.server {s t : State} (h : TickFrame s t) : t.server = s.server := by
  simp only [State.server, h.lastRx, h.rxTime, h.rx, h.tx, h.pkt, h.inbox]

/-- A turn of TICK leaves the protocol server alone, whether its step goes on or is over. -/
theorem tickTurn_server {s t : State} {turn : Turn} (hturn : turn = .tick ∨ turn = .tickEvent)
    (h : s.takeTurn turn = .next t) : t.server = s.server := by
  obtain ⟨es, hes, rfl | ⟨rfl, -⟩⟩ := tickTurns_cases hturn h <;> exact (tickPart_frame hes s).server

/-- Settles O34: what the statement lists is the protocol server. -/
theorem tickLeavesPktAlone : Obligations.TickLeavesPktAlone := by
  unfold Obligations.TickLeavesPktAlone
  intro s t hc hturn h
  rw [step_turn hc] at h
  have hserver : t.server = s.server := tickTurn_server (s := s.afterTurn) hturn h
  simp only [State.server, Prod.mk.injEq] at hserver
  obtain ⟨hlastRx, hrxTime, hrx, htx, hpkt, hinbox⟩ := hserver
  exact ⟨hlastRx, hrx, htx, hpkt, hrxTime, hinbox⟩

/-! ### Steps without a next state -/

/-- Settles O52 by the three kinds of instruction: wire commands, tick steps, operations. -/
theorem everyInstructionCompletes : Obligations.EveryInstructionCompletes := by
  unfold Obligations.EveryInstructionCompletes
  exact exec_next

section
variable {s : State} {r : Refusal}

theorem exec_ne_refused {i : Instr} : exec i s ≠ .refused r := by
  obtain ⟨t, ht⟩ := exec_next i s
  rw [ht]
  exact nofun

/-- Only a datagram over RX_MAX is outside the spec; one that is too short is another matter (R71, X1). -/
theorem length_of_decodeDatagram_tooLong {rxMax : Nat} {rx : List Byte}
    (h : decodeDatagram rxMax rx = .reject .tooLong) : rxMax < rx.length := by
  unfold decodeDatagram at h
  split at h
  · assumption
  · repeat' split at h
    all_goals cases h

/-- The only datagram PKT cannot take up is one over RX_MAX (log 14). -/
theorem takeUp_refused (h : s.takeUp = .refused r) :
    r = .datagramTooLong ∧ ∃ d ds, s.inbox = d :: ds ∧ s.cfg.rxMax < d.bytes.length := by
  unfold State.takeUp at h
  split at h
  · cases h
  · next d ds hi =>
    split at h
    case h_2 hd =>
      cases h
      exact ⟨rfl, d, ds, hi, length_of_decodeDatagram_tooLong hd⟩
    all_goals cases h

theorem handleInHand_ne_refused : s.handleInHand ≠ .refused r := by
  unfold State.handleInHand
  split
  · exact nofun
  · exact exec_ne_refused
  · exact nofun

/-- A turn of an agent is refused only where PKT cannot take a datagram up. -/
theorem takeTurn_refused {turn : Turn} (h : s.takeTurn turn = .refused r) : s.takeUp = .refused r := by
  cases turn with
  | tick =>
    change s.tickTurn = _ at h
    unfold State.tickTurn at h
    split at h
    · exact absurd h exec_ne_refused
    · cases h
  | tickEvent => cases h
  | pkt =>
    change s.pktTurn = _ at h
    unfold State.pktTurn at h
    split at h
    · exact absurd h handleInHand_ne_refused
    · split at h
      · exact absurd h handleInHand_ne_refused
      · cases h
      · next hu =>
        cases h
        exact hu
  | pktEvent =>
    change s.pktEventTurn = _ at h
    unfold State.pktEventTurn at h
    split at h
    · exact h
    · cases h

/-- A call is refused only where it names no operation (log 9). -/
theorem callTurn_refused {c : Call} (h : s.callTurn c = .refused r) : r = .badCall ∧ ∃ e, decodeCall c = .reject e := by
  unfold State.callTurn at h
  split at h
  · exact absurd h exec_ne_refused
  · next e he =>
    cases h
    exact ⟨rfl, e, he⟩

end

/-- Settles O54: no fault can be written down (R200), and a step is a call or a turn of an agent. -/
theorem stepStopsOnlyOutsideTheSpec : Obligations.StepStopsOnlyOutsideTheSpec := by
  unfold Obligations.StepStopsOnlyOutsideTheSpec
  intro s
  refine ⟨nofun, fun r h => ?_⟩
  unfold step at h
  split at h
  · next c hc =>
    obtain ⟨hr, e, he⟩ := callTurn_refused h
    exact .inl ⟨hr, c, e, hc, he⟩
  · exact .inr (takeUp_refused (s := s.afterTurn) (takeTurn_refused h))

end Sys2Proof.Machine
end

section
/-! Proofs. The reset event on whatever state was before it (R231). -/

namespace Sys2Proof.Machine

/-- The four motors driven in motor order. -/
theorem outputDuty_four (s : State) (a b c d : Nat) :
    (((s.outputDuty 0 a).outputDuty 1 b).outputDuty 2 c).outputDuty 3 d =
      { s with dutyOut := ⟨a, b, c, d⟩, out := s.out ++ dutyOutputs ⟨a, b, c, d⟩ } := by
  simp only [State.outputDuty, State.emit, List.append_assoc]
  rfl

/-- The outputs of the reset event: the four motors at 0, then the indicator, after all that was output before (log 23). -/
theorem powerOn_out (s : State) :
    s.powerOn.out = s.out ++ [.duty 0 0, .duty 1 0, .duty 2 0, .duty 3 0, .indicator .calibrating] := by
  simp only [State.powerOn, outputDuty_four]
  exact List.append_assoc s.out (dutyOutputs ⟨0, 0, 0, 0⟩) [.indicator .calibrating]

/-- Settles O7: `powerOn` writes every listed field with its value; the outputs by `powerOn_out`. -/
theorem powerOnPerformsTheResetSequence : Obligations.PowerOnPerformsTheResetSequence := by
  unfold Obligations.PowerOnPerformsTheResetSequence
  intro s
  exact ⟨rfl, rfl, rfl, rfl, rfl, rfl, rfl, rfl, rfl, rfl, rfl, rfl, powerOn_out s, rfl, rfl, rfl⟩

end Sys2Proof.Machine
end
